-- ==== Sys2Proof/Word.lean ====
section
/-! DEFINITION. The word types of the block: 32-bit registers and data words (R70), 8-bit samples and lanes (R5). -/

namespace Sys2Proof

/-- A 32-bit register, command word or data word (10_state.md §2, R70). -/
abbrev Word := BitVec 32

/-- An 8-bit sample, LUT lane or memory byte (R5). -/
abbrev Byte := BitVec 8

end Sys2Proof
end

