-- ==== Sys2Proof/Config.lean ====
section
/-! DEFINITION. The free values: what the spec leaves open, as constants with no body, so that nothing can be proved of
them. Each is applied to State's counter `draws`, so that every draw is a fresh value (log 6). The platform's parameters
(R7) are plain data in `Machine.State.platform` (log 3). -/

namespace Sys2Proof

/-- The byte the memory port reads where memory holds no known value: after an errored write (R58, 93 item S2 "any value, a
free draw, fresh at each read"), of an access in flight at reset (R211, S3), and where no agent has stored (R46). Log 4. -/
opaque Config.freeByte : Nat → Byte

/-- A free choice: the engine's next element, where the schedule `picks` gives none (R65, R104 "choose k ... any"; log 5), and
whether a load sees an element of a running command old or new on a non-coherent platform (R218; log 10). -/
opaque Config.freePick : Nat → Nat

end Sys2Proof
end

