-- ==== Sys2Proof/Syntax.lean ====
section
/-! DEFINITION. The commands of spec/opcode_table.json, the error codes of R180, the host's register transactions (R70)
and the events of the agents (R8). -/

namespace Sys2Proof

/-- A channel of a pixel, or a lane of a LUT entry: the values of CHSEL (R75). -/
inductive Channel where
  | r | g | b | a
deriving DecidableEq, Repr

/-- The ten commands (R73, R81). Each constructor carries every field of the word that its opcode does not fix, the
ignored ones too (R80): LAST_CMD reads back the whole accepted word (R25) and CUR latches all the fields (R94). -/
inductive Instr where
  /-- NOP (R108); every field is ignored. -/
  | nop (fmt : BitVec 2) (chsel : Channel) (lmask : BitVec 4) (par acc : Bool)
  /-- LUT_IDENT (R121); reads LMASK. -/
  | lutIdent (fmt : BitVec 2) (chsel : Channel) (lmask : BitVec 4) (par acc : Bool)
  /-- LUT_LOAD (R122); reads LMASK. -/
  | lutLoad (fmt : BitVec 2) (chsel : Channel) (lmask : BitVec 4) (par acc : Bool)
  /-- APPLY_LUT.U8 (R123), FMT = 0; reads CHSEL. -/
  | applyLutU8 (chsel : Channel) (lmask : BitVec 4) (par acc : Bool)
  /-- APPLY_LUT.RGBA (R124), FMT = 1; reads LMASK, and PAR for timing only. -/
  | applyLutRgba (chsel : Channel) (lmask : BitVec 4) (par acc : Bool)
  /-- HIST.U8 (R142), FMT = 0; reads ACC. -/
  | histU8 (chsel : Channel) (lmask : BitVec 4) (par acc : Bool)
  /-- HIST.RGBA (R143), FMT = 1; reads CHSEL and ACC. -/
  | histRgba (chsel : Channel) (lmask : BitVec 4) (par acc : Bool)
  /-- CDF (R145); every field is ignored. -/
  | cdf (fmt : BitVec 2) (chsel : Channel) (lmask : BitVec 4) (par acc : Bool)
  /-- HIST_CLEAR (R141); every field is ignored. -/
  | histClear (fmt : BitVec 2) (chsel : Channel) (lmask : BitVec 4) (par acc : Bool)
  /-- SAT (R164); every field is ignored. -/
  | sat (fmt : BitVec 2) (chsel : Channel) (lmask : BitVec 4) (par acc : Bool)
deriving DecidableEq, Repr

/-- The values of STATUS.ERRCODE (R180). The codes 8 to 15 are never produced (93 item S14): they have no constructor. -/
inductive ErrCode where
  | noError | badOpc | badFmt | busy | overlap | align | range | bus
deriving DecidableEq, Repr

/-- The direction of a register transaction (R70) or of a memory-port access (R7). -/
inductive Dir where
  | read | write
deriving DecidableEq, Repr

/-- The width of a register-port transaction (R71). -/
inductive BusWidth where
  | w8 | w16 | w32
deriving DecidableEq, Repr

/-- A register transaction (R70), of any width and byte offset; a read's `data` is not used. -/
structure Transaction where
  dir   : Dir
  width : BusWidth
  off   : BitVec 12
  data  : Word
deriving DecidableEq, Repr

/-- The port's access that is in flight at a reset (R211): the read or the write of the element that choice number `pick`
picks (log 13). -/
structure InFlight where
  dir  : Dir
  pick : Nat
deriving DecidableEq, Repr

/-- What the agents do (R8): the events from which a run's interleaving is made (R103, R189; log 1). -/
inductive Event where
  /-- The host performs a register transaction (R95, R96). -/
  | reg (t : Transaction)
  /-- The engine takes its next step, if it has one (R103). -/
  | engine
  /-- The host polls STATUS until BUSY = 0, the engine stepping between polls (pseudo-instruction WAIT, R85; log 16). -/
  | wait
  /-- The host or another agent stores bytes to memory, the first at `addr` (R8, R218; log 11). -/
  | memStore (addr : Word) (bytes : List Byte)
  /-- The host or another agent loads `len` bytes from `addr` (R218 "Reads by other agents are allowed"; log 11). -/
  | memLoad (addr : Word) (len : Nat)
  /-- The host performs the platform's cache maintenance (R67, R223; log 10). -/
  | maintain
  /-- The platform resets the block (R210), with an access in flight or none (R211). -/
  | reset (inFlight : Option InFlight)
deriving DecidableEq, Repr

end Sys2Proof
end

