-- ==== Sys2Proof/Machine/State.lean ====
section
/-! DEFINITION. State: everything the spec gives the block, the memory agent's bytes, the platform's parameters and the
model's own schedule, all as plain data; the reasons a step can stop; and the state after reset. -/

namespace Sys2Proof.Machine

/-- A cell of the LUT, HIST or CDF array (R11): "A cell of an array holds either a value or `UNSPEC`. `UNSPEC` means no
value has been written since reset". -/
inductive ArrayCell (α : Type) where
  | unspec
  | val (v : α)
deriving DecidableEq, Repr

/-- A LUT entry: four 8-bit lanes R, G, B, A (R40). -/
structure LutEntry where
  r : ArrayCell Byte
  g : ArrayCell Byte
  b : ArrayCell Byte
  a : ArrayCell Byte
deriving DecidableEq, Repr

/-- An array of 256 cells, one per 8-bit value (R5). -/
abbrev Table (α : Type) := Vector α 256

/-- STATUS (R23). Bits [31:8] are RAZ/WI and are not stored. -/
structure Status where
  busy    : Bool
  done    : Bool
  error   : Bool
  hovf    : Bool
  errcode : ErrCode
deriving DecidableEq, Repr

/-- IRQ_EN (R24). Bits [31:2] are RAZ/WI and are not stored. -/
structure IrqEn where
  doneIe  : Bool
  errorIe : Bool
deriving DecidableEq, Repr

/-- CUR, the latched command (R43). `cmd` holds CUR.op, fmt, chsel, lmask, par and acc; `done` is the set of finished
element indices, as a strictly rising list. -/
structure Cur where
  cmd  : Instr
  src  : Word
  dst  : Word
  lut  : Word
  n    : Nat
  done : List Nat
deriving DecidableEq, Repr

/-- Memory outside the block (R50): the bytes whose value is known, by strictly rising address. What an unlisted address
reads as is a free value (log 4). -/
abbrev Memory := List Host.Cell

/-- One memory-port access (R7, R12): `bytes` bytes from `addr`. -/
structure Access where
  addr  : Nat
  bytes : Nat
  dir   : Dir
deriving DecidableEq, Repr

/-- A byte range `[base, base + size)` (R61). -/
structure Region where
  base : Nat
  size : Nat
deriving DecidableEq, Repr

/-- The platform's parameters (R7) and the locations it marks as devices (R221). No step changes them (log 3). -/
structure Platform where
  /-- REG_BASE: where the register window lies in the host's address space. -/
  regBase  : Nat
  /-- MEM_OK: the accesses that get an error response; every other access completes. -/
  memErr   : List Access
  /-- Locations with side effects (R59, R221). -/
  devices  : List Region
  /-- IRQ_LINE: where `irq` is routed. -/
  irqLine  : Nat
  /-- COHERENT (R67). -/
  coherent : Bool
deriving DecidableEq, Repr

/-- What the host got for an event of its own, as the register port or memory answered it. -/
inductive Reply where
  /-- A register read returned this word (R95). -/
  | data (v : Word)
  /-- A register write was taken by the port. -/
  | ack
  /-- The register port answered with a bus error (R71). -/
  | busError
  /-- A memory load returned these bytes. -/
  | bytes (bs : List Byte)
deriving DecidableEq, Repr

structure State where
  -- the registers of the window (R22 to R38)
  status    : Status
  irqEn     : IrqEn
  lastCmd   : Word
  srcAddr   : Word
  dstAddr   : Word
  width     : BitVec 16
  height    : BitVec 16
  lutAddr   : Word
  progress  : Word
  satInLo   : Word
  satInHi   : Word
  -- the internal arrays (R40 to R42)
  lut       : Table LutEntry
  hist      : Table (ArrayCell Word)
  cdf       : Table (ArrayCell Word)
  -- the hidden state (R43)
  cur       : Cur
  -- the memory agent (R50)
  mem       : Memory
  -- the platform's parameters (R7)
  platform  : Platform
  -- the model's own fields: events to come, answers given (newest first), the engine's coming element choices, the count
  -- of free values drawn, and for a non-coherent platform the addresses stored that are not yet visible across the port,
  -- with memory as the host saw it when the running command was accepted
  agenda    : List Event
  replies   : List Reply
  picks     : List Nat
  draws     : Nat
  hostDirty : List Nat
  portDirty : List Nat
  hostView  : Memory
deriving DecidableEq, Repr

/-- The reasons a step stops the run. -/
inductive Fault where
  /-- The spec's model fault UnwrittenRead (R199, R214): raised by an element step of APPLY_LUT.U8, APPLY_LUT.RGBA, HIST.U8 or
  HIST.RGBA, by CDF, and by a host read of the HIST, CDF or LUT window, when it reads an UNSPEC cell. Safe: the real block
  goes on with some value. -/
  | unwrittenRead
  /-- The spec's model fault HostDutyBroken (R199, R218, R221): raised by a store of another agent into a region of the
  running command, and by the acceptance of a command whose region names a device or the register window. Safe. -/
  | hostDutyBroken
  /-- A load or store of another agent passes address 0xFFFF_FFFF (R50): no such byte exists. Safe (log 11). -/
  | noSuchAddress
deriving DecidableEq, Repr

/-- The reasons the model gives an instruction no meaning. -/
inductive Refusal where
  /-- An instruction whose arm of `exec` has no meaning yet; raised by `exec` only. Safe. -/
  | notModelled (mnemonic : String)
  /-- COHERENT is false and the host omitted the platform's maintenance before a command that uses bytes it stored, or
  before a load of bytes an ended command stored: "a host that skips maintenance is `refuse`d (not modelled)" (93 item S8),
  "the spec does not model a host that omits it" (R67). Raised by the acceptance of a command and by a memory load. Safe. -/
  | maintenanceOmitted
deriving DecidableEq, Repr

/-- What an element of a command comes to (R104): finished, an error response on the memory port, or a model fault. -/
inductive Elem where
  | ok (s : State)
  | busError (s : State)
  | stop (f : Fault)
deriving DecidableEq, Repr

/-- STATUS after reset: 0 (R23). -/
def Status.reset : Status := { busy := false, done := false, error := false, hovf := false, errcode := .noError }

/-- IRQ_EN after reset: 0 (R24). -/
def IrqEn.reset : IrqEn := { doneIe := false, errorIe := false }

/-- An entry with every lane UNSPEC (R40). -/
def LutEntry.reset : LutEntry := { r := .unspec, g := .unspec, b := .unspec, a := .unspec }

/-- CUR after reset: "irrelevant: no rule reads it while BUSY = 0" (R43). DESIGN CHOICE, log 8. -/
def Cur.reset : Cur :=
  { cmd := .nop 0#2 .r 0#4 false false, src := 0#32, dst := 0#32, lut := 0#32, n := 0, done := [] }

/-- The platform of State.reset: every access completes, no device, coherent, and the register window above the memory
port's space. DESIGN CHOICE, log 3. -/
def Platform.reset : Platform :=
  { regBase := 2 ^ 32, memErr := [], devices := [], irqLine := 0, coherent := true }

/-- The machine right after reset (R210, R212): every register at its rule's value, every array cell UNSPEC, nothing known of
memory, no event to come. -/
def State.reset : State :=
  { status := Status.reset, irqEn := IrqEn.reset, lastCmd := 0#32, srcAddr := 0#32, dstAddr := 0#32,
    width := 0#16, height := 0#16, lutAddr := 0#32, progress := 0#32, satInLo := 0#32, satInHi := 0#32,
    lut := Vector.replicate 256 LutEntry.reset, hist := Vector.replicate 256 .unspec,
    cdf := Vector.replicate 256 .unspec, cur := Cur.reset, mem := [], platform := Platform.reset,
    agenda := [], replies := [], picks := [], draws := 0, hostDirty := [], portDirty := [],
    hostView := [] }

end Sys2Proof.Machine
end

