-- ==== Sys2Proof/Machine/Flags.lean ====
section
/-! DEFINITION. STATUS and IRQ_EN: their words as the host reads them (R23, R24), the error codes (R180), the write-1-to-clear
write (R185), every change of a flag (R45), and the irq output (R187). -/

namespace Sys2Proof.Machine

/-- The value of an ERRCODE (R180). -/
def errNumber : ErrCode → BitVec 4
  | .noError => 0#4
  | .badOpc => 1#4
  | .badFmt => 2#4
  | .busy => 3#4
  | .overlap => 4#4
  | .align => 5#4
  | .range => 6#4
  | .bus => 7#4

/-- STATUS as a word (R23): bits 0 BUSY, 1 DONE, 2 ERROR, 3 HOVF, [7:4] ERRCODE, [31:8] zero. -/
def Status.word (st : Status) : Word :=
  0#24 ++ errNumber st.errcode ++ BitVec.ofBool st.hovf ++ BitVec.ofBool st.error ++ BitVec.ofBool st.done
    ++ BitVec.ofBool st.busy

/-- IRQ_EN as a word (R24). -/
def IrqEn.word (en : IrqEn) : Word := 0#30 ++ BitVec.ofBool en.errorIe ++ BitVec.ofBool en.doneIe

/-- `IRQ_EN <- v & 0x0000_0003` (R98). -/
def IrqEn.ofWord (v : Word) : IrqEn := { doneIe := v.getLsbD 0, errorIe := v.getLsbD 1 }

/-- Recording an error (R181). -/
def Status.withError (e : ErrCode) (st : Status) : Status := { st with error := true, errcode := e }

/-- A host write of `v` to STATUS (R23): bit 1 clears DONE, bit 3 clears HOVF, bit 2 clears ERROR and ERRCODE. -/
def Status.cleared (v : Word) (st : Status) : Status :=
  { busy := st.busy
    done := st.done && !v.getLsbD 1
    error := st.error && !v.getLsbD 2
    hovf := st.hovf && !v.getLsbD 3
    errcode := if v.getLsbD 2 then .noError else st.errcode }

/-- Acceptance: DONE <- 0, BUSY <- 1 (R94). -/
def Status.accepted (st : Status) : Status := { st with busy := true, done := false }

/-- Completion: BUSY <- 0, DONE <- 1 (R106). -/
def Status.completed (st : Status) : Status := { st with busy := false, done := true }

/-- Abort: BUSY <- 0, ERROR <- 1, ERRCODE <- BUS (R107). -/
def Status.aborted (st : Status) : Status := Status.withError .bus { st with busy := false }

/-- HOVF <- 1 if `passed` (R144, R145). -/
def Status.overflow (passed : Bool) (st : Status) : Status := { st with hovf := st.hovf || passed }

/-- `irq = (DONE and DONE_IE) or (ERROR and ERROR_IE)` (R187). -/
def State.irq (s : State) : Bool :=
  (s.status.done && s.irqEn.doneIe) || (s.status.error && s.irqEn.errorIe)

/-- The platform's interrupt line `IRQ_LINE` and its level (R187). -/
def State.irqOutput (s : State) : Nat × Bool := (s.platform.irqLine, s.irq)

end Sys2Proof.Machine
end

