-- ==== Sys2Proof/WellFormed.lean ====
section
/-! DEFINITION. Well-formedness: of a command (every term is one), of a register transaction (R71), and of a memory event
(its bytes exist, R50). -/

namespace Sys2Proof

/-- Every field value of every command is legal (R75 "All four values are legal", R76 "All sixteen values are legal", R82
"Non-zero values in ignored fields are not reserved"), and the fields' types hold no value that has no encoding: no command
term is ill-formed. -/
def Instr.wf : Instr → Bool
  | .nop _ _ _ _ _ => true
  | .lutIdent _ _ _ _ _ => true
  | .lutLoad _ _ _ _ _ => true
  | .applyLutU8 _ _ _ _ => true
  | .applyLutRgba _ _ _ _ => true
  | .histU8 _ _ _ _ => true
  | .histRgba _ _ _ _ => true
  | .cdf _ _ _ _ _ => true
  | .histClear _ _ _ _ _ => true
  | .sat _ _ _ _ _ => true

/-- A transaction is well-formed when it is 32 bits wide and `off[1:0] = 0` (R71). -/
def Transaction.wf (t : Transaction) : Bool :=
  decide (t.width = .w32) && decide (t.off.extractLsb' 0 2 = 0)

/-- The bytes of a load or store by another agent lie in the 2^32-byte space (R50). -/
def spanExists (addr : Word) (len : Nat) : Bool := decide (addr.toNat + len ≤ 2 ^ 32)

/-- An event is well-formed when its transaction is (R71) or its memory bytes exist (R50). An ill-formed one is answered as
the machine says (a bus error reply, a fault); it is never silently given a meaning. -/
def Event.wf : Event → Bool
  | .reg t => t.wf
  | .engine => true
  | .wait => true
  | .memStore addr bytes => spanExists addr bytes.length
  | .memLoad addr len => spanExists addr len
  | .maintain => true
  | .reset _ => true

end Sys2Proof
end

