-- ==== Sys2Proof/Decode.lean ====
section
/-! DEFINITION. The command word (R72): decoding (R81), encoding (R86), the field accessors, and the canonical disassembly
(R87). Decoding is total: a word that spells no command is rejected with its error code (R82). -/

namespace Sys2Proof

/-- The channel a CHSEL value selects (R75: 0 = R, 1 = G, 2 = B, 3 = A). -/
def channelOf (c : BitVec 2) : Channel :=
  match c.toNat with
  | 0 => .r
  | 1 => .g
  | 2 => .b
  | _ => .a

/-- The CHSEL value of a channel (R75). -/
def Channel.code : Channel → BitVec 2
  | .r => 0#2
  | .g => 1#2
  | .b => 2#2
  | .a => 3#2

/-- Lane number of a channel (R11: 0 = R, 1 = G, 2 = B, 3 = A). -/
def Channel.lane (c : Channel) : Nat := c.code.toNat

/-- `decode` of R81, reading the fields of R72. -/
def decode (w : Word) : Except ErrCode Instr :=
  if w.extractLsb' 14 18 ≠ 0 then .error .badOpc
  else
    let fmt := w.extractLsb' 4 2
    let ch := channelOf (w.extractLsb' 6 2)
    let lmask := w.extractLsb' 8 4
    let par := w.getLsbD 12
    let acc := w.getLsbD 13
    match (w.extractLsb' 0 4).toNat with
    | 0 => .ok (.nop fmt ch lmask par acc)
    | 1 => .ok (.lutIdent fmt ch lmask par acc)
    | 2 => .ok (.lutLoad fmt ch lmask par acc)
    | 3 =>
      match fmt.toNat with
      | 0 => .ok (.applyLutU8 ch lmask par acc)
      | 1 => .ok (.applyLutRgba ch lmask par acc)
      | _ => .error .badFmt
    | 4 =>
      match fmt.toNat with
      | 0 => .ok (.histU8 ch lmask par acc)
      | 1 => .ok (.histRgba ch lmask par acc)
      | _ => .error .badFmt
    | 5 => .ok (.cdf fmt ch lmask par acc)
    | 6 => .ok (.histClear fmt ch lmask par acc)
    | 7 => .ok (.sat fmt ch lmask par acc)
    | _ => .error .badOpc

/-- The data word of four byte lanes of the host bus: lane 0 carries bits [7:0] (R70). -/
def wordOfLanes (b0 b1 b2 b3 : Byte) : Word := b3 ++ b2 ++ b1 ++ b0

/-- Decoding the four bytes of a command word as they travel on the register bus (R70, R83). -/
def decodeLanes (b0 b1 b2 b3 : Byte) : Except ErrCode Instr := decode (wordOfLanes b0 b1 b2 b3)

/-- OPC of a command (R73). -/
def Instr.opc : Instr → BitVec 4
  | .nop _ _ _ _ _ => 0x0#4
  | .lutIdent _ _ _ _ _ => 0x1#4
  | .lutLoad _ _ _ _ _ => 0x2#4
  | .applyLutU8 _ _ _ _ => 0x3#4
  | .applyLutRgba _ _ _ _ => 0x3#4
  | .histU8 _ _ _ _ => 0x4#4
  | .histRgba _ _ _ _ => 0x4#4
  | .cdf _ _ _ _ _ => 0x5#4
  | .histClear _ _ _ _ _ => 0x6#4
  | .sat _ _ _ _ _ => 0x7#4

/-- FMT of a command (R74); an ignored FMT is whatever the word held (R80). -/
def Instr.fmt : Instr → BitVec 2
  | .nop f _ _ _ _ => f
  | .lutIdent f _ _ _ _ => f
  | .lutLoad f _ _ _ _ => f
  | .applyLutU8 _ _ _ _ => 0#2
  | .applyLutRgba _ _ _ _ => 1#2
  | .histU8 _ _ _ _ => 0#2
  | .histRgba _ _ _ _ => 1#2
  | .cdf f _ _ _ _ => f
  | .histClear f _ _ _ _ => f
  | .sat f _ _ _ _ => f

/-- CHSEL of a command (R75). -/
def Instr.chsel : Instr → Channel
  | .nop _ c _ _ _ => c
  | .lutIdent _ c _ _ _ => c
  | .lutLoad _ c _ _ _ => c
  | .applyLutU8 c _ _ _ => c
  | .applyLutRgba c _ _ _ => c
  | .histU8 c _ _ _ => c
  | .histRgba c _ _ _ => c
  | .cdf _ c _ _ _ => c
  | .histClear _ c _ _ _ => c
  | .sat _ c _ _ _ => c

/-- LMASK of a command (R76). -/
def Instr.lmask : Instr → BitVec 4
  | .nop _ _ m _ _ => m
  | .lutIdent _ _ m _ _ => m
  | .lutLoad _ _ m _ _ => m
  | .applyLutU8 _ m _ _ => m
  | .applyLutRgba _ m _ _ => m
  | .histU8 _ m _ _ => m
  | .histRgba _ m _ _ => m
  | .cdf _ _ m _ _ => m
  | .histClear _ _ m _ _ => m
  | .sat _ _ m _ _ => m

/-- PAR of a command (R77). -/
def Instr.par : Instr → Bool
  | .nop _ _ _ p _ => p
  | .lutIdent _ _ _ p _ => p
  | .lutLoad _ _ _ p _ => p
  | .applyLutU8 _ _ p _ => p
  | .applyLutRgba _ _ p _ => p
  | .histU8 _ _ p _ => p
  | .histRgba _ _ p _ => p
  | .cdf _ _ _ p _ => p
  | .histClear _ _ _ p _ => p
  | .sat _ _ _ p _ => p

/-- ACC of a command (R78). -/
def Instr.acc : Instr → Bool
  | .nop _ _ _ _ a => a
  | .lutIdent _ _ _ _ a => a
  | .lutLoad _ _ _ _ a => a
  | .applyLutU8 _ _ _ a => a
  | .applyLutRgba _ _ _ a => a
  | .histU8 _ _ _ a => a
  | .histRgba _ _ _ a => a
  | .cdf _ _ _ _ a => a
  | .histClear _ _ _ _ a => a
  | .sat _ _ _ _ a => a

/-- A one-bit field's value. -/
def bitOf (b : Bool) : Word := if b then 1#32 else 0#32

/-- The word of R72: `OPC | (FMT << 4) | (CHSEL << 6) | (LMASK << 8) | (PAR << 12) | (ACC << 13)`. -/
def assemble (opc : BitVec 4) (fmt : BitVec 2) (ch : Channel) (lmask : BitVec 4) (par acc : Bool) : Word :=
  opc.setWidth 32 ||| (fmt.setWidth 32 <<< 4) ||| (ch.code.setWidth 32 <<< 6) ||| (lmask.setWidth 32 <<< 8)
    ||| (bitOf par <<< 12) ||| (bitOf acc <<< 13)

/-- The word that spells a command (R86). -/
def encode (i : Instr) : Word := assemble i.opc i.fmt i.chsel i.lmask i.par i.acc

/-- The decoder on a table word: bit 0 of `w` is bit 0 of the command word; a command word has 32 bits, and a bit above it
spells nothing (R83). -/
def decodeTableWord (nbits w : Nat) : Option Instr :=
  if nbits ≤ 32 ∧ w < 2 ^ 32 then
    match decode (BitVec.ofNat 32 w) with
    | .ok i => some i
    | .error _ => none
  else none

/-- The mnemonic of a command (R73, R81). -/
def Instr.mnemonic : Instr → String
  | .nop _ _ _ _ _ => "NOP"
  | .lutIdent _ _ _ _ _ => "LUT_IDENT"
  | .lutLoad _ _ _ _ _ => "LUT_LOAD"
  | .applyLutU8 _ _ _ _ => "APPLY_LUT.U8"
  | .applyLutRgba _ _ _ _ => "APPLY_LUT.RGBA"
  | .histU8 _ _ _ _ => "HIST.U8"
  | .histRgba _ _ _ _ => "HIST.RGBA"
  | .cdf _ _ _ _ _ => "CDF"
  | .histClear _ _ _ _ _ => "HIST_CLEAR"
  | .sat _ _ _ _ _ => "SAT"

/-- The command a line `CMD <mnemonic> [ch=<c>] [mask=<m>] [par] [acc]` names (R84, R86): "CHSEL from `ch=`, else 0; LMASK from
`mask=`, else 0", PAR and ACC 1 where written; an unwritten field is passed as R, 0 or false. -/
def commandOf (mnemonic : String) (ch : Channel) (mask : BitVec 4) (par acc : Bool) : Option Instr :=
  if mnemonic = "NOP" then some (.nop 0#2 ch mask par acc)
  else if mnemonic = "LUT_IDENT" then some (.lutIdent 0#2 ch mask par acc)
  else if mnemonic = "LUT_LOAD" then some (.lutLoad 0#2 ch mask par acc)
  else if mnemonic = "APPLY_LUT.U8" then some (.applyLutU8 ch mask par acc)
  else if mnemonic = "APPLY_LUT.RGBA" then some (.applyLutRgba ch mask par acc)
  else if mnemonic = "HIST.U8" then some (.histU8 ch mask par acc)
  else if mnemonic = "HIST.RGBA" then some (.histRgba ch mask par acc)
  else if mnemonic = "CDF" then some (.cdf 0#2 ch mask par acc)
  else if mnemonic = "HIST_CLEAR" then some (.histClear 0#2 ch mask par acc)
  else if mnemonic = "SAT" then some (.sat 0#2 ch mask par acc)
  else none

/-- `ch=<c>` of R84. -/
def channelText : Channel → String
  | .r => " ch=R"
  | .g => " ch=G"
  | .b => " ch=B"
  | .a => " ch=A"

/-- `mask=<m>` of R84, a hex digit. -/
def maskText (m : BitVec 4) : String := " mask=" ++ String.singleton (Nat.digitChar m.toNat).toUpper

/-- A flag word of R84, omitted where its bit is 0 (R87). -/
def flagText (name : String) (b : Bool) : String := if b then " " ++ name else ""

/-- The canonical disassembly (R87): the mnemonic and only the fields R80 marks "read", `par` and `acc` omitted where zero.
The channel is printed by its letter (log 17). -/
def disassemble : Instr → String
  | .nop _ _ _ _ _ => "NOP"
  | .lutIdent _ _ m _ _ => "LUT_IDENT" ++ maskText m
  | .lutLoad _ _ m _ _ => "LUT_LOAD" ++ maskText m
  | .applyLutU8 c _ _ _ => "APPLY_LUT.U8" ++ channelText c
  | .applyLutRgba _ m p _ => "APPLY_LUT.RGBA" ++ maskText m ++ flagText "par" p
  | .histU8 _ _ _ a => "HIST.U8" ++ flagText "acc" a
  | .histRgba c _ _ a => "HIST.RGBA" ++ channelText c ++ flagText "acc" a
  | .cdf _ _ _ _ _ => "CDF"
  | .histClear _ _ _ _ _ => "HIST_CLEAR"
  | .sat _ _ _ _ _ => "SAT"

end Sys2Proof
end

