-- ==== Sys2Proof/Machine/Operands.lean ====
section
/-! DEFINITION. What a command takes from the registers and from CUR: its element count (R93), the sizes, bases, alignment
and regions of its accesses (R56, R57, R61), the three operand checks (R56, R62, R63), and the element the engine does next
(R65, R104). -/

namespace Sys2Proof

open Machine (Region)

/-- `N = WIDTH × HEIGHT`, computed exactly (R29). -/
def pixels (width height : BitVec 16) : Nat := width.toNat * height.toNat

/-- The commands whose count is N: APPLY_LUT, HIST and SAT (R92, R93). -/
def Instr.isImage : Instr → Bool
  | .nop _ _ _ _ _ => false
  | .lutIdent _ _ _ _ _ => false
  | .lutLoad _ _ _ _ _ => false
  | .applyLutU8 _ _ _ _ => true
  | .applyLutRgba _ _ _ _ => true
  | .histU8 _ _ _ _ => true
  | .histRgba _ _ _ _ => true
  | .cdf _ _ _ _ _ => false
  | .histClear _ _ _ _ _ => false
  | .sat _ _ _ _ _ => true

/-- `count(c)` (R93). -/
def Instr.count (i : Instr) (width height : BitVec 16) : Nat :=
  match i with
  | .nop _ _ _ _ _ => 0
  | .lutIdent _ _ _ _ _ => 256
  | .lutLoad _ _ _ _ _ => 256
  | .applyLutU8 _ _ _ _ => pixels width height
  | .applyLutRgba _ _ _ _ => pixels width height
  | .histU8 _ _ _ _ => pixels width height
  | .histRgba _ _ _ _ => pixels width height
  | .cdf _ _ _ _ _ => 256
  | .histClear _ _ _ _ _ => 256
  | .sat _ _ _ _ _ => pixels width height

/-- Bytes one element reads (R57); 0 where the command reads no memory. -/
def Instr.srcBytes : Instr → Nat
  | .nop _ _ _ _ _ => 0
  | .lutIdent _ _ _ _ _ => 0
  | .lutLoad _ _ _ _ _ => 4
  | .applyLutU8 _ _ _ _ => 1
  | .applyLutRgba _ _ _ _ => 4
  | .histU8 _ _ _ _ => 1
  | .histRgba _ _ _ _ => 4
  | .cdf _ _ _ _ _ => 0
  | .histClear _ _ _ _ _ => 0
  | .sat _ _ _ _ _ => 8

/-- Bytes one element writes (R57); 0 where the command writes no memory. -/
def Instr.dstBytes : Instr → Nat
  | .nop _ _ _ _ _ => 0
  | .lutIdent _ _ _ _ _ => 0
  | .lutLoad _ _ _ _ _ => 0
  | .applyLutU8 _ _ _ _ => 1
  | .applyLutRgba _ _ _ _ => 4
  | .histU8 _ _ _ _ => 0
  | .histRgba _ _ _ _ => 0
  | .cdf _ _ _ _ _ => 0
  | .histClear _ _ _ _ _ => 0
  | .sat _ _ _ _ _ => 1

/-- The base the command reads from: LUT_ADDR for LUT_LOAD, SRC_ADDR for the others (R61). -/
def Instr.readBase (i : Instr) (src lut : Word) : Word :=
  match i with
  | .nop _ _ _ _ _ => src
  | .lutIdent _ _ _ _ _ => src
  | .lutLoad _ _ _ _ _ => lut
  | .applyLutU8 _ _ _ _ => src
  | .applyLutRgba _ _ _ _ => src
  | .histU8 _ _ _ _ => src
  | .histRgba _ _ _ _ => src
  | .cdf _ _ _ _ _ => src
  | .histClear _ _ _ _ _ => src
  | .sat _ _ _ _ _ => src

/-- Required alignment of the base read from (R56); 1 where there is none. -/
def Instr.srcAlign : Instr → Nat
  | .nop _ _ _ _ _ => 1
  | .lutIdent _ _ _ _ _ => 1
  | .lutLoad _ _ _ _ _ => 4
  | .applyLutU8 _ _ _ _ => 1
  | .applyLutRgba _ _ _ _ => 4
  | .histU8 _ _ _ _ => 1
  | .histRgba _ _ _ _ => 4
  | .cdf _ _ _ _ _ => 1
  | .histClear _ _ _ _ _ => 1
  | .sat _ _ _ _ _ => 8

/-- Required alignment of the base written to (R56); 1 where there is none. -/
def Instr.dstAlign : Instr → Nat
  | .nop _ _ _ _ _ => 1
  | .lutIdent _ _ _ _ _ => 1
  | .lutLoad _ _ _ _ _ => 1
  | .applyLutU8 _ _ _ _ => 1
  | .applyLutRgba _ _ _ _ => 4
  | .histU8 _ _ _ _ => 1
  | .histRgba _ _ _ _ => 1
  | .cdf _ _ _ _ _ => 1
  | .histClear _ _ _ _ _ => 1
  | .sat _ _ _ _ _ => 1

/-- The region read, `[base, base + size)` with exact arithmetic (R61). -/
def Instr.srcRegion (i : Instr) (src lut : Word) (n : Nat) : Region :=
  { base := (i.readBase src lut).toNat, size := i.srcBytes * n }

/-- The region written (R61). -/
def Instr.dstRegion (i : Instr) (dst : Word) (n : Nat) : Region :=
  { base := dst.toNat, size := i.dstBytes * n }

/-- The in-place form is legal for APPLY_LUT only (R63). -/
def Instr.mayBeInPlace : Instr → Bool
  | .nop _ _ _ _ _ => false
  | .lutIdent _ _ _ _ _ => false
  | .lutLoad _ _ _ _ _ => false
  | .applyLutU8 _ _ _ _ => true
  | .applyLutRgba _ _ _ _ => true
  | .histU8 _ _ _ _ => false
  | .histRgba _ _ _ _ => false
  | .cdf _ _ _ _ _ => false
  | .histClear _ _ _ _ _ => false
  | .sat _ _ _ _ _ => false

end Sys2Proof

namespace Sys2Proof.Machine

/-- In range: `b + s ≤ 2^32`, asked of a region that is not empty (R62). -/
def Region.inRange (r : Region) : Bool := r.size == 0 || decide (r.base + r.size ≤ 2 ^ 32)

/-- Two regions intersect (R63): `b1 < b2 + s2` and `b2 < b1 + s1`; an empty region meets nothing (R63 speaks of the regions
of R61, which hold at least one byte when they are compared). -/
def Region.meets (p q : Region) : Bool :=
  p.size != 0 && q.size != 0 && decide (p.base < q.base + q.size) && decide (q.base < p.base + p.size)

/-- The address lies in the region. -/
def Region.holds (r : Region) (a : Nat) : Bool := decide (r.base ≤ a) && decide (a < r.base + r.size)

/-- Some base breaks its alignment (R56). -/
def misaligned (i : Instr) (src dst lut : Word) : Bool :=
  (i.readBase src lut).toNat % i.srcAlign != 0 || dst.toNat % i.dstAlign != 0

/-- Some region is not in range (R62). -/
def outOfRange (i : Instr) (src dst lut : Word) (n : Nat) : Bool :=
  !(i.srcRegion src lut n).inRange || !(i.dstRegion dst n).inRange

/-- The regions intersect as R63 forbids. -/
def badOverlap (i : Instr) (src dst lut : Word) (n : Nat) : Bool :=
  (i.srcRegion src lut n).meets (i.dstRegion dst n) && !(i.mayBeInPlace && src == dst)

/-- The operand checks of R92 after decoding, in its order: an empty image has none (R109); else ALIGN, RANGE, OVERLAP. -/
def operandError (i : Instr) (src dst lut : Word) (n : Nat) : Option ErrCode :=
  if i.isImage && n == 0 then none
  else if misaligned i src dst lut then some .align
  else if outOfRange i src dst lut n then some .range
  else if badOverlap i src dst lut n then some .overlap
  else none

/-- The operand checks on the live registers (R92). -/
def State.issueError (i : Instr) (s : State) : Option ErrCode :=
  operandError i s.srcAddr s.dstAddr s.lutAddr (i.count s.width s.height)

/-- The region the running command reads (R61 on the copies of R43). -/
def Cur.srcRegion (c : Cur) : Region := c.cmd.srcRegion c.src c.lut c.n

/-- The region the running command writes. -/
def Cur.dstRegion (c : Cur) : Region := c.cmd.dstRegion c.dst c.n

/-- Address of element `k` in the region read: `base + k·size` (R52, R57). -/
def Cur.readAddr (c : Cur) (k : Nat) : Nat := (c.cmd.readBase c.src c.lut).toNat + c.cmd.srcBytes * k

/-- Address of element `k` in the region written. -/
def Cur.writeAddr (c : Cur) (k : Nat) : Nat := c.dst.toNat + c.cmd.dstBytes * k

/-- The bytes of element `k`'s access in one direction (R57); none where the command makes no such access. -/
def Cur.access (c : Cur) (dir : Dir) (k : Nat) : Region :=
  match dir with
  | .read => { base := c.readAddr k, size := c.cmd.srcBytes }
  | .write => { base := c.writeAddr k, size := c.cmd.dstBytes }

/-- The index at place `p` of the ascending indices that are not in the strictly rising list `done`. -/
def nthLeft : List Nat → Nat → Nat
  | [], p => p
  | d :: ds, p => if d ≤ p then nthLeft ds (p + 1) else p

/-- A choice among `left` elements, made by the number `p`; one element leaves no choice. -/
def choiceOf (p left : Nat) : Nat := if left ≤ 1 then 0 else p % left

/-- The element that choice number `p` picks: any member of `[0, CUR.n) \ CUR.done` (R104). -/
def Cur.choose (c : Cur) (p : Nat) : Nat := nthLeft c.done (choiceOf p (c.n - c.done.length))

/-- The next choice number: the schedule's, or a free value where the schedule gives none (R65, log 5). -/
def State.nextPick (s : State) : Nat :=
  match s.picks with
  | [] => Config.freePick s.draws
  | p :: _ => p

/-- The element the next engine step does. -/
def State.element (s : State) : Nat := s.cur.choose s.nextPick

/-- Using up a choice number. -/
def State.dropPick (s : State) : State :=
  match s.picks with
  | [] => { s with draws := s.draws + 1 }
  | _ :: ps => { s with picks := ps }

/-- Adding an index to the finished set, in rising order; a member stays once. -/
def insertDone (k : Nat) : List Nat → List Nat
  | [] => [k]
  | d :: ds => if k < d then k :: d :: ds else if k = d then d :: ds else d :: insertDone k ds

end Sys2Proof.Machine
end

