-- ==== Sys2Proof/Machine/Tables.lean ====
section
/-! DEFINITION. The operations of the 256-cell arrays (R40 to R42): reading and writing a cell, filling an array from a
function of the index, and the lanes of a LUT entry (R38). -/

namespace Sys2Proof.Machine

/-- Cell `i` of an array; every 8-bit index is legal (R123). -/
def Table.get {α : Type} (t : Table α) (i : Byte) : α := t[i.toNat]'i.isLt

/-- The array with cell `i` set. -/
def Table.set {α : Type} (t : Table α) (i : Byte) (v : α) : Table α := Vector.set t i.toNat v i.isLt

/-- The values of `f` from index `i` on, `n` of them. -/
def valuesFrom {α : Type} (f : Nat → α) : Nat → Nat → List α
  | 0, _ => []
  | n + 1, i => f i :: valuesFrom f n (i + 1)

theorem valuesFrom_length {α : Type} (f : Nat → α) (n i : Nat) : (valuesFrom f n i).length = n := by
  induction n generalizing i with
  | zero => rfl
  | succ n ih => simp [valuesFrom, ih]

/-- The array whose cell `i` is `f i`, for every 8-bit `i`. -/
def Table.fill {α : Type} (f : Byte → α) : Table α :=
  ⟨⟨valuesFrom (fun i => f (BitVec.ofNat 8 i)) 256 0⟩, valuesFrom_length _ 256 0⟩

/-- Lane `c` of an entry (R11). -/
def LutEntry.lane (e : LutEntry) : Channel → ArrayCell Byte
  | .r => e.r
  | .g => e.g
  | .b => e.b
  | .a => e.a

/-- Bits `[8c+7 : 8c]` of a word: the byte of channel `c` in a pixel (R53) or a window word (R38). -/
def chanByte (w : Word) (c : Channel) : Byte := w.extractLsb' (8 * c.lane) 8

/-- The word whose channel bytes are given: `(a, b, g, r)` concatenated, `a` most significant (R53). -/
def packLanes (r g b a : Byte) : Word := a ++ b ++ g ++ r

/-- The entry a 32-bit word writes, all four lanes (R38, R127). -/
def LutEntry.ofWord (w : Word) : LutEntry :=
  { r := .val (chanByte w .r), g := .val (chanByte w .g), b := .val (chanByte w .b), a := .val (chanByte w .a) }

/-- The entry packed as a window word (R126), or none where a lane is UNSPEC. -/
def LutEntry.toWord? (e : LutEntry) : Option Word :=
  match e.r, e.g, e.b, e.a with
  | .val r, .val g, .val b, .val a => some (packLanes r g b a)
  | _, _, _, _ => none

/-- Bit `c` of LMASK (R76). -/
def laneOn (lmask : BitVec 4) (c : Channel) : Bool := lmask.getLsbD c.lane

/-- The entry with the lanes selected by LMASK taken from `new`, the others kept (R121, R122). -/
def LutEntry.merge (lmask : BitVec 4) (old new : LutEntry) : LutEntry :=
  { r := if laneOn lmask .r then new.r else old.r
    g := if laneOn lmask .g then new.g else old.g
    b := if laneOn lmask .b then new.b else old.b
    a := if laneOn lmask .a then new.a else old.a }

/-- The entry with the same byte in all four lanes (R121 "`RGBA = u8 v` sets all four fields to v"). -/
def LutEntry.splat (v : Byte) : LutEntry := { r := .val v, g := .val v, b := .val v, a := .val v }

end Sys2Proof.Machine
end

