-- ==== Sys2Proof/Machine/Ops.lean ====
section
/-! DEFINITION. The named operations over memory, the memory port (R12), the error mechanism (R181 to R183: what a processor
does by taking an exception, this block does by recording an error) with its return (R185), issue and acceptance (R92, R94),
and the shared forms of an engine step (R104 to R106). -/

namespace Sys2Proof.Machine

/-! ## Memory (R50) -/

/-- The canonical form: addresses strictly rise, and each lies in the 2^32-byte space. (An unlisted address reads as no
fixed value, so no entry can equal it.) -/
abbrev Memory.wf (m : Memory) : Prop :=
  m.Pairwise (fun p q => p.1 < q.1) ∧ ∀ p ∈ m, p.1 < 2 ^ 32

/-- The byte at an address, where memory holds a known value; none: any value (log 4). -/
def Memory.byte : Memory → Nat → Option Byte
  | [], _ => none
  | (a, b) :: m, x => if x = a then some b else Memory.byte m x

/-- Storing one byte. -/
def Memory.put : Memory → Nat → Byte → Memory
  | [], x, v => [(x, v)]
  | (a, b) :: m, x, v =>
    if x < a then (x, v) :: (a, b) :: m
    else if x = a then (x, v) :: m
    else (a, b) :: Memory.put m x v

/-- Forgetting one byte: it holds any value from now on (R58). -/
def Memory.forget (m : Memory) (x : Nat) : Memory := m.filter (fun p => p.1 != x)

/-- Forgetting every byte at one of the addresses. -/
def Memory.forgetAll (m : Memory) (xs : List Nat) : Memory := m.filter (fun p => !xs.contains p.1)

/-- Storing bytes, the first at `x`. -/
def Memory.putBytes (m : Memory) (x : Nat) : List Byte → Memory
  | [] => m
  | b :: bs => Memory.putBytes (m.put x b) (x + 1) bs

/-- Forgetting `len` bytes from `x`. -/
def Memory.forgetBytes (m : Memory) (x : Nat) : Nat → Memory
  | 0 => m
  | len + 1 => Memory.forgetBytes (m.forget x) (x + 1) len

/-- The `len` bytes from `x` as a load sees them; a byte with no known value is drawn, draw number `d` for the first. -/
def Memory.load (m : Memory) (d x : Nat) : Nat → List Byte
  | 0 => []
  | len + 1 => (m.byte x).getD (Config.freeByte d) :: Memory.load m (d + 1) (x + 1) len

/-- Little-endian composition: the byte at the lowest address is the least significant (R12, R54). -/
def leNat : List Byte → Nat
  | [] => 0
  | b :: bs => b.toNat + 256 * leNat bs

/-- The `len` bytes of a value, least significant first (R12, R54). -/
def leBytes : Nat → Nat → List Byte
  | 0, _ => []
  | len + 1, v => BitVec.ofNat 8 v :: leBytes len (v / 256)

/-- The addresses `a .. a + len - 1`. -/
def span (a len : Nat) : List Nat := valuesFrom id len a

/-! ## The memory port (R12) -/

/-- `MemOK(addr, n, dir)`: the access completes (R7, R12). -/
def State.memOk (s : State) (addr len : Nat) (dir : Dir) : Bool :=
  !s.platform.memErr.contains { addr := addr, bytes := len, dir := dir }

/-- Remembering addresses the block stored to, where the host needs maintenance to see them (R67, log 10). -/
def State.markPort (a len : Nat) (s : State) : State :=
  if s.platform.coherent then s else { s with portDirty := s.portDirty ++ span a len }

/-- Remembering addresses another agent stored to, where the block needs maintenance to see them (R67, log 10). -/
def State.markHost (a len : Nat) (s : State) : State :=
  if s.platform.coherent then s else { s with hostDirty := s.hostDirty ++ span a len }

/-- `MemRead(addr, n)`: the value and the state after the draws; none is BusError (R12). -/
def State.portRead (addr len : Nat) (s : State) : Option (Nat × State) :=
  if s.memOk addr len .read then some (leNat (s.mem.load s.draws addr len), { s with draws := s.draws + len })
  else none

/-- `MemWrite(addr, n, v)`: on BusError the bytes addressed hold any value (R58). -/
def State.portWrite (addr len v : Nat) (s : State) : Elem :=
  if s.memOk addr len .write then
    .ok (State.markPort addr len { s with mem := s.mem.putBytes addr (leBytes len v) })
  else .busError (State.markPort addr len { s with mem := s.mem.forgetBytes addr len })

/-! ## Errors: the block's exceptions, and their return -/

/-- Recording an error (R181): the one shared operation behind rejection, abort and a dropped write. -/
def State.recordError (e : ErrCode) (s : State) : State := { s with status := s.status.withError e }

/-- `raise Reject(e)`: records `e` and changes nothing else (R182). -/
def State.reject (e : ErrCode) (s : State) : State := s.recordError e

/-- `raise Abort(BUS)` (R107, R183). -/
def State.abort (s : State) : State := { s with status := s.status.aborted }

/-- The block's counterpart of a return from trap: the host's write-1-to-clear of STATUS (R185, R23). -/
def State.clearStatus (v : Word) (s : State) : State := { s with status := s.status.cleared v }

/-- `complete` (R106). -/
def State.complete (s : State) : State := { s with status := s.status.completed }

/-! ## Issue and acceptance (R92, R94) -/

/-- ACC = 0 clears the counters at acceptance: for a HIST command only (R78, R94). -/
def clearsHist : Instr → Bool
  | .nop _ _ _ _ _ => false
  | .lutIdent _ _ _ _ _ => false
  | .lutLoad _ _ _ _ _ => false
  | .applyLutU8 _ _ _ _ => false
  | .applyLutRgba _ _ _ _ => false
  | .histU8 _ _ _ acc => !acc
  | .histRgba _ _ _ acc => !acc
  | .cdf _ _ _ _ _ => false
  | .histClear _ _ _ _ _ => false
  | .sat _ _ _ _ _ => false

/-- Every counter 0 (R94, R141). -/
def zeroHist : Table (ArrayCell Word) := Vector.replicate 256 (.val 0#32)

/-- `accept(w, c, n)` (R94), with `w = encode i`: every field of the word stands in `i`. On a non-coherent platform the model
also keeps what the host can see of memory, for its reads while the command runs (R218, log 10). -/
def State.accept (i : Instr) (s : State) : State :=
  { s with
    lastCmd := encode i
    cur := { cmd := i, src := s.srcAddr, dst := s.dstAddr, lut := s.lutAddr, n := i.count s.width s.height, done := [] }
    progress := 0#32
    status := s.status.accepted
    hist := if clearsHist i then zeroHist else s.hist
    hostView := if s.platform.coherent then s.hostView else s.mem.forgetAll s.portDirty }

/-- The locations no region may name (R221): the devices and the block's own register window. -/
def Platform.forbidden (p : Platform) : List Region := { base := p.regBase, size := 4096 } :: p.devices

/-- The command's regions meet a forbidden location: the host duty of R221 is broken (log 9). -/
def State.dutyBroken (i : Instr) (s : State) : Bool :=
  let n := i.count s.width s.height
  s.platform.forbidden.any fun d =>
    (i.srcRegion s.srcAddr s.lutAddr n).meets d || (i.dstRegion s.dstAddr n).meets d

/-- On a non-coherent platform, bytes of the command's regions stand stored by the host without maintenance (R67, log 10). -/
def State.needsMaintenance (i : Instr) (s : State) : Bool :=
  let n := i.count s.width s.height
  !s.platform.coherent && s.hostDirty.any fun a =>
    (i.srcRegion s.srcAddr s.lutAddr n).holds a || (i.dstRegion s.dstAddr n).holds a

/-- Issuing a decoded command while BUSY = 0 (R92): rejected with the first operand error, or accepted. A command that would
be accepted and breaks the host's duties ends the run (R199, R67). -/
def issue (i : Instr) (s : State) : Host.Outcome State Fault Refusal :=
  match s.issueError i with
  | some e => .next (s.reject e)
  | none =>
    if s.dutyBroken i then .fault .hostDutyBroken
    else if s.needsMaintenance i then .refused .maintenanceOmitted
    else .next (s.accept i)

/-! ## Engine steps (R103 to R106) -/

/-- Counting element `k` as finished: `CUR.done <- CUR.done ∪ {k}`, `PROGRESS <- PROGRESS + 1` (R104). -/
def State.finish (k : Nat) (s : State) : State :=
  { s with cur := { s.cur with done := insertDone k s.cur.done }, progress := s.progress + 1#32 }

/-- After an element: complete in the same step if it was the last (R104). -/
def State.settle (s : State) : State := if s.cur.done.length = s.cur.n then s.complete else s

/-- The element step (R104): choose an element, do it, then finish it, abort or stop. With nothing left (an empty image) the
engine's single step is `complete`. -/
def elementStep (elem : Nat → State → Elem) (s : State) : Host.Outcome State Fault Refusal :=
  if s.cur.done.length < s.cur.n then
    match elem s.element s.dropPick with
    | .ok t => .next (t.finish s.element).settle
    | .busError t => .next t.abort
    | .stop f => .fault f
  else .next s.complete

/-- The end of a command that does all 256 entries in one step (R105): `CUR.done <- [0, 256)`, `PROGRESS <- 256`, complete. -/
def State.wholeDone (s : State) : State :=
  State.complete { s with cur := { s.cur with done := span 0 256 }, progress := 256#32 }

/-- A command's two kinds of step: while BUSY = 0 it is issued (R90, R92); while BUSY = 1 the engine takes a step of it
(R103). The host's CMD write while BUSY = 1 never comes here: it is rejected before decoding (R81, R92). Log 15. -/
def command (i : Instr) (engine : State → Host.Outcome State Fault Refusal) (s : State) :
    Host.Outcome State Fault Refusal :=
  if s.status.busy then engine s else issue i s

end Sys2Proof.Machine
end

