-- ==== Sys2Proof/Machine/Control.lean ====
section
/-! DEFINITION. The command that does nothing: NOP (R108). -/

namespace Sys2Proof.Machine

/-- NOP (R108): accepted with count 0; "the engine's single step completes it". -/
def execNop (fmt : BitVec 2) (chsel : Channel) (lmask : BitVec 4) (par acc : Bool) (s : State) :
    Host.Outcome State Fault Refusal :=
  command (.nop fmt chsel lmask par acc) (fun t => .next t.complete) s

end Sys2Proof.Machine
end

