-- ==== Sys2Proof/Machine/Histogram.lean ====
section
/-! DEFINITION. The histogram commands: HIST_CLEAR (R141), HIST.U8 (R142), HIST.RGBA (R143), the counter increment (R144), and
CDF (R145). -/

namespace Sys2Proof.Machine

/-- HIST_CLEAR (R141, R105). -/
def execHistClear (fmt : BitVec 2) (chsel : Channel) (lmask : BitVec 4) (par acc : Bool) (s : State) :
    Host.Outcome State Fault Refusal :=
  command (.histClear fmt chsel lmask par acc) (fun t => .next (State.wholeDone { t with hist := zeroHist })) s

/-- `count(v)` (R144): the counter steps modulo 2^32, and passing 2^32 - 1 sets HOVF. -/
def countByte (v : Byte) (s : State) : Elem :=
  match s.hist.get v with
  | .unspec => .stop .unwrittenRead
  | .val c =>
    let sum := c.toNat + 1
    .ok { s with
      hist := s.hist.set v (.val (BitVec.ofNat 32 sum))
      status := s.status.overflow (decide (2 ^ 32 ≤ sum)) }

/-- Element `k` of HIST.U8 (R142). -/
def histU8Elem (k : Nat) (s : State) : Elem :=
  match s.portRead (s.cur.src.toNat + k) 1 with
  | none => .busError s
  | some (r, t) => countByte (BitVec.ofNat 8 r) t

/-- HIST.U8 (R142). -/
def execHistU8 (chsel : Channel) (lmask : BitVec 4) (par acc : Bool) (s : State) :
    Host.Outcome State Fault Refusal :=
  command (.histU8 chsel lmask par acc) (elementStep histU8Elem) s

/-- Element `k` of HIST.RGBA (R143): channel CHSEL of the pixel is counted. -/
def histRgbaElem (ch : Channel) (k : Nat) (s : State) : Elem :=
  match s.portRead (s.cur.src.toNat + 4 * k) 4 with
  | none => .busError s
  | some (r, t) => countByte (chanByte (BitVec.ofNat 32 r) ch) t

/-- HIST.RGBA (R143). -/
def execHistRgba (chsel : Channel) (lmask : BitVec 4) (par acc : Bool) (s : State) :
    Host.Outcome State Fault Refusal :=
  command (.histRgba chsel lmask par acc) (elementStep (histRgbaElem chsel)) s

/-- The counters' values in order, or none where one is UNSPEC. -/
def counters : List (ArrayCell Word) → Option (List Nat)
  | [] => some []
  | .unspec :: _ => none
  | .val v :: cs =>
    match counters cs with
    | none => none
    | some vs => some (v.toNat :: vs)

/-- The running sums of a list, from the sum so far (R145, exact). -/
def runningSums : Nat → List Nat → List Nat
  | _, [] => []
  | sum, v :: vs => (sum + v) :: runningSums (sum + v) vs

/-- The CDF array of the counters' values: prefix sums modulo 2^32 (R145). -/
def cdfTable (vs : List Nat) : Table (ArrayCell Word) :=
  let sums := runningSums 0 vs
  Table.fill fun i => .val (BitVec.ofNat 32 (sums.getD i.toNat 0))

/-- The one engine step of CDF (R145, R105). -/
def cdfStep (s : State) : Host.Outcome State Fault Refusal :=
  match counters s.hist.toList with
  | none => .fault .unwrittenRead
  | some vs =>
    .next (State.wholeDone { s with
      cdf := cdfTable vs
      status := s.status.overflow (decide (2 ^ 32 ≤ vs.sum)) })

/-- CDF (R145). -/
def execCdf (fmt : BitVec 2) (chsel : Channel) (lmask : BitVec 4) (par acc : Bool) (s : State) :
    Host.Outcome State Fault Refusal :=
  command (.cdf fmt chsel lmask par acc) cdfStep s

end Sys2Proof.Machine
end

