-- ==== Sys2Proof/Machine/Lut.lean ====
section
/-! DEFINITION. The LUT commands: LUT_IDENT (R121), LUT_LOAD (R122), APPLY_LUT.U8 (R123), APPLY_LUT.RGBA (R124, R125). -/

namespace Sys2Proof.Machine

/-- The table of LUT_IDENT: lane `c` of entry `i` is `i` where LMASK bit `c` is 1, and is kept otherwise (R121). -/
def identTable (lmask : BitVec 4) (t : Table LutEntry) : Table LutEntry :=
  Table.fill fun i => (t.get i).merge lmask (LutEntry.splat i)

/-- LUT_IDENT (R121, R105). -/
def execLutIdent (fmt : BitVec 2) (chsel : Channel) (lmask : BitVec 4) (par acc : Bool) (s : State) :
    Host.Outcome State Fault Refusal :=
  command (.lutIdent fmt chsel lmask par acc) (fun t => .next (State.wholeDone { t with lut := identTable lmask t.lut })) s

/-- Element `k` of LUT_LOAD (R122). -/
def lutLoadElem (lmask : BitVec 4) (k : Nat) (s : State) : Elem :=
  match s.portRead (s.cur.lut.toNat + 4 * k) 4 with
  | none => .busError s
  | some (r, t) =>
    let i := BitVec.ofNat 8 k
    .ok { t with lut := t.lut.set i ((t.lut.get i).merge lmask (LutEntry.ofWord (BitVec.ofNat 32 r))) }

/-- LUT_LOAD (R122). -/
def execLutLoad (fmt : BitVec 2) (chsel : Channel) (lmask : BitVec 4) (par acc : Bool) (s : State) :
    Host.Outcome State Fault Refusal :=
  command (.lutLoad fmt chsel lmask par acc) (elementStep (lutLoadElem lmask)) s

/-- Element `k` of APPLY_LUT.U8 (R123): only lane CHSEL is read. -/
def applyU8Elem (ch : Channel) (k : Nat) (s : State) : Elem :=
  match s.portRead (s.cur.src.toNat + k) 1 with
  | none => .busError s
  | some (r, t) =>
    match (t.lut.get (BitVec.ofNat 8 r)).lane ch with
    | .unspec => .stop .unwrittenRead
    | .val o => t.portWrite (t.cur.dst.toNat + k) 1 o.toNat

/-- APPLY_LUT.U8 (R123). -/
def execApplyLutU8 (chsel : Channel) (lmask : BitVec 4) (par acc : Bool) (s : State) :
    Host.Outcome State Fault Refusal :=
  command (.applyLutU8 chsel lmask par acc) (elementStep (applyU8Elem chsel)) s

/-- Output byte of channel `c` (R124): looked up with the channel's own value where LMASK bit `c` is 1, else copied. -/
def applyChannel (lut : Table LutEntry) (lmask : BitVec 4) (pixel : Word) (c : Channel) : ArrayCell Byte :=
  if laneOn lmask c then (lut.get (chanByte pixel c)).lane c else .val (chanByte pixel c)

/-- The output pixel (R124), or none where a selected lane is UNSPEC. The four lookups read one constant table with the
pixel's unmodified values, so one lookup after another gives the same (R120, R125). -/
def applyPixel (lut : Table LutEntry) (lmask : BitVec 4) (pixel : Word) : Option Word :=
  match applyChannel lut lmask pixel .r, applyChannel lut lmask pixel .g, applyChannel lut lmask pixel .b,
    applyChannel lut lmask pixel .a with
  | .val r, .val g, .val b, .val a => some (packLanes r g b a)
  | _, _, _, _ => none

/-- Element `k` of APPLY_LUT.RGBA (R124). -/
def applyRgbaElem (lmask : BitVec 4) (k : Nat) (s : State) : Elem :=
  match s.portRead (s.cur.src.toNat + 4 * k) 4 with
  | none => .busError s
  | some (r, t) =>
    match applyPixel t.lut lmask (BitVec.ofNat 32 r) with
    | none => .stop .unwrittenRead
    | some o => t.portWrite (t.cur.dst.toNat + 4 * k) 4 o.toNat

/-- APPLY_LUT.RGBA (R124); PAR changes timing only, and the spec fixes no timing (R77, R125). -/
def execApplyLutRgba (chsel : Channel) (lmask : BitVec 4) (par acc : Bool) (s : State) :
    Host.Outcome State Fault Refusal :=
  command (.applyLutRgba chsel lmask par acc) (elementStep (applyRgbaElem lmask)) s

end Sys2Proof.Machine
end

