-- ==== Sys2Proof/Machine/Saturate.lean ====
section
/-! DEFINITION. The saturating cast: binary64 patterns (R161), the function `sat` in exact arithmetic (R160), the register
path's output (R163), and the SAT command (R164). -/

namespace Sys2Proof.Machine

/-- What a 64-bit pattern denotes (R161): NaN, an infinity, or exactly `(-1)^neg × mant × 2^exp`. -/
inductive Real64 where
  | nan
  | inf (neg : Bool)
  | finite (neg : Bool) (mant : Nat) (exp : Int)
deriving DecidableEq, Repr

/-- `f64(b)` (R161): sign bit 63, exponent [62:52], fraction [51:0] (binary64: PRESUMED, the spec's own mark; log 14). -/
def f64 (b : BitVec 64) : Real64 :=
  let neg := b.getLsbD 63
  let e := (b.extractLsb' 52 11).toNat
  let f := (b.extractLsb' 0 52).toNat
  if e = 0x7FF then (if f = 0 then .inf neg else .nan)
  else if e = 0 then .finite neg f (-1074)
  else .finite neg (2 ^ 52 + f) (Int.ofNat e - 1075)

/-- `floor(m × 2^exp + 1/2)`, exactly (R160). -/
def roundHalfUp (m : Nat) (exp : Int) : Nat :=
  match exp with
  | .ofNat k => m * 2 ^ k
  | .negSucc k => (m + 2 ^ k) / 2 ^ (k + 1)

/-- `sat(x)` (R160): round half away from zero, then clamp to [0, 255]; NaN gives 0. -/
def sat : Real64 → Byte
  | .nan => 0#8
  | .inf neg => if neg then 0#8 else 255#8
  | .finite neg m exp =>
    let r : Int := if neg then -(Int.ofNat (roundHalfUp m exp)) else Int.ofNat (roundHalfUp m exp)
    if r < 0 then 0#8 else if r > 255 then 255#8 else BitVec.ofNat 8 r.toNat

/-- SAT_OUT (R34, R163): a function of the two input registers at every moment. -/
def State.satOut (s : State) : Word := (sat (f64 (s.satInHi ++ s.satInLo))).setWidth 32

/-- Element `k` of SAT (R164). -/
def satElem (k : Nat) (s : State) : Elem :=
  match s.portRead (s.cur.src.toNat + 8 * k) 8 with
  | none => .busError s
  | some (r, t) => t.portWrite (t.cur.dst.toNat + k) 1 (sat (f64 (BitVec.ofNat 64 r))).toNat

/-- SAT (R164). -/
def execSat (fmt : BitVec 2) (chsel : Channel) (lmask : BitVec 4) (par acc : Bool) (s : State) :
    Host.Outcome State Fault Refusal :=
  command (.sat fmt chsel lmask par acc) (elementStep satElem) s

end Sys2Proof.Machine
end

