-- ==== Sys2Proof/Machine/Dispatch.lean ====
section
/-! DEFINITION. exec: one arm per command, each one call of its meaning. -/

namespace Sys2Proof.Machine

def exec (i : Instr) (s : State) : Host.Outcome State Fault Refusal :=
  match i with
  | .nop fmt chsel lmask par acc => Sys2Proof.Machine.execNop fmt chsel lmask par acc s
  | .lutIdent fmt chsel lmask par acc => Sys2Proof.Machine.execLutIdent fmt chsel lmask par acc s
  | .lutLoad fmt chsel lmask par acc => Sys2Proof.Machine.execLutLoad fmt chsel lmask par acc s
  | .applyLutU8 chsel lmask par acc => Sys2Proof.Machine.execApplyLutU8 chsel lmask par acc s
  | .applyLutRgba chsel lmask par acc => Sys2Proof.Machine.execApplyLutRgba chsel lmask par acc s
  | .histU8 chsel lmask par acc => Sys2Proof.Machine.execHistU8 chsel lmask par acc s
  | .histRgba chsel lmask par acc => Sys2Proof.Machine.execHistRgba chsel lmask par acc s
  | .cdf fmt chsel lmask par acc => Sys2Proof.Machine.execCdf fmt chsel lmask par acc s
  | .histClear fmt chsel lmask par acc => Sys2Proof.Machine.execHistClear fmt chsel lmask par acc s
  | .sat fmt chsel lmask par acc => Sys2Proof.Machine.execSat fmt chsel lmask par acc s

end Sys2Proof.Machine
end

