-- ==== Sys2Proof/Machine/Registers.lean ====
section
/-! DEFINITION. The register window (10_state.md §2): which location an offset names, what a host read of it returns (R95,
R100), and what a host write of it does (R96 to R99); a write to CMD is in Machine/Agents.lean. -/

namespace Sys2Proof.Machine

/-- The locations of the window (10_state.md §2). -/
inductive Location where
  | id | status | irqEn | cmd | srcAddr | dstAddr | width | height | lutAddr | progress | satInLo | satInHi | satOut
  | reserved
  | hist (i : Byte)
  | cdf (i : Byte)
  | lut (i : Byte)
deriving DecidableEq, Repr

/-- The control registers by word index, offset / 4 (R22 to R35). -/
def controlAt (word : Nat) : Location :=
  match word with
  | 0 => .id
  | 1 => .status
  | 2 => .irqEn
  | 3 => .cmd
  | 4 => .srcAddr
  | 5 => .dstAddr
  | 6 => .width
  | 7 => .height
  | 8 => .lutAddr
  | 9 => .progress
  | 10 => .satInLo
  | 11 => .satInHi
  | 12 => .satOut
  | _ => .reserved

/-- The location at a 4-aligned offset: 0x400, 0x800 and 0xC00 begin the HIST, CDF and LUT windows (R36 to R38). -/
def locate (off : BitVec 12) : Location :=
  let i : Byte := off.extractLsb' 2 8
  match (off.extractLsb' 10 2).toNat with
  | 0 => controlAt i.toNat
  | 1 => .hist i
  | 2 => .cdf i
  | _ => .lut i

/-- Where the host sees an offset of the window: `REG_BASE + off` (R70). -/
def State.hostAddress (off : BitVec 12) (s : State) : Nat := s.platform.regBase + off.toNat

/-- The constant of ID (R22). -/
def idValue : Word := 0x4C555401#32

/-- Reading a 32-bit cell: an UNSPEC cell ends the run (R214). -/
def readCell (c : ArrayCell Word) : Except Fault Word :=
  match c with
  | .unspec => .error .unwrittenRead
  | .val v => .ok v

/-- What a host read of a location returns (R95, R100); the state does not change. -/
def State.readAt (l : Location) (s : State) : Except Fault Word :=
  match l with
  | .id => .ok idValue
  | .status => .ok s.status.word
  | .irqEn => .ok s.irqEn.word
  | .cmd => .ok s.lastCmd
  | .srcAddr => .ok s.srcAddr
  | .dstAddr => .ok s.dstAddr
  | .width => .ok (s.width.setWidth 32)
  | .height => .ok (s.height.setWidth 32)
  | .lutAddr => .ok s.lutAddr
  | .progress => .ok s.progress
  | .satInLo => .ok s.satInLo
  | .satInHi => .ok s.satInHi
  | .satOut => .ok s.satOut
  | .reserved => .ok 0#32
  | .hist i => readCell (s.hist.get i)
  | .cdf i => readCell (s.cdf.get i)
  | .lut i =>
    match (s.lut.get i).toWord? with
    | none => .error .unwrittenRead
    | some w => .ok w

/-- An RWI write (R97): `idle` while BUSY = 0; else dropped, recording error BUSY. -/
def State.rwi (s idle : State) : State := if s.status.busy then s.recordError .busy else idle

/-- What a host write of `v` does at a location other than CMD (R96 to R99). A CMD write is an issue (R90), so it does
nothing here. -/
def State.writeAt (l : Location) (v : Word) (s : State) : State :=
  match l with
  | .id => s
  | .status => s.clearStatus v
  | .irqEn => { s with irqEn := IrqEn.ofWord v }
  | .cmd => s
  | .srcAddr => s.rwi { s with srcAddr := v }
  | .dstAddr => s.rwi { s with dstAddr := v }
  | .width => s.rwi { s with width := v.setWidth 16 }
  | .height => s.rwi { s with height := v.setWidth 16 }
  | .lutAddr => s.rwi { s with lutAddr := v }
  | .progress => s
  | .satInLo => { s with satInLo := v }
  | .satInHi => { s with satInHi := v }
  | .satOut => s
  | .reserved => s
  | .hist i => s.rwi { s with hist := s.hist.set i (.val v) }
  | .cdf _ => s
  | .lut i => s.rwi { s with lut := s.lut.set i (LutEntry.ofWord v) }

end Sys2Proof.Machine
end

