-- ==== Sys2Proof/Machine/Agents.lean ====
section
/-! DEFINITION. The agents' steps (R8): the engine's turn (R103), the host's register transactions (R71, R90, R95, R96), loads
and stores of memory by the host or another agent (R218), maintenance (R67), reset (R210 to R212), and the pseudo-instructions
of R85 as event lists. -/

namespace Sys2Proof.Machine

/-- Recording an answer to the host. -/
def State.answer (r : Reply) (s : State) : State := { s with replies := r :: s.replies }

/-- The engine's turn: a step of the running command while BUSY = 1; idle, it takes none (R103, R198). -/
def engineTurn (s : State) : Host.Outcome State Fault Refusal :=
  if s.status.busy then exec s.cur.cmd s else .next s

/-- A host write of `w` to CMD (R90, R92): rejected with BUSY while a command runs (R111), rejected as decoding says (R81),
else issued. -/
def writeCmd (w : Word) (s : State) : Host.Outcome State Fault Refusal :=
  if s.status.busy then .next (s.reject .busy)
  else
    match decode w with
    | .error e => .next (s.reject e)
    | .ok i => exec i s

/-- A well-formed host read (R95). -/
def hostRead (off : BitVec 12) (s : State) : Host.Outcome State Fault Refusal :=
  match s.readAt (locate off) with
  | .error f => .fault f
  | .ok v => .next (s.answer (.data v))

/-- A well-formed host write (R96). -/
def hostWrite (off : BitVec 12) (v : Word) (s : State) : Host.Outcome State Fault Refusal :=
  match locate off with
  | .cmd => writeCmd v (s.answer .ack)
  | l => .next (State.writeAt l v (s.answer .ack))

/-- A register transaction; an ill-formed one is answered with a bus error and changes nothing in the block (R71). -/
def transact (t : Transaction) (s : State) : Host.Outcome State Fault Refusal :=
  if t.wf then
    match t.dir with
    | .read => hostRead t.off s
    | .write => hostWrite t.off t.data s
  else .next (s.answer .busError)

/-- Some of the `len` bytes from `addr` lie in a region of the running command (R218). -/
def State.ownedByEngine (addr len : Nat) (s : State) : Bool :=
  let r : Region := { base := addr, size := len }
  s.status.busy && (s.cur.srcRegion.meets r || s.cur.dstRegion.meets r)

/-- A store by the host or another agent: the host duty of R218 is asked while BUSY = 1. -/
def memStore (addr : Word) (bytes : List Byte) (s : State) : Host.Outcome State Fault Refusal :=
  if !spanExists addr bytes.length then .fault .noSuchAddress
  else if s.ownedByEngine addr.toNat bytes.length then .fault .hostDutyBroken
  else .next (State.markHost addr.toNat bytes.length { s with mem := s.mem.putBytes addr.toNat bytes })

/-- The address lies in the destination region of the running command: "Reads by other agents are allowed" (R218). -/
def State.inRunningDst (a : Nat) (s : State) : Bool := s.status.busy && s.cur.dstRegion.holds a

/-- The block stored to one of these addresses, by no command that still runs, and the host has not done the platform's
maintenance since BUSY = 0 (R67, 93 item S8, log 10). -/
def State.staleForHost (addr len : Nat) (s : State) : Bool :=
  let r : Region := { base := addr, size := len }
  !s.platform.coherent && s.portDirty.any fun a => r.holds a && !s.inRunningDst a

/-- Where the element that holds address `x` of the running command's destination begins. -/
def Cur.elementStart (c : Cur) (x : Nat) : Nat := c.writeAddr ((x - c.dst.toNat) / c.cmd.dstBytes)

/-- A load from `addr` sees the old contents of byte `x`: on a non-coherent platform, of an element that the running command
has done, a free choice, the same for all bytes of the element (R58, R218). -/
def State.seesOld (addr x : Nat) (s : State) : Bool :=
  !s.platform.coherent && s.portDirty.contains x && s.inRunningDst x &&
    Config.freePick (s.draws + (s.cur.elementStart x - addr)) % 2 == 0

/-- The byte at `x` as a load from `addr` sees it, where it holds a known value. -/
def State.hostByte (addr x : Nat) (s : State) : Option Byte :=
  if s.seesOld addr x then s.hostView.byte x else s.mem.byte x

/-- The bytes a load by the host or another agent sees; a byte with no known value is a free value (log 4). -/
def State.hostLoad (addr len : Nat) (s : State) : List Byte :=
  (List.range len).map fun j => (s.hostByte addr (addr + j)).getD (Config.freeByte (s.draws + j))

/-- A load by the host or another agent: allowed at any time (R218), but on a non-coherent platform a load of bytes of an ended
command needs the maintenance first (R67, 93 item S8). -/
def memLoad (addr : Word) (len : Nat) (s : State) : Host.Outcome State Fault Refusal :=
  if !spanExists addr len then .fault .noSuchAddress
  else if s.staleForHost addr.toNat len then .refused .maintenanceOmitted
  else .next (State.answer (.bytes (s.hostLoad addr.toNat len)) { s with draws := s.draws + len })

/-- The platform's maintenance, both ways (R67, R223). -/
def State.maintained (s : State) : State := { s with hostDirty := [], portDirty := [], hostView := s.mem }

/-- Memory after a reset: the bytes of the access in flight, a read or a write (R57), hold any value (R211, 93 item S3). It is
an access of an element that is not finished (log 13). -/
def State.memAtReset (inFlight : Option InFlight) (s : State) : Memory :=
  match inFlight with
  | none => s.mem
  | some a =>
    if s.status.busy && decide (s.cur.done.length < s.cur.n) then
      let r := s.cur.access a.dir (s.cur.choose a.pick)
      s.mem.forgetBytes r.base r.size
    else s.mem

/-- Reset (R210 to R212): every register at its reset value, every array cell UNSPEC, the block idle. Memory stays, but for
an access in flight (R211); the platform, the events to come and the answers given are not the block's. -/
def State.afterReset (inFlight : Option InFlight) (s : State) : State :=
  { State.reset with
    mem := s.memAtReset inFlight
    platform := s.platform
    agenda := s.agenda
    replies := s.replies
    picks := s.picks
    draws := s.draws
    hostDirty := s.hostDirty
    portDirty := s.portDirty
    hostView := s.hostView }

/-- One event, already taken from the agenda. -/
def handle (e : Event) (s : State) : Host.Outcome State Fault Refusal :=
  match e with
  | .reg t => transact t s
  | .engine => engineTurn s
  | .wait =>
    if s.status.busy then engineTurn { s with agenda := .wait :: s.agenda }
    else .next (s.answer (.data s.status.word))
  | .memStore addr bytes => memStore addr bytes s
  | .memLoad addr len => memLoad addr len s
  | .maintain => .next s.maintained
  | .reset inFlight => .next (s.afterReset inFlight)

/-- The next step of the machine: the next event, or the engine's turn when no event is to come (R103, R226; log 1). -/
def takeStep (s : State) : Host.Outcome State Fault Refusal :=
  match s.agenda with
  | [] => engineTurn s
  | e :: rest => handle e { s with agenda := rest }

/-- `WR <offset>, <value>` (R84). -/
def wr (off : BitVec 12) (v : Word) : Event := .reg { dir := .write, width := .w32, off := off, data := v }

/-- `RD <offset>` (R84). -/
def rd (off : BitVec 12) : Event := .reg { dir := .read, width := .w32, off := off, data := 0#32 }

/-- `CMD <mnemonic> ...`: the command's word written to offset 0x00C (R84, R86). -/
def cmdEvent (i : Instr) : Event := wr 0x00C#12 (encode i)

/-- `CLR` (R85). -/
def clrEvents : List Event := [wr 0x004#12 0x0000000E#32]

/-- `LUTW i, v` (R85): a write of the LUT window at 0xC00 + 4i. -/
def lutwEvents (i : Byte) (v : Word) : List Event := [wr (3#2 ++ i ++ 0#2) v]

/-- `SATF x -> r` (R85), for the pattern `bits(x)`. -/
def satfEvents (pattern : BitVec 64) : List Event :=
  [wr 0x028#12 (pattern.extractLsb' 0 32), wr 0x02C#12 (pattern.extractLsb' 32 32), rd 0x030#12]

/-- `IMG base, w, h` (R85): the in-place set-up. -/
def imgEvents (base w h : Word) : List Event :=
  [wr 0x010#12 base, wr 0x014#12 base, wr 0x018#12 w, wr 0x01C#12 h]

/-- `WAIT` (R85). -/
def waitEvents : List Event := [.wait]

end Sys2Proof.Machine
end

