-- ==== Sys2Proof/Machine/Step.lean ====
section
/-! DEFINITION. The machine's step, and how an instruction comes to be the next thing it runs. -/

namespace Sys2Proof.Machine

/-- One step: of the host, of another memory agent, of the platform, or of the engine (R8, R103). -/
def step (s : State) : Host.Outcome State Fault Refusal := takeStep s

/-- `s` with the command word `w` as the next thing the host writes to CMD, which is how a command comes to run (R21, R90;
log 2). -/
def State.withFetchWord (s : State) (_nbits w : Nat) : State :=
  { s with agenda := wr 0x00C#12 (BitVec.ofNat 32 w) :: s.agenda }

end Sys2Proof.Machine
end

