-- ==== Sys2Proof/Safety.lean ====
section
/-! DEFINITION. The terms in which claims are made: the invariant of the machine, what a safe run is, a platform on which every
access completes, and the exact value of a binary64 pattern. -/

namespace Sys2Proof.Machine

/-- What holds of the machine at reset and after every step. -/
structure Inv (s : State) : Prop where
  /-- Memory keeps its canonical form, and lists addresses below 2^32 only (R50). -/
  mem_wf : s.mem.wf
  /-- So does what the model keeps of memory as the host saw it (log 10). -/
  view_wf : s.hostView.wf
  /-- CUR.done is a set, held as a strictly rising list (R43). -/
  done_rising : s.cur.done.Pairwise (· < ·)
  /-- CUR.done holds indices in `[0, CUR.n)` (R43). -/
  done_below : ∀ k ∈ s.cur.done, k < s.cur.n
  /-- `PROGRESS = |CUR.done|` (R43). -/
  progress_eq : s.progress.toNat = s.cur.done.length
  /-- CUR.n is at most 65535 × 65535 (R21, R29). -/
  count_le : s.cur.n ≤ 4294836225
  /-- ERRCODE is 0 exactly when ERROR is 0 (R23, R181). -/
  errcode_iff : s.status.error = false ↔ s.status.errcode = .noError
  /-- DONE is 0 while a command runs (R94, R106). -/
  busy_not_done : s.status.busy = true → s.status.done = false
  /-- A running command has an element left, or none at all (R104). -/
  busy_left : s.status.busy = true → s.cur.n = 0 ∨ s.cur.done.length < s.cur.n
  /-- The live registers equal the latched ones for the whole run of a command (R102). -/
  busy_latched : s.status.busy = true →
    s.cur.src = s.srcAddr ∧ s.cur.dst = s.dstAddr ∧ s.cur.lut = s.lutAddr ∧
      s.cur.n = s.cur.cmd.count s.width s.height ∧ s.lastCmd = encode s.cur.cmd
  /-- A running command has passed the operand checks (R92). -/
  busy_checked : s.status.busy = true → operandError s.cur.cmd s.cur.src s.cur.dst s.cur.lut s.cur.n = none

/-- Every memory-port access completes (R7). -/
def State.memAllOk (s : State) : Prop := s.platform.memErr = []

/-- A run of `k` steps ends in `t` with no fault and no refusal on the way. -/
def RunsTo (k : Nat) (s t : State) : Prop := Sys2Proof.core.run k s = .next t

/-- A step is safe when it ends in a next state. -/
def SafeStep (s : State) : Prop := ∃ t, step s = .next t

/-- The next step is the engine's, taken at `u`: no event is to come, or the event is the engine's turn, or the host waits
while a command runs (R85, R103). -/
def EngineMoves (s u : State) : Prop :=
  (s.agenda = [] ∧ u = s) ∨
  (∃ rest, s.agenda = .engine :: rest ∧ u = { s with agenda := rest }) ∨
  (∃ rest, s.agenda = .wait :: rest ∧ s.status.busy = true ∧ u = s)

/-- The next step is a well-formed host write of `v` to offset `off` (R71, R96). -/
def HostWrites (off : BitVec 12) (v : Word) (s : State) : Prop :=
  off.extractLsb' 0 2 = 0 ∧ ∃ rest, s.agenda = wr off v :: rest

/-- The next step is a well-formed host write to offset `off`. -/
def HostWritesTo (off : BitVec 12) (s : State) : Prop := ∃ v, HostWrites off v s

/-- The next step is a CMD write that the checks of R92 accept, of a word that spells `i`. -/
def AcceptanceComes (i : Instr) (s : State) : Prop :=
  s.status.busy = false ∧ s.issueError i = none ∧ ∃ w, HostWrites 0x00C#12 w s ∧ decode w = .ok i

/-- The next step is a CMD write that a check of R92 rejects. -/
def RejectionComes (s : State) : Prop :=
  ∃ w, HostWrites 0x00C#12 w s ∧
    (s.status.busy = true ∨ (∃ e, decode w = .error e) ∨ ∃ i e, decode w = .ok i ∧ s.issueError i = some e)

/-- The next step is a host write to an RWI location while a command runs, which R97 drops with error BUSY. -/
def DroppedWriteComes (s : State) : Prop :=
  s.status.busy = true ∧
  ((∃ off ∈ [0x010#12, 0x014#12, 0x018#12, 0x01C#12, 0x020#12], HostWritesTo off s) ∨
    ∃ i : Byte, HostWritesTo (BitVec.ofNat 12 (0x400 + 4 * i.toNat)) s ∨
      HostWritesTo (BitVec.ofNat 12 (0xC00 + 4 * i.toNat)) s)

/-- The next step is a reset (R210). -/
def ResetComes (s : State) : Prop := ∃ p rest, s.agenda = .reset p :: rest

/-- The next step is a store by the host or another agent (R218). -/
def StoreComes (s : State) : Prop := ∃ addr bytes rest, s.agenda = .memStore addr bytes :: rest

/-- `s` after the port took a host write, before the write's own effect: the event is past and the write is answered. -/
def State.taken (rest : List Event) (s : State) : State := { s with agenda := rest, replies := .ack :: s.replies }

/-- `s` with an event ahead of all others. -/
def State.facing (e : Event) (s : State) : State := { s with agenda := e :: s.agenda }

/-- An element of the running command is left to do (R104). -/
def State.elementLeft (s : State) : Prop := s.status.busy = true ∧ s.cur.done.length < s.cur.n

/-- The bytes the next element step reads from `addr`: a byte memory knows is read as it is, another is a free value. -/
def State.seen (addr len : Nat) (s : State) : List Byte := s.mem.load s.dropPick.draws addr len

/-- The byte of channel `c` in four bytes of a pixel or table entry, R first (R53). -/
def byteOf (bs : List Byte) (c : Channel) : Byte := bs.getD c.lane 0#8

/-- CUR after the next element is finished (R104). -/
def State.curAfterElement (s : State) : Cur := { s.cur with done := insertDone s.element s.cur.done }

/-- STATUS after the next element is finished: BUSY falls and DONE rises in the step that finishes the last (R104, R106). -/
def State.statusAfterElement (s : State) : Status :=
  if s.curAfterElement.done.length = s.cur.n then { s.status with busy := false, done := true } else s.status

/-- The exact value of a finite pattern (R161), as a rational number. -/
def Real64.value : Real64 → Option ℚ
  | .nan => none
  | .inf _ => none
  | .finite neg m e => some ((if neg then -1 else 1) * (m : ℚ) * (2 : ℚ) ^ e)

end Sys2Proof.Machine
end

