-- ==== Sys2Proof/Certificates/Slice0/Obligations.lean ====
section
/-! DEFINITION. The statements for the provers, in the order of OBLIGATIONS.json. `facing`, `taken`, `answer`, `picks`, `draws`,
`portDirty` and `hostView` are the model's own bookkeeping of events, answers, choices and maintenance (logs 1, 5, 6, 10, 12); no rule of
the spec speaks of them, and no statement rests on a value of the free constants. -/

open Sys2Proof Sys2Proof.Machine

/-! ## Encoding (30_encoding.md) -/

/-- Decoding an encoded command gives it back, every field at every value (R72, R81, R86). -/
def Obligations.DecodeEncodeRoundTrip : Prop := ∀ i : Instr, decode (encode i) = .ok i

/-- A word that spells a command is the encoding of it: no bit of an accepted word is dropped, so LAST_CMD can read back the
whole word (R25, R81). -/
def Obligations.EncodeDecodeRoundTrip : Prop := ∀ (w : Word) (i : Instr), decode w = .ok i → encode i = w

/-- R81: which words are rejected and with which code, what fields an accepted word gives, and its mnemonic. -/
def Obligations.DecodeRejectsAndReadsFields : Prop := ∀ w : Word,
  (decode w = .error .badOpc ↔ w.extractLsb' 14 18 ≠ 0 ∨ 8 ≤ (w.extractLsb' 0 4).toNat) ∧
  (decode w = .error .badFmt ↔ w.extractLsb' 14 18 = 0 ∧
    ((w.extractLsb' 0 4).toNat = 3 ∨ (w.extractLsb' 0 4).toNat = 4) ∧ 2 ≤ (w.extractLsb' 4 2).toNat) ∧
  (∀ e, decode w = .error e → e = .badOpc ∨ e = .badFmt) ∧
  (∀ i, decode w = .ok i →
    i.opc = w.extractLsb' 0 4 ∧ i.fmt = w.extractLsb' 4 2 ∧ i.chsel.code = w.extractLsb' 6 2 ∧
    i.lmask = w.extractLsb' 8 4 ∧ i.par = w.getLsbD 12 ∧ i.acc = w.getLsbD 13 ∧
    (i.opc = 0#4 → i.mnemonic = "NOP") ∧ (i.opc = 1#4 → i.mnemonic = "LUT_IDENT") ∧
    (i.opc = 2#4 → i.mnemonic = "LUT_LOAD") ∧
    (i.opc = 3#4 → i.fmt = 0#2 → i.mnemonic = "APPLY_LUT.U8") ∧
    (i.opc = 3#4 → i.fmt = 1#2 → i.mnemonic = "APPLY_LUT.RGBA") ∧
    (i.opc = 4#4 → i.fmt = 0#2 → i.mnemonic = "HIST.U8") ∧
    (i.opc = 4#4 → i.fmt = 1#2 → i.mnemonic = "HIST.RGBA") ∧
    (i.opc = 5#4 → i.mnemonic = "CDF") ∧ (i.opc = 6#4 → i.mnemonic = "HIST_CLEAR") ∧
    (i.opc = 7#4 → i.mnemonic = "SAT"))

/-- The example words of R86 decode to the commands they stand for; two reserved words do not (V-C2, V-C5). -/
def Obligations.SampleWordsDecode : Prop :=
  decode 0x00000000#32 = .ok (.nop 0#2 .r 0#4 false false) ∧
  decode 0x00000F01#32 = .ok (.lutIdent 0#2 .r 0xF#4 false false) ∧
  decode 0x00000F02#32 = .ok (.lutLoad 0#2 .r 0xF#4 false false) ∧
  decode 0x000000C3#32 = .ok (.applyLutU8 .a 0#4 false false) ∧
  decode 0x00001F13#32 = .ok (.applyLutRgba .r 0xF#4 true false) ∧
  decode 0x00002004#32 = .ok (.histU8 .r 0#4 false true) ∧
  decode 0x00000094#32 = .ok (.histRgba .b 0#4 false false) ∧
  decode 0x00000005#32 = .ok (.cdf 0#2 .r 0#4 false false) ∧
  decode 0x00000006#32 = .ok (.histClear 0#2 .r 0#4 false false) ∧
  decode 0x00000007#32 = .ok (.sat 0#2 .r 0#4 false false) ∧
  decode 0x00000008#32 = .error .badOpc ∧ decode 0x00000023#32 = .error .badFmt

/-! ## How a step runs a command (40_command.md §1, §3) -/

/-- A step runs the decoded command: when the next event is a host write to CMD of a word that decodes to `i`, and no command
runs, the step is exec of `i`, the event past and answered (R90). -/
def Obligations.CmdWriteRunsDecodedCommand : Prop := ∀ (s : State) (w : Word) (i : Instr),
  s.status.busy = false → decode w = .ok i →
    step (s.facing (wr 0x00C#12 w)) = exec i (s.taken s.agenda)

/-- The engine's turn is exec of the latched command while BUSY = 1, and no step of the block while BUSY = 0 (R103). WAIT (R85)
lets the engine move while BUSY = 1 and reads STATUS at BUSY = 0; that the engine moves between polls, and that an empty
agenda is its turn, are the model's choices of schedule (logs 1, 16). -/
def Obligations.EngineTurnRunsLatchedCommand : Prop := ∀ s : State,
  (s.status.busy = true → s.agenda = [] → step s = exec s.cur.cmd s) ∧
  (s.status.busy = true → step (s.facing .engine) = exec s.cur.cmd s) ∧
  (s.status.busy = true → step (s.facing .wait) = exec s.cur.cmd (s.facing .wait)) ∧
  (s.status.busy = false → s.agenda = [] → step s = .next s) ∧
  (s.status.busy = false → step (s.facing .engine) = .next s) ∧
  (s.status.busy = false → step (s.facing .wait) = .next (s.answer (.data s.status.word)))

/-- R90: a host write to CMD is the only way to start work, and the acceptance happens in that one step. -/
def Obligations.OnlyCmdWriteStartsWork : Prop := ∀ s t : State,
  s.status.busy = false → step s = .next t → t.status.busy = true →
    ∃ w rest i, s.agenda = wr 0x00C#12 w :: rest ∧ decode w = .ok i ∧ s.issueError i = none ∧
      t = (s.taken rest).accept i

/-- R110: a running command ends only by completing, by a bus error, or by reset; no register write stops it. -/
def Obligations.RunningCommandEndsOnlyBy : Prop := ∀ s t : State,
  s.status.busy = true → step s = .next t → t.status.busy = false →
    ResetComes s ∨
    (∃ u, EngineMoves s u ∧
      (t.status.done = true ∨ (t.status.error = true ∧ t.status.errcode = .bus)))

/-! ## Reset (70_reset_and_hazards.md §1) -/

/-- R210: reset sets every register to its reset value; no flag is set, irq is 0, and the block does nothing until a CMD
write. -/
def Obligations.ResetSetsRegisters : Prop := ∀ (s : State) (p : Option InFlight), ∃ t : State,
  step (s.facing (.reset p)) = .next t ∧
  t.status.word = 0#32 ∧ t.irqEn.word = 0#32 ∧ t.lastCmd = 0#32 ∧ t.srcAddr = 0#32 ∧ t.dstAddr = 0#32 ∧
  t.width = 0#16 ∧ t.height = 0#16 ∧ t.lutAddr = 0#32 ∧ t.progress = 0#32 ∧ t.satInLo = 0#32 ∧ t.satInHi = 0#32 ∧
  t.readAt .satOut = .ok 0#32 ∧ t.readAt .id = .ok 0x4C555401#32 ∧ t.irq = false ∧
  (t.agenda = [] → step t = .next t) ∧ step (t.facing .engine) = .next t ∧
  (∀ (e : Event) (u : State), step (t.facing e) = .next u → u.status.busy = true → ∃ w : Word, e = wr 0x00C#12 w)

/-- R212: after reset every cell of LUT (every lane), HIST and CDF is UNSPEC, whatever it held before. -/
def Obligations.ResetLeavesArraysUnspec : Prop := ∀ (s : State) (p : Option InFlight), ∃ t : State,
  step (s.facing (.reset p)) = .next t ∧
  ∀ i : Byte, (∀ c : Channel, (t.lut.get i).lane c = .unspec) ∧ t.hist.get i = .unspec ∧ t.cdf.get i = .unspec

/-- R211: reset during a command ends it without completion or error; memory writes already performed stay; and the bytes of
an access in flight, a read or a write of an unfinished element, hold UNSPEC values (the model: no known value, so that each
read of one is a free value; that the access is one of one unfinished element is log 13). -/
def Obligations.ResetDuringCommand : Prop := ∀ (s : State) (p : Nat), s.elementLeft →
  (∃ t, step (s.facing (.reset none)) = .next t ∧ t.status = Status.reset ∧ t.mem = s.mem) ∧
  (∃ t, step (s.facing (.reset (some { dir := .read, pick := p }))) = .next t ∧ t.status = Status.reset ∧
    ∀ a : Nat, t.mem.byte a =
      if s.cur.readAddr (s.cur.choose p) ≤ a ∧ a < s.cur.readAddr (s.cur.choose p) + s.cur.cmd.srcBytes
      then none else s.mem.byte a) ∧
  (∃ t, step (s.facing (.reset (some { dir := .write, pick := p }))) = .next t ∧ t.status = Status.reset ∧
    ∀ a : Nat, t.mem.byte a =
      if s.cur.writeAddr (s.cur.choose p) ≤ a ∧ a < s.cur.writeAddr (s.cur.choose p) + s.cur.cmd.dstBytes
      then none else s.mem.byte a)

/-- The invariant holds at reset. -/
def Obligations.ResetMeetsInvariant : Prop := Inv State.reset

/-! ## The host's register port (40_command.md §2, 30_encoding.md §1) -/

/-- R71: an ill-formed transaction gets a bus error response and changes no state of the block. -/
def Obligations.IllFormedTransactionChangesNothing : Prop := ∀ (s : State) (x : Transaction),
  x.width ≠ .w32 ∨ x.off.extractLsb' 0 2 ≠ 0 →
    step (s.facing (.reg x)) = .next (s.answer .busError)

/-- R95: a well-formed read returns the value of the location and changes nothing; R100: a window word with an UNSPEC cell is
the model fault UnwrittenRead. -/
def Obligations.HostReadHasNoSideEffect : Prop := ∀ (s : State) (x : Transaction),
  x.dir = .read → x.width = .w32 → x.off.extractLsb' 0 2 = 0 →
    (∀ v, s.readAt (locate x.off) = .ok v → step (s.facing (.reg x)) = .next (s.answer (.data v))) ∧
    (∀ f, s.readAt (locate x.off) = .error f → f = .unwrittenRead ∧ step (s.facing (.reg x)) = .fault .unwrittenRead)

/-- The register map (R22 to R38): what a read of each offset returns; of a window word, the value of the cell (R36, R37), or
of the entry's four lanes with lane R in bits [7:0] (R38). -/
def Obligations.RegisterMapReads : Prop := ∀ s : State,
  s.readAt (locate 0x000#12) = .ok 0x4C555401#32 ∧
  s.readAt (locate 0x004#12) = .ok s.status.word ∧
  s.readAt (locate 0x008#12) = .ok s.irqEn.word ∧
  s.readAt (locate 0x00C#12) = .ok s.lastCmd ∧
  s.readAt (locate 0x010#12) = .ok s.srcAddr ∧
  s.readAt (locate 0x014#12) = .ok s.dstAddr ∧
  s.readAt (locate 0x018#12) = .ok (s.width.setWidth 32) ∧
  s.readAt (locate 0x01C#12) = .ok (s.height.setWidth 32) ∧
  s.readAt (locate 0x020#12) = .ok s.lutAddr ∧
  s.readAt (locate 0x024#12) = .ok s.progress ∧
  s.readAt (locate 0x028#12) = .ok s.satInLo ∧
  s.readAt (locate 0x02C#12) = .ok s.satInHi ∧
  s.readAt (locate 0x030#12) = .ok s.satOut ∧
  (∀ off : BitVec 12, off.extractLsb' 0 2 = 0 → 0x034 ≤ off.toNat → off.toNat ≤ 0x3FC →
    s.readAt (locate off) = .ok 0#32) ∧
  (∀ i : Byte, locate (BitVec.ofNat 12 (0x400 + 4 * i.toNat)) = .hist i ∧
    locate (BitVec.ofNat 12 (0x800 + 4 * i.toNat)) = .cdf i ∧
    locate (BitVec.ofNat 12 (0xC00 + 4 * i.toNat)) = .lut i) ∧
  (∀ (i : Byte) (v : Word), s.hist.get i = .val v →
    s.readAt (locate (BitVec.ofNat 12 (0x400 + 4 * i.toNat))) = .ok v) ∧
  (∀ (i : Byte) (v : Word), s.cdf.get i = .val v →
    s.readAt (locate (BitVec.ofNat 12 (0x800 + 4 * i.toNat))) = .ok v) ∧
  (∀ i r g b a : Byte, (s.lut.get i).lane .r = .val r → (s.lut.get i).lane .g = .val g →
    (s.lut.get i).lane .b = .val b → (s.lut.get i).lane .a = .val a →
    s.readAt (locate (BitVec.ofNat 12 (0xC00 + 4 * i.toNat))) = .ok (a ++ b ++ g ++ r))

/-- The fields of STATUS (R23) and IRQ_EN (R24) in the words the host reads, and the eight values of ERRCODE (R180). -/
def Obligations.StatusAndIrqEnFields : Prop :=
  (∀ st : Status, st.word.getLsbD 0 = st.busy ∧ st.word.getLsbD 1 = st.done ∧ st.word.getLsbD 2 = st.error ∧
    st.word.getLsbD 3 = st.hovf ∧ st.word.extractLsb' 4 4 = errNumber st.errcode ∧ st.word.extractLsb' 8 24 = 0#24) ∧
  (errNumber .noError = 0#4 ∧ errNumber .badOpc = 1#4 ∧ errNumber .badFmt = 2#4 ∧ errNumber .busy = 3#4 ∧
    errNumber .overlap = 4#4 ∧ errNumber .align = 5#4 ∧ errNumber .range = 6#4 ∧ errNumber .bus = 7#4) ∧
  (∀ en : IrqEn, en.word.getLsbD 0 = en.doneIe ∧ en.word.getLsbD 1 = en.errorIe ∧ en.word.extractLsb' 2 30 = 0#30)

/-- The write-1-to-clear of STATUS (R23), the block's return from an error (R185): at any time, and nothing else changes. -/
def Obligations.StatusWriteOneToClear : Prop := ∀ (s : State) (v : Word),
  step (s.facing (wr 0x004#12 v)) = .next
    { s.taken s.agenda with status :=
      { busy := s.status.busy
        done := if v.getLsbD 1 then false else s.status.done
        error := if v.getLsbD 2 then false else s.status.error
        hovf := if v.getLsbD 3 then false else s.status.hovf
        errcode := if v.getLsbD 2 then .noError else s.status.errcode } }

/-- R97: writes to the RWI locations take effect while BUSY = 0, and while BUSY = 1 are dropped with error BUSY. -/
def Obligations.RwiWritesGatedByBusy : Prop := ∀ (s : State) (v : Word) (i : Byte),
  (s.status.busy = false →
    step (s.facing (wr 0x010#12 v)) = .next { s.taken s.agenda with srcAddr := v } ∧
    step (s.facing (wr 0x014#12 v)) = .next { s.taken s.agenda with dstAddr := v } ∧
    step (s.facing (wr 0x018#12 v)) = .next { s.taken s.agenda with width := v.extractLsb' 0 16 } ∧
    step (s.facing (wr 0x01C#12 v)) = .next { s.taken s.agenda with height := v.extractLsb' 0 16 } ∧
    step (s.facing (wr 0x020#12 v)) = .next { s.taken s.agenda with lutAddr := v } ∧
    (∃ t, step (s.facing (wr (BitVec.ofNat 12 (0x400 + 4 * i.toNat)) v)) = .next t ∧
      t = { s.taken s.agenda with hist := t.hist } ∧
      ∀ j : Byte, t.hist.get j = if j = i then .val v else s.hist.get j) ∧
    (∃ t, step (s.facing (wr (BitVec.ofNat 12 (0xC00 + 4 * i.toNat)) v)) = .next t ∧
      t = { s.taken s.agenda with lut := t.lut } ∧
      ∀ (j : Byte) (c : Channel), (t.lut.get j).lane c =
        if j = i then .val (v.extractLsb' (8 * c.lane) 8) else (s.lut.get j).lane c)) ∧
  (s.status.busy = true →
    ∀ off ∈ [0x010#12, 0x014#12, 0x018#12, 0x01C#12, 0x020#12, BitVec.ofNat 12 (0x400 + 4 * i.toNat),
        BitVec.ofNat 12 (0xC00 + 4 * i.toNat)],
      step (s.facing (wr off v)) = .next
        { s.taken s.agenda with status := { s.status with error := true, errcode := .busy } })

/-- R98: IRQ_EN, SAT_IN_LO and SAT_IN_HI are writable at any time, also while a command runs, and nothing else changes. -/
def Obligations.AlwaysWritableRegisters : Prop := ∀ (s : State) (v : Word),
  (∃ t, step (s.facing (wr 0x008#12 v)) = .next t ∧ t = { s.taken s.agenda with irqEn := t.irqEn } ∧
    t.irqEn.word = v &&& 0x00000003#32) ∧
  step (s.facing (wr 0x028#12 v)) = .next { s.taken s.agenda with satInLo := v } ∧
  step (s.facing (wr 0x02C#12 v)) = .next { s.taken s.agenda with satInHi := v }

/-- R99: a write to a read-only location or a reserved offset has no effect and records no error, at any time. -/
def Obligations.ReadOnlyWritesIgnored : Prop := ∀ (s : State) (v : Word) (i : Byte) (off : BitVec 12),
  off = 0x000#12 ∨ off = 0x024#12 ∨ off = 0x030#12 ∨ off = BitVec.ofNat 12 (0x800 + 4 * i.toNat) ∨
    (off.extractLsb' 0 2 = 0 ∧ 0x034 ≤ off.toNat ∧ off.toNat ≤ 0x3FC) →
  step (s.facing (wr off v)) = .next (s.taken s.agenda)

/-- A HIST or LUT window word written while BUSY = 0 reads back as written (R36, R38, R126, R127, R146). -/
def Obligations.WindowWriteReadsBack : Prop := ∀ (s : State) (v : Word) (i : Byte),
  s.status.busy = false →
    (State.writeAt (.hist i) v s).readAt (.hist i) = .ok v ∧
    (State.writeAt (.lut i) v s).readAt (.lut i) = .ok v

/-- R163: SAT_OUT is the cast of the pattern {SAT_IN_HI, SAT_IN_LO} at every moment, BUSY or not, reading it changes nothing,
both inputs are writable at any time with no effect on STATUS, and after a write of one half it shows the mixed pattern. -/
def Obligations.SatOutFollowsInputs : Prop := ∀ s : State,
  step (s.facing (rd 0x030#12)) = .next (s.answer (.data ((sat (f64 (s.satInHi ++ s.satInLo))).setWidth 32))) ∧
  ∀ v : Word,
    step (s.facing (wr 0x028#12 v)) = .next { s.taken s.agenda with satInLo := v } ∧
    step (s.facing (wr 0x02C#12 v)) = .next { s.taken s.agenda with satInHi := v } ∧
    step (({ s with satInLo := v } : State).facing (rd 0x030#12)) =
      .next (({ s with satInLo := v } : State).answer (.data ((sat (f64 (s.satInHi ++ v))).setWidth 32)))

/-! ## Issue (40_command.md §1) -/

/-- R111: a word written to CMD while BUSY = 1 is rejected with BUSY, whatever it spells, and the running command is not
disturbed: only ERROR and ERRCODE change. -/
def Obligations.CmdWriteWhileBusyRejected : Prop := ∀ (s : State) (w : Word), s.status.busy = true →
  step (s.facing (wr 0x00C#12 w)) = .next
    { s.taken s.agenda with status := { s.status with error := true, errcode := .busy } }

/-- R182: a rejected word records its code (by R181, ERROR 1 and ERRCODE that code) and changes nothing else, whichever
check of R92 rejects it. -/
def Obligations.RejectedWordChangesOnlyError : Prop := ∀ (s : State) (w : Word) (e : ErrCode),
  (s.status.busy = true ∧ e = .busy) ∨
  (s.status.busy = false ∧ (decode w = .error e ∨ ∃ i, decode w = .ok i ∧ s.issueError i = some e)) →
    step (s.facing (wr 0x00C#12 w)) = .next
      { s.taken s.agenda with status := { s.status with error := true, errcode := e } }

/-- The operand checks of R92 on every command, in the order ALIGN, RANGE, OVERLAP (R56, R61, R62, R63, R93, R188), with none
for an empty image (R109) and none for the commands that reach no memory. -/
def Obligations.OperandChecksInOrder : Prop :=
  ∀ (s : State) (fmt : BitVec 2) (ch : Channel) (m : BitVec 4) (par acc : Bool),
  let n := s.width.toNat * s.height.toNat
  let src := s.srcAddr.toNat
  let dst := s.dstAddr.toNat
  let lut := s.lutAddr.toNat
  s.issueError (.nop fmt ch m par acc) = none ∧
  s.issueError (.lutIdent fmt ch m par acc) = none ∧
  s.issueError (.cdf fmt ch m par acc) = none ∧
  s.issueError (.histClear fmt ch m par acc) = none ∧
  s.issueError (.lutLoad fmt ch m par acc) =
    (if lut % 4 ≠ 0 then some .align else if lut + 1024 > 2 ^ 32 then some .range else none) ∧
  s.issueError (.applyLutU8 ch m par acc) =
    (if n = 0 then none
     else if src + n > 2 ^ 32 ∨ dst + n > 2 ^ 32 then some .range
     else if (src < dst + n ∧ dst < src + n) ∧ src ≠ dst then some .overlap else none) ∧
  s.issueError (.applyLutRgba ch m par acc) =
    (if n = 0 then none
     else if src % 4 ≠ 0 ∨ dst % 4 ≠ 0 then some .align
     else if src + 4 * n > 2 ^ 32 ∨ dst + 4 * n > 2 ^ 32 then some .range
     else if (src < dst + 4 * n ∧ dst < src + 4 * n) ∧ src ≠ dst then some .overlap else none) ∧
  s.issueError (.histU8 ch m par acc) =
    (if n = 0 then none else if src + n > 2 ^ 32 then some .range else none) ∧
  s.issueError (.histRgba ch m par acc) =
    (if n = 0 then none else if src % 4 ≠ 0 then some .align else if src + 4 * n > 2 ^ 32 then some .range else none) ∧
  s.issueError (.sat fmt ch m par acc) =
    (if n = 0 then none
     else if src % 8 ≠ 0 then some .align
     else if src + 8 * n > 2 ^ 32 ∨ dst + n > 2 ^ 32 then some .range
     else if src < dst + n ∧ dst < src + 8 * n then some .overlap else none)

/-- R94: acceptance, for every command: what is latched, what is cleared, and that nothing else changes. The hypotheses on
duty and maintenance are the host's (R221, R67), and `hostView` is the model's own bookkeeping (log 10). -/
def Obligations.AcceptanceLatchesCommand : Prop := ∀ (i : Instr) (s : State),
  s.status.busy = false → s.issueError i = none → s.dutyBroken i = false → s.needsMaintenance i = false →
  ∃ t, exec i s = .next t ∧
    t = { s with
      lastCmd := encode i
      cur := { cmd := i, src := s.srcAddr, dst := s.dstAddr, lut := s.lutAddr,
               n := i.count s.width s.height, done := [] }
      progress := 0#32
      status := { s.status with busy := true, done := false }
      hist := t.hist
      hostView := if s.platform.coherent then s.hostView else s.mem.forgetAll s.portDirty } ∧
    (∀ w : Word, decode w = .ok i → t.lastCmd = w) ∧
    ∀ v : Byte, t.hist.get v = if i.opc = 4#4 ∧ i.acc = false then .val 0#32 else s.hist.get v

/-- R109: an APPLY_LUT, HIST or SAT command on an empty image is accepted whatever the addresses are, and the engine's first
step completes it; memory is not touched. -/
def Obligations.EmptyImageIsNoOp : Prop := ∀ (i : Instr) (s : State),
  i.opc = 3#4 ∨ i.opc = 4#4 ∨ i.opc = 7#4 → s.width = 0#16 ∨ s.height = 0#16 → s.status.busy = false →
  exec i s = .next (s.accept i) ∧
  exec i (s.accept i) = .next
    { s.accept i with status := { (s.accept i).status with busy := false, done := true } } ∧
  (s.accept i).mem = s.mem ∧ (s.accept i).lut = s.lut ∧ (s.accept i).cdf = s.cdf ∧
  (∀ v : Byte, (s.accept i).hist.get v = if i.opc = 4#4 ∧ i.acc = false then .val 0#32 else s.hist.get v)

/-- R221: a command that would be accepted and whose region names a device location or the block's own register window ends
the run with HostDutyBroken. -/
def Obligations.DeviceRegionBreaksDuty : Prop := ∀ (i : Instr) (s : State) (a : Nat) (d : Region),
  s.status.busy = false → s.issueError i = none →
  (d ∈ s.platform.devices ∨ d = { base := s.platform.regBase, size := 4096 }) →
  (d.base ≤ a ∧ a < d.base + d.size) →
  (let n := i.count s.width s.height
   ((i.readBase s.srcAddr s.lutAddr).toNat ≤ a ∧ a < (i.readBase s.srcAddr s.lutAddr).toNat + i.srcBytes * n) ∨
   (s.dstAddr.toNat ≤ a ∧ a < s.dstAddr.toNat + i.dstBytes * n)) →
  exec i s = .fault .hostDutyBroken

/-- Maintenance on a non-coherent platform (R67, 93 item S8): a command whose region holds a byte the host stored without
maintenance is refused, and so is a load of a byte of an ended command; after maintenance both go on. A load from the
destination of the running command always completes, and sees of each element either its old contents or its result, whole
(R58, R218), on every platform. The bookkeeping is the model's (log 10): `hostView` is memory at the acceptance. -/
def Obligations.OmittedMaintenanceRefused : Prop :=
  (∀ (i : Instr) (s : State) (a : Nat),
    s.status.busy = false → s.issueError i = none → s.dutyBroken i = false → s.platform.coherent = false →
    a ∈ s.hostDirty →
    (let n := i.count s.width s.height
     ((i.readBase s.srcAddr s.lutAddr).toNat ≤ a ∧ a < (i.readBase s.srcAddr s.lutAddr).toNat + i.srcBytes * n) ∨
     (s.dstAddr.toNat ≤ a ∧ a < s.dstAddr.toNat + i.dstBytes * n)) →
    exec i s = .refused .maintenanceOmitted ∧
    step (s.facing .maintain) = .next s.maintained ∧
    exec i s.maintained = .next (s.maintained.accept i)) ∧
  (∀ (s : State) (addr : Word) (len a : Nat), s.platform.coherent = false → addr.toNat + len ≤ 2 ^ 32 →
    a ∈ s.portDirty → addr.toNat ≤ a → a < addr.toNat + len →
    (s.status.busy = false ∨ a < s.cur.dst.toNat ∨ s.cur.dst.toNat + s.cur.cmd.dstBytes * s.cur.n ≤ a) →
    step (s.facing (.memLoad addr len)) = .refused .maintenanceOmitted ∧
    ∃ t, step (s.maintained.facing (.memLoad addr len)) = .next t) ∧
  (∀ (s : State) (addr : Word) (len : Nat), s.status.busy = true → addr.toNat + len ≤ 2 ^ 32 →
    s.cur.dst.toNat ≤ addr.toNat → addr.toNat + len ≤ s.cur.dst.toNat + s.cur.cmd.dstBytes * s.cur.n →
    ∃ (bs : List Byte) (old : Nat → Bool),
      step (s.facing (.memLoad addr len)) =
        .next { s with replies := .bytes bs :: s.replies, draws := s.draws + len } ∧
      bs.length = len ∧
      ∀ (j : Nat) (b : Byte), j < len →
        (if s.platform.coherent = false ∧ addr.toNat + j ∈ s.portDirty ∧
            old ((addr.toNat + j - s.cur.dst.toNat) / s.cur.cmd.dstBytes) = true
         then s.hostView.byte (addr.toNat + j) else s.mem.byte (addr.toNat + j)) = some b →
        bs.getD j 0#8 = b)

/-! ## One-step commands (40_command.md R105, R108; 41_lut.md R121; 42_histogram.md R141, R145) -/

/-- NOP (R108): no operand check rejects it, it is accepted with CUR.n = 0, and the engine's single step completes it and
changes nothing else; every word with bits [31:14] and [3:0] zero is NOP. -/
def Obligations.NopCompletes : Prop :=
  (∀ (fmt : BitVec 2) (ch : Channel) (m : BitVec 4) (par acc : Bool) (s : State), s.status.busy = false →
    exec (.nop fmt ch m par acc) s = .next (s.accept (.nop fmt ch m par acc)) ∧
    (s.accept (.nop fmt ch m par acc)).cur.n = 0) ∧
  (∀ (fmt : BitVec 2) (ch : Channel) (m : BitVec 4) (par acc : Bool) (s : State), s.status.busy = true →
    exec (.nop fmt ch m par acc) s = .next { s with status := { s.status with busy := false, done := true } }) ∧
  (∀ w : Word, w.extractLsb' 14 18 = 0 → w.extractLsb' 0 4 = 0 →
    ∃ fmt ch m par acc, decode w = .ok (.nop fmt ch m par acc))

/-- LUT_IDENT (R121): one engine step writes `i` to the selected lanes of every entry `i`, keeps the other lanes, and
completes; nothing else changes. -/
def Obligations.LutIdentFillsSelectedLanes : Prop :=
  ∀ (fmt : BitVec 2) (ch : Channel) (m : BitVec 4) (par acc : Bool) (s : State), s.status.busy = true →
  ∃ t, exec (.lutIdent fmt ch m par acc) s = .next t ∧
    t = { s with
      lut := t.lut, cur := { s.cur with done := List.range 256 }, progress := 256#32
      status := { s.status with busy := false, done := true } } ∧
    ∀ (i : Byte) (c : Channel), (t.lut.get i).lane c = if m.getLsbD c.lane then .val i else (s.lut.get i).lane c

/-- HIST_CLEAR (R141): one engine step sets every counter to 0 and completes; HOVF and CDF are kept. -/
def Obligations.HistClearZeroesCounters : Prop :=
  ∀ (fmt : BitVec 2) (ch : Channel) (m : BitVec 4) (par acc : Bool) (s : State), s.status.busy = true →
  ∃ t, exec (.histClear fmt ch m par acc) s = .next t ∧
    t = { s with
      hist := t.hist, cur := { s.cur with done := List.range 256 }, progress := 256#32
      status := { s.status with busy := false, done := true } } ∧
    ∀ i : Byte, t.hist.get i = .val 0#32

/-- CDF (R145): with every counter a value, one engine step stores the prefix sums modulo 2^32, sets HOVF when the total
passes 2^32 - 1, and completes; HIST is kept. -/
def Obligations.CdfStoresPrefixSums : Prop :=
  ∀ (fmt : BitVec 2) (ch : Channel) (m : BitVec 4) (par acc : Bool) (s : State) (h : Byte → Word),
  s.status.busy = true → (∀ i : Byte, s.hist.get i = .val (h i)) →
  ∃ t, exec (.cdf fmt ch m par acc) s = .next t ∧
    t = { s with
      cdf := t.cdf, cur := { s.cur with done := List.range 256 }, progress := 256#32
      status := { s.status with
        busy := false, done := true
        hovf := s.status.hovf || decide (2 ^ 32 ≤ ∑ k ∈ Finset.range 256, (h (BitVec.ofNat 8 k)).toNat) } } ∧
    ∀ i : Byte, t.cdf.get i =
      .val (BitVec.ofNat 32 (∑ k ∈ Finset.range (i.toNat + 1), (h (BitVec.ofNat 8 k)).toNat))

/-! ## Element commands (40_command.md R104; 41_lut.md; 42_histogram.md; 43_saturate.md) -/

/-- LUT_LOAD (R122): one element step reads the word of an entry and writes its selected lanes; the other lanes and entries,
and everything else, are kept. -/
def Obligations.LutLoadElementLoadsLanes : Prop :=
  ∀ (fmt : BitVec 2) (ch : Channel) (m : BitVec 4) (par acc : Bool) (s : State), s.elementLeft →
  let a := s.cur.lut.toNat + 4 * s.element
  s.memOk a 4 .read = true →
  ∃ t, exec (.lutLoad fmt ch m par acc) s = .next t ∧
    t = { s with
      lut := t.lut, cur := s.curAfterElement, status := s.statusAfterElement, progress := s.progress + 1#32
      picks := s.picks.tail, draws := t.draws } ∧
    ∀ (i : Byte) (c : Channel), (t.lut.get i).lane c =
      if i = BitVec.ofNat 8 s.element ∧ m.getLsbD c.lane then .val (byteOf (s.seen a 4) c) else (s.lut.get i).lane c

/-- APPLY_LUT.U8 (R123): one element step reads a sample, looks up lane CHSEL of the entry it indexes, and writes that byte
at the element's place of the destination; every other byte of memory and everything else is kept. -/
def Obligations.ApplyU8ElementLooksUpLane : Prop :=
  ∀ (ch : Channel) (m : BitVec 4) (par acc : Bool) (s : State) (o : Byte), s.elementLeft →
  let a := s.cur.src.toNat + s.element
  let d := s.cur.dst.toNat + s.element
  s.memOk a 1 .read = true → s.memOk d 1 .write = true →
  (s.lut.get ((s.seen a 1).getD 0 0#8)).lane ch = .val o →
  ∃ t, exec (.applyLutU8 ch m par acc) s = .next t ∧
    t = { s with
      mem := t.mem, cur := s.curAfterElement, status := s.statusAfterElement, progress := s.progress + 1#32
      picks := s.picks.tail, draws := t.draws
      portDirty := if s.platform.coherent then s.portDirty else s.portDirty ++ span d 1 } ∧
    (∀ x : Nat, t.mem.byte x = if x = d then some o else s.mem.byte x)

/-- APPLY_LUT.RGBA (R124): one element step reads a pixel, looks up each channel selected by LMASK with its own value and
copies the others, and writes the pixel at the element's place; every other byte and everything else is kept. -/
def Obligations.ApplyRgbaElementLooksUpChannels : Prop :=
  ∀ (ch : Channel) (m : BitVec 4) (par acc : Bool) (s : State) (o : Channel → Byte), s.elementLeft →
  let a := s.cur.src.toNat + 4 * s.element
  let d := s.cur.dst.toNat + 4 * s.element
  let p := byteOf (s.seen a 4)
  s.memOk a 4 .read = true → s.memOk d 4 .write = true →
  (∀ c, m.getLsbD c.lane = true → (s.lut.get (p c)).lane c = .val (o c)) →
  (∀ c, m.getLsbD c.lane = false → o c = p c) →
  ∃ t, exec (.applyLutRgba ch m par acc) s = .next t ∧
    t = { s with
      mem := t.mem, cur := s.curAfterElement, status := s.statusAfterElement, progress := s.progress + 1#32
      picks := s.picks.tail, draws := t.draws
      portDirty := if s.platform.coherent then s.portDirty else s.portDirty ++ span d 4 } ∧
    (∀ c : Channel, t.mem.byte (d + c.lane) = some (o c)) ∧
    (∀ x : Nat, x < d ∨ d + 4 ≤ x → t.mem.byte x = s.mem.byte x)

/-- HIST.U8 and HIST.RGBA (R142, R143, R144): one element step adds 1, modulo 2^32, to the counter of the sample or of the
pixel's channel CHSEL, and sets HOVF when it passes 2^32 - 1; memory, every other counter and everything else is kept. -/
def Obligations.HistElementCountsOnce : Prop :=
  ∀ (ch : Channel) (m : BitVec 4) (par acc : Bool) (s : State) (c : Word), s.elementLeft →
  (let a := s.cur.src.toNat + s.element
   let v := (s.seen a 1).getD 0 0#8
   s.memOk a 1 .read = true → s.hist.get v = .val c →
   ∃ t, exec (.histU8 ch m par acc) s = .next t ∧
     t = { s with
       hist := t.hist, cur := s.curAfterElement, progress := s.progress + 1#32
       status := { s.statusAfterElement with hovf := s.status.hovf || c == 0xFFFFFFFF#32 }
       picks := s.picks.tail, draws := t.draws } ∧
     ∀ j : Byte, t.hist.get j = if j = v then .val (c + 1#32) else s.hist.get j) ∧
  (let a := s.cur.src.toNat + 4 * s.element
   let v := byteOf (s.seen a 4) ch
   s.memOk a 4 .read = true → s.hist.get v = .val c →
   ∃ t, exec (.histRgba ch m par acc) s = .next t ∧
     t = { s with
       hist := t.hist, cur := s.curAfterElement, progress := s.progress + 1#32
       status := { s.statusAfterElement with hovf := s.status.hovf || c == 0xFFFFFFFF#32 }
       picks := s.picks.tail, draws := t.draws } ∧
     ∀ j : Byte, t.hist.get j = if j = v then .val (c + 1#32) else s.hist.get j)

/-- SAT (R164): one element step reads the eight bytes of a sample and writes its saturating cast at the element's place;
every other byte and everything else is kept. -/
def Obligations.SatElementCastsSample : Prop :=
  ∀ (fmt : BitVec 2) (ch : Channel) (m : BitVec 4) (par acc : Bool) (s : State), s.elementLeft →
  let a := s.cur.src.toNat + 8 * s.element
  let d := s.cur.dst.toNat + s.element
  s.memOk a 8 .read = true → s.memOk d 1 .write = true →
  ∃ t, exec (.sat fmt ch m par acc) s = .next t ∧
    t = { s with
      mem := t.mem, cur := s.curAfterElement, status := s.statusAfterElement, progress := s.progress + 1#32
      picks := s.picks.tail, draws := t.draws
      portDirty := if s.platform.coherent then s.portDirty else s.portDirty ++ span d 1 } ∧
    (∀ x : Nat, t.mem.byte x =
      if x = d then some (sat (f64 (BitVec.ofNat 64 (leNat (s.seen a 8))))) else s.mem.byte x)

/-- The chosen element is an unfinished one of the command, whatever the schedule or the free value picks (R104). -/
def Obligations.ChosenElementIsUnfinished : Prop := ∀ s : State, Inv s → s.elementLeft →
  s.element < s.cur.n ∧ s.element ∉ s.cur.done

/-- Every unfinished element can be the next one (R65: "any permutation"): some choice number picks it. -/
def Obligations.AnyUnfinishedElementCanBeNext : Prop := ∀ (s : State) (k : Nat), Inv s → s.elementLeft →
  k < s.cur.n → k ∉ s.cur.done → ∃ p : Nat, State.element { s with picks := p :: s.picks } = k

/-- R107: an element whose read gets an error response is not finished and has no effect; the command ends with BUSY 0, ERROR
1, ERRCODE BUS, DONE and PROGRESS as they were. -/
def Obligations.ReadBusErrorAborts : Prop :=
  ∀ (fmt : BitVec 2) (ch : Channel) (m : BitVec 4) (par acc : Bool) (s : State), s.elementLeft →
  ∀ p ∈ [(Instr.lutLoad fmt ch m par acc, s.cur.lut.toNat + 4 * s.element, 4),
      (.applyLutU8 ch m par acc, s.cur.src.toNat + s.element, 1),
      (.applyLutRgba ch m par acc, s.cur.src.toNat + 4 * s.element, 4),
      (.histU8 ch m par acc, s.cur.src.toNat + s.element, 1),
      (.histRgba ch m par acc, s.cur.src.toNat + 4 * s.element, 4),
      (.sat fmt ch m par acc, s.cur.src.toNat + 8 * s.element, 8)],
    s.memOk p.2.1 p.2.2 .read = false →
    ∃ t, exec p.1 s = .next t ∧
      t = { s with
        status := { s.status with busy := false, error := true, errcode := .bus }
        picks := s.picks.tail, draws := t.draws }

/-- R107 and R58: an element whose write gets an error response aborts the command in the same way, and the bytes it addressed
hold no known value afterwards; every other byte is kept. -/
def Obligations.WriteBusErrorAborts : Prop :=
  ∀ (fmt : BitVec 2) (ch : Channel) (m : BitVec 4) (par acc : Bool) (s : State) (i : Instr) (d len : Nat),
  s.elementLeft →
  ((i = .applyLutU8 ch m par acc ∧ d = s.cur.dst.toNat + s.element ∧ len = 1 ∧
      s.memOk (s.cur.src.toNat + s.element) 1 .read = true ∧
      (s.lut.get ((s.seen (s.cur.src.toNat + s.element) 1).getD 0 0#8)).lane ch ≠ .unspec) ∨
   (i = .applyLutRgba ch m par acc ∧ d = s.cur.dst.toNat + 4 * s.element ∧ len = 4 ∧
      s.memOk (s.cur.src.toNat + 4 * s.element) 4 .read = true ∧
      ∀ c : Channel, m.getLsbD c.lane = true →
        (s.lut.get (byteOf (s.seen (s.cur.src.toNat + 4 * s.element) 4) c)).lane c ≠ .unspec) ∨
   (i = .sat fmt ch m par acc ∧ d = s.cur.dst.toNat + s.element ∧ len = 1 ∧
      s.memOk (s.cur.src.toNat + 8 * s.element) 8 .read = true)) →
  s.memOk d len .write = false →
  ∃ t, exec i s = .next t ∧
    t = { s with
      status := { s.status with busy := false, error := true, errcode := .bus }
      mem := t.mem, picks := s.picks.tail, draws := t.draws
      portDirty := if s.platform.coherent then s.portDirty else s.portDirty ++ span d len } ∧
    (∀ x : Nat, t.mem.byte x = if d ≤ x ∧ x < d + len then none else s.mem.byte x)

/-- R214: an engine step that reads an UNSPEC cell ends the run with UnwrittenRead. -/
def Obligations.UnspecCellFaults : Prop :=
  ∀ (fmt : BitVec 2) (ch : Channel) (m : BitVec 4) (par acc : Bool) (s : State),
  (s.elementLeft → s.memOk (s.cur.src.toNat + s.element) 1 .read = true →
    (s.lut.get ((s.seen (s.cur.src.toNat + s.element) 1).getD 0 0#8)).lane ch = .unspec →
    exec (.applyLutU8 ch m par acc) s = .fault .unwrittenRead) ∧
  (∀ c : Channel, s.elementLeft → s.memOk (s.cur.src.toNat + 4 * s.element) 4 .read = true →
    m.getLsbD c.lane = true →
    (s.lut.get (byteOf (s.seen (s.cur.src.toNat + 4 * s.element) 4) c)).lane c = .unspec →
    exec (.applyLutRgba ch m par acc) s = .fault .unwrittenRead) ∧
  (s.elementLeft → s.memOk (s.cur.src.toNat + s.element) 1 .read = true →
    s.hist.get ((s.seen (s.cur.src.toNat + s.element) 1).getD 0 0#8) = .unspec →
    exec (.histU8 ch m par acc) s = .fault .unwrittenRead) ∧
  (s.elementLeft → s.memOk (s.cur.src.toNat + 4 * s.element) 4 .read = true →
    s.hist.get (byteOf (s.seen (s.cur.src.toNat + 4 * s.element) 4) ch) = .unspec →
    exec (.histRgba ch m par acc) s = .fault .unwrittenRead) ∧
  (∀ i : Byte, s.status.busy = true → s.hist.get i = .unspec →
    exec (.cdf fmt ch m par acc) s = .fault .unwrittenRead) ∧
  (∀ i : Byte, s.hist.get i = .unspec →
    step (s.facing (rd (BitVec.ofNat 12 (0x400 + 4 * i.toNat)))) = .fault .unwrittenRead) ∧
  (∀ i : Byte, s.cdf.get i = .unspec →
    step (s.facing (rd (BitVec.ofNat 12 (0x800 + 4 * i.toNat)))) = .fault .unwrittenRead) ∧
  (∀ (i : Byte) (c : Channel), (s.lut.get i).lane c = .unspec →
    step (s.facing (rd (BitVec.ofNat 12 (0xC00 + 4 * i.toNat)))) = .fault .unwrittenRead)

/-- PAR changes no result (R125), nor does any field a command ignores (R80): the engine steps are the same. -/
def Obligations.IgnoredFieldsDoNotMatter : Prop :=
  ∀ (f f' : BitVec 2) (c c' : Channel) (m m' : BitVec 4) (p p' a a' : Bool) (s : State), s.status.busy = true →
  exec (.nop f c m p a) s = exec (.nop f' c' m' p' a') s ∧
  exec (.lutIdent f c m p a) s = exec (.lutIdent f' c' m p' a') s ∧
  exec (.lutLoad f c m p a) s = exec (.lutLoad f' c' m p' a') s ∧
  exec (.applyLutU8 c m p a) s = exec (.applyLutU8 c m' p' a') s ∧
  exec (.applyLutRgba c m p a) s = exec (.applyLutRgba c' m p' a') s ∧
  exec (.histU8 c m p a) s = exec (.histU8 c' m' p' a') s ∧
  exec (.histRgba c m p a) s = exec (.histRgba c m' p' a') s ∧
  exec (.cdf f c m p a) s = exec (.cdf f' c' m' p' a') s ∧
  exec (.histClear f c m p a) s = exec (.histClear f' c' m' p' a') s ∧
  exec (.sat f c m p a) s = exec (.sat f' c' m' p' a') s

/-! ## The saturating cast (43_saturate.md §1) -/

/-- R160: NaN gives 0, the infinities 255 and 0, and a real `x` gives sign(x) · floor(|x| + 1/2) clamped to [0, 255]. -/
def Obligations.SatRoundsHalfAwayAndClamps : Prop :=
  sat .nan = 0#8 ∧ sat (.inf false) = 255#8 ∧ sat (.inf true) = 0#8 ∧
  ∀ (x : Real64) (q : ℚ), x.value = some q →
    (((sat x).toNat : ℕ) : ℤ) = max 0 (min 255 ((if q < 0 then -1 else 1) * ⌊|q| + 1 / 2⌋))

/-- The threshold form (R162). -/
def Obligations.SatThresholds : Prop := ∀ (x : Real64) (q : ℚ), x.value = some q →
  (q < 1 / 2 → sat x = 0#8) ∧
  (1 / 2 ≤ q → q < 509 / 2 → (((sat x).toNat : ℕ) : ℤ) = ⌊q + 1 / 2⌋) ∧
  (509 / 2 ≤ q → sat x = 255#8) ∧
  (∀ i : Byte, q = (i.toNat : ℚ) → sat x = i) ∧
  (∀ i : Byte, i.toNat < 255 → q = (i.toNat : ℚ) + 1 / 2 → sat x = i + 1#8)

/-- What a 64-bit pattern denotes (R161, the binary64 layout). -/
def Obligations.PatternDenotesValue : Prop := ∀ b : BitVec 64,
  let sgn : ℚ := if b.getLsbD 63 then -1 else 1
  let e := (b.extractLsb' 52 11).toNat
  let f := (b.extractLsb' 0 52).toNat
  (e = 0x7FF → f ≠ 0 → f64 b = .nan) ∧
  (e = 0x7FF → f = 0 → f64 b = .inf (b.getLsbD 63)) ∧
  (e = 0 → (f64 b).value = some (sgn * f * 2 ^ (-1074 : ℤ))) ∧
  (e ≠ 0 → e ≠ 0x7FF → (f64 b).value = some (sgn * (2 ^ 52 + f) * 2 ^ ((e : ℤ) - 1075)))

/-! ## Memory (20_memory.md) -/

/-- What the port moves is little-endian (R12, R54): the byte at the lowest address is the least significant, both ways. Byte
`j` of the value that MemRead gives is the byte at `addr + j` where memory knows one (free values stand only where it knows
none, log 4); MemWrite stores byte `j` of its value at `addr + j` and keeps every other byte. -/
def Obligations.PortValuesAreLittleEndian : Prop :=
  (∀ (bs : List Byte) (j : Nat), j < bs.length → leNat bs / 256 ^ j % 256 = (bs.getD j 0#8).toNat) ∧
  (∀ (len v j : Nat), j < len → ((leBytes len v).getD j 0#8).toNat = v / 256 ^ j % 256) ∧
  (∀ (m : Memory) (d x len k : Nat) (b : Byte), k < len → m.byte (x + k) = some b →
    (m.load d x len).getD k 0#8 = b) ∧
  (∀ (s : State) (addr len : Nat), s.memOk addr len .read = true →
    ∃ v, s.portRead addr len = some (v, { s with draws := s.draws + len }) ∧ v < 256 ^ len ∧
      ∀ (j : Nat) (b : Byte), j < len → s.mem.byte (addr + j) = some b → v / 256 ^ j % 256 = b.toNat) ∧
  (∀ (s : State) (addr len v : Nat), s.memOk addr len .write = true →
    ∃ t, s.portWrite addr len v = .ok t ∧
      (∀ j : Nat, j < len → t.mem.byte (addr + j) = some (BitVec.ofNat 8 (v / 256 ^ j))) ∧
      (∀ x : Nat, x < addr ∨ addr + len ≤ x → t.mem.byte x = s.mem.byte x))

/-- Another agent's bytes, stored where no running command's region lies, are what a load by another agent then reads, on a
coherent platform; every other byte is kept (R8, R50, R67, R218). -/
def Obligations.StoreThenLoad : Prop := ∀ (s : State) (addr : Word) (bytes : List Byte),
  addr.toNat + bytes.length ≤ 2 ^ 32 → s.platform.coherent = true →
  s.ownedByEngine addr.toNat bytes.length = false →
  ∃ t u, step (s.facing (.memStore addr bytes)) = .next t ∧
    (∀ x : Nat, x < addr.toNat ∨ addr.toNat + bytes.length ≤ x → t.mem.byte x = s.mem.byte x) ∧
    step (t.facing (.memLoad addr bytes.length)) = .next u ∧ u.replies = .bytes bytes :: s.replies ∧ u.mem = t.mem

/-- R218: a store by another agent that touches a byte of the running command's regions ends the run with HostDutyBroken. -/
def Obligations.StoreIntoLiveRegionFaults : Prop := ∀ (s : State) (addr : Word) (bytes : List Byte) (x : Nat),
  s.status.busy = true → addr.toNat + bytes.length ≤ 2 ^ 32 →
  addr.toNat ≤ x → x < addr.toNat + bytes.length →
  (let r := (s.cur.cmd.readBase s.cur.src s.cur.lut).toNat
   (r ≤ x ∧ x < r + s.cur.cmd.srcBytes * s.cur.n) ∨
   (s.cur.dst.toNat ≤ x ∧ x < s.cur.dst.toNat + s.cur.cmd.dstBytes * s.cur.n)) →
  step (s.facing (.memStore addr bytes)) = .fault .hostDutyBroken

/-- The engine changes no byte outside the destination region of its command (R57, R129), and every byte it can change is
below 2^32 (R62). -/
def Obligations.EngineWritesOnlyDestination : Prop := ∀ (s u t : State) (x : Nat),
  Inv s → EngineMoves s u → step s = .next t → t.mem.byte x ≠ s.mem.byte x →
    s.status.busy = true ∧ s.cur.dst.toNat ≤ x ∧ x < s.cur.dst.toNat + s.cur.cmd.dstBytes * s.cur.n ∧ x < 2 ^ 32

/-! ## Whole-machine rules -/

/-- Every step keeps the invariant. -/
def Obligations.StepKeepsInvariant : Prop := ∀ s t : State, Inv s → step s = .next t → Inv t

/-- The arrays are written only by their writers (R40, R41, R42): LUT by LUT_IDENT, LUT_LOAD and host writes while BUSY = 0,
HIST by HIST_CLEAR, HIST, host writes while BUSY = 0 and the acceptance of HIST with ACC = 0, CDF by the CDF command; and by
reset (R212). -/
def Obligations.ArraysHaveOnlyTheirWriters : Prop := ∀ s t : State, step s = .next t →
  (t.lut ≠ s.lut → ResetComes s ∨
    (s.status.busy = false ∧ ∃ i : Byte, HostWritesTo (BitVec.ofNat 12 (0xC00 + 4 * i.toNat)) s) ∨
    (s.status.busy = true ∧ (s.cur.cmd.opc = 1#4 ∨ s.cur.cmd.opc = 2#4) ∧ ∃ u, EngineMoves s u)) ∧
  (t.hist ≠ s.hist → ResetComes s ∨
    (s.status.busy = false ∧ ∃ i : Byte, HostWritesTo (BitVec.ofNat 12 (0x400 + 4 * i.toNat)) s) ∨
    (∃ i : Instr, AcceptanceComes i s ∧ i.opc = 4#4 ∧ i.acc = false) ∨
    (s.status.busy = true ∧ (s.cur.cmd.opc = 4#4 ∨ s.cur.cmd.opc = 6#4) ∧ ∃ u, EngineMoves s u)) ∧
  (t.cdf ≠ s.cdf → ResetComes s ∨ (s.status.busy = true ∧ s.cur.cmd.opc = 5#4 ∧ ∃ u, EngineMoves s u))

/-- HOVF is set only by an engine step of HIST or CDF (R23, R45), and it is a warning: the irq output does not depend on it
(R184). -/
def Obligations.HovfSetOnlyByHistAndCdf : Prop :=
  (∀ s t : State, step s = .next t → s.status.hovf = false → t.status.hovf = true →
    s.status.busy = true ∧ (s.cur.cmd.opc = 4#4 ∨ s.cur.cmd.opc = 5#4) ∧ ∃ u, EngineMoves s u) ∧
  (∀ (s : State) (b : Bool), State.irq { s with status := { s.status with hovf := b } } = s.irq)

/-- R187: the level of irq. It rises only when a command completes or aborts with the matching enable set, when a rejected CMD
write or a dropped RWI write records an error with ERROR_IE set, or when a write to IRQ_EN sets the enable of a status bit
that is 1; it falls only when the host clears the status bit or the enable, or accepts a command while DONE = 1, or at
reset. -/
def Obligations.IrqLevelRisesAndFalls : Prop :=
  (∀ s : State, s.irq = true ↔
    (s.status.done = true ∧ s.irqEn.doneIe = true) ∨ (s.status.error = true ∧ s.irqEn.errorIe = true)) ∧
  (∀ s t : State, step s = .next t → s.irq = false → t.irq = true →
    (s.status.busy = true ∧ t.status.busy = false ∧ (∃ u, EngineMoves s u) ∧
      ((t.status.done = true ∧ s.irqEn.doneIe = true) ∨
       (t.status.error = true ∧ t.status.errcode = .bus ∧ s.irqEn.errorIe = true))) ∨
    ((RejectionComes s ∨ DroppedWriteComes s) ∧ s.irqEn.errorIe = true ∧ s.status.error = false ∧
      t.status.error = true) ∨
    (∃ v, HostWrites 0x008#12 v s ∧
      ((s.status.done = true ∧ v.getLsbD 0 = true) ∨ (s.status.error = true ∧ v.getLsbD 1 = true)))) ∧
  (∀ s t : State, step s = .next t → s.irq = true → t.irq = false →
    ResetComes s ∨
    (∃ v, HostWrites 0x004#12 v s ∧
      ((s.status.done = true ∧ v.getLsbD 1 = true) ∨ (s.status.error = true ∧ v.getLsbD 2 = true))) ∨
    (∃ v, HostWrites 0x008#12 v s ∧
      ((s.irqEn.doneIe = true ∧ v.getLsbD 0 = false) ∨ (s.irqEn.errorIe = true ∧ v.getLsbD 1 = false))) ∨
    (s.status.done = true ∧ s.irqEn.doneIe = true ∧ ∃ i : Instr, AcceptanceComes i s))

/-- The platform's parameters never change (R46: they are parameters, not state; carrying them in State is the model's choice,
log 3). -/
def Obligations.PlatformNeverChanges : Prop := ∀ s t : State, step s = .next t → t.platform = s.platform

/-- Every accepted command ends after at most CUR.n + 1 engine steps (R104, R226): it completes, aborts with BUS, or ends the
run with UnwrittenRead. -/
def Obligations.CommandsEnd : Prop := ∀ s : State, Inv s → s.status.busy = true → s.agenda = [] →
  ∃ k, k ≤ s.cur.n - s.cur.done.length + 1 ∧
    ((∃ t, RunsTo k s t ∧ t.status.busy = false ∧
      (t.status.done = true ∨ (t.status.error = true ∧ t.status.errcode = .bus))) ∨
     Sys2Proof.core.run k s = .fault Fault.unwrittenRead)

/-- LUT determinism, U8 (R130): an undisturbed APPLY_LUT.U8 on memory where every access completes leaves the looked-up byte
of every sample in the destination, in whatever order the elements are done, changes no other byte of memory, and keeps
every register and array, ERROR, ERRCODE and HOVF; in place and out of place. `v` is the source region at acceptance, `o` the
looked-up bytes. -/
def Obligations.ApplyU8TransformsImage : Prop :=
  ∀ (ch : Channel) (m : BitVec 4) (par acc : Bool) (s : State) (v o : Nat → Byte),
  Inv s → s.status.busy = true → s.cur.cmd = .applyLutU8 ch m par acc → s.cur.done = [] → 0 < s.cur.n →
  s.agenda = [] → s.memAllOk →
  (∀ k < s.cur.n, s.mem.byte (s.cur.src.toNat + k) = some (v k)) →
  (∀ k < s.cur.n, (s.lut.get (v k)).lane ch = .val (o k)) →
  ∃ t, RunsTo s.cur.n s t ∧ t.status.busy = false ∧ t.status.done = true ∧ t.progress.toNat = s.cur.n ∧
    t = { s with
      mem := t.mem, cur := { s.cur with done := t.cur.done }, progress := t.progress
      status := { s.status with busy := false, done := true }
      picks := t.picks, draws := t.draws, portDirty := t.portDirty } ∧
    (∀ k < s.cur.n, t.mem.byte (s.cur.dst.toNat + k) = some (o k)) ∧
    (∀ x, x < s.cur.dst.toNat ∨ s.cur.dst.toNat + s.cur.n ≤ x → t.mem.byte x = s.mem.byte x)

/-- LUT determinism, RGBA (R130): the same of APPLY_LUT.RGBA, channel by channel, with the same frame; `o k c` is the
looked-up byte where LMASK selects channel `c`, and the pixel's own byte where it does not. -/
def Obligations.ApplyRgbaTransformsImage : Prop :=
  ∀ (ch : Channel) (m : BitVec 4) (par acc : Bool) (s : State) (v o : Nat → Channel → Byte),
  Inv s → s.status.busy = true → s.cur.cmd = .applyLutRgba ch m par acc → s.cur.done = [] → 0 < s.cur.n →
  s.agenda = [] → s.memAllOk →
  (∀ k < s.cur.n, ∀ c, s.mem.byte (s.cur.src.toNat + 4 * k + c.lane) = some (v k c)) →
  (∀ k < s.cur.n, ∀ c, m.getLsbD c.lane = true → (s.lut.get (v k c)).lane c = .val (o k c)) →
  (∀ k < s.cur.n, ∀ c, m.getLsbD c.lane = false → o k c = v k c) →
  ∃ t, RunsTo s.cur.n s t ∧ t.status.busy = false ∧ t.status.done = true ∧ t.progress.toNat = s.cur.n ∧
    t = { s with
      mem := t.mem, cur := { s.cur with done := t.cur.done }, progress := t.progress
      status := { s.status with busy := false, done := true }
      picks := t.picks, draws := t.draws, portDirty := t.portDirty } ∧
    (∀ k < s.cur.n, ∀ c : Channel, t.mem.byte (s.cur.dst.toNat + 4 * k + c.lane) = some (o k c)) ∧
    (∀ x, x < s.cur.dst.toNat ∨ s.cur.dst.toNat + 4 * s.cur.n ≤ x → t.mem.byte x = s.mem.byte x)

/-- The histogram counts (R148): an undisturbed HIST.U8 with ACC = 0, from its acceptance (every counter 0), leaves in counter
`b` the number of samples equal to `b`, does not set HOVF, changes no memory, and keeps every other register and array. -/
def Obligations.HistU8CountsImage : Prop :=
  ∀ (ch : Channel) (m : BitVec 4) (par : Bool) (s : State) (v : Nat → Byte),
  Inv s → s.status.busy = true → s.cur.cmd = .histU8 ch m par false → s.cur.done = [] → 0 < s.cur.n →
  s.agenda = [] → s.memAllOk →
  (∀ b : Byte, s.hist.get b = .val 0#32) →
  (∀ k < s.cur.n, s.mem.byte (s.cur.src.toNat + k) = some (v k)) →
  ∃ t, RunsTo s.cur.n s t ∧ t.status.busy = false ∧ t.status.done = true ∧ t.status.hovf = s.status.hovf ∧
    t = { s with
      hist := t.hist, cur := { s.cur with done := t.cur.done }, progress := t.progress
      status := { s.status with busy := false, done := true }, picks := t.picks, draws := t.draws } ∧
    (∀ b : Byte, t.hist.get b = .val (BitVec.ofNat 32 ((Finset.range s.cur.n).filter (fun k => v k = b)).card)) ∧
    t.mem = s.mem
end

