-- ==== Sys2Proof/Laws/Memory.lean ====
section
/-! SUPPORT. Memory: reading after a store or an errored store, the canonical form, and the little-endian composition. -/

namespace Sys2Proof.Machine

/-! ## One byte -/

@[simp] theorem Memory.byte_put_self (m : Memory) (x : Nat) (v : Byte) : (m.put x v).byte x = some v := by
  induction m with
  | nil => simp [Memory.put, Memory.byte]
  | cons p m ih =>
    obtain ⟨a, b⟩ := p
    simp only [Memory.put]
    split
    · simp [Memory.byte]
    · split
      · simp [Memory.byte]
      · next h => simp [Memory.byte, h, ih]

theorem Memory.byte_put_other (m : Memory) (x y : Nat) (v : Byte) (h : y ≠ x) : (m.put x v).byte y = m.byte y := by
  induction m with
  | nil => simp [Memory.put, Memory.byte, h]
  | cons p m ih =>
    obtain ⟨a, b⟩ := p
    simp only [Memory.put]
    split
    · simp [Memory.byte, h]
    · split
      · next hx => subst hx; simp [Memory.byte, h]
      · simp [Memory.byte, ih]

theorem Memory.byte_forget (m : Memory) (x y : Nat) : (m.forget x).byte y = if y = x then none else m.byte y := by
  induction m with
  | nil => simp [Memory.forget, Memory.byte]
  | cons p m ih =>
    obtain ⟨a, b⟩ := p
    by_cases ha : a = x
    · subst ha
      have e : Memory.forget ((a, b) :: m) a = Memory.forget m a := by simp [Memory.forget]
      rw [e, ih]
      split
      · rfl
      · next hy => simp [Memory.byte, hy]
    · have e : Memory.forget ((a, b) :: m) x = (a, b) :: Memory.forget m x := by simp [Memory.forget, ha]
      rw [e]
      simp only [Memory.byte, ih]
      split
      · next hy => subst hy; simp [ha]
      · rfl

/-! ## Several bytes -/

/-- After storing bytes at `x`, address `y` reads the stored byte inside the span, and what it read before outside it. -/
theorem Memory.byte_putBytes (m : Memory) (x y : Nat) (bs : List Byte) :
    (m.putBytes x bs).byte y =
      if x ≤ y ∧ y < x + bs.length then some (bs.getD (y - x) 0#8) else m.byte y := by
  induction bs generalizing m x with
  | nil => simp [Memory.putBytes, show ¬ (x ≤ y ∧ y < x) by omega]
  | cons b bs ih =>
    simp only [Memory.putBytes, ih, List.length_cons]
    by_cases hxy : y = x
    · subst hxy
      simp [Memory.byte_put_self]
    · by_cases hin : x + 1 ≤ y ∧ y < x + 1 + bs.length
      · have hy : y - x = (y - (x + 1)) + 1 := by omega
        rw [if_pos hin, if_pos (by omega), hy]
        simp
      · rw [if_neg hin, if_neg (by omega), Memory.byte_put_other _ _ _ _ hxy]

/-- After an errored store of `len` bytes at `x`, the span holds no known value and every other byte is kept (R58). -/
theorem Memory.byte_forgetBytes (m : Memory) (x y len : Nat) :
    (m.forgetBytes x len).byte y = if x ≤ y ∧ y < x + len then none else m.byte y := by
  induction len generalizing m x with
  | zero => simp [Memory.forgetBytes, show ¬ (x ≤ y ∧ y < x) by omega]
  | succ len ih =>
    simp only [Memory.forgetBytes, ih, Memory.byte_forget]
    by_cases hxy : y = x
    · subst hxy; simp
    · by_cases hin : x + 1 ≤ y ∧ y < x + 1 + len
      · rw [if_pos hin, if_pos (by omega)]
      · rw [if_neg hin, if_neg hxy, if_neg (by omega)]

/-- After forgetting addresses, they hold no known value and every other byte is kept. -/
theorem Memory.byte_forgetAll (m : Memory) (xs : List Nat) (y : Nat) :
    (m.forgetAll xs).byte y = if y ∈ xs then none else m.byte y := by
  induction m with
  | nil => simp [Memory.forgetAll, Memory.byte]
  | cons p m ih =>
    obtain ⟨a, b⟩ := p
    have e : Memory.forgetAll ((a, b) :: m) xs = if a ∈ xs then Memory.forgetAll m xs else (a, b) :: Memory.forgetAll m xs := by
      by_cases ha : a ∈ xs <;> simp [Memory.forgetAll, ha]
    rw [e]
    by_cases hy : y = a
    · subst hy
      by_cases ha : y ∈ xs
      · simp [ha, ih]
      · simp [ha, Memory.byte]
    · by_cases ha : a ∈ xs <;> simp [ha, Memory.byte, hy, ih]

/-! ## The canonical form -/

theorem Memory.mem_put {m : Memory} {x : Nat} {v : Byte} {p : Host.Cell} (h : p ∈ m.put x v) :
    p = (x, v) ∨ p ∈ m := by
  induction m with
  | nil => simpa [Memory.put] using h
  | cons q m ih =>
    obtain ⟨a, b⟩ := q
    simp only [Memory.put] at h
    split at h
    · simpa using h
    · split at h
      · rcases List.mem_cons.1 h with h | h
        · exact .inl h
        · exact .inr (List.mem_cons_of_mem _ h)
      · rcases List.mem_cons.1 h with h | h
        · exact .inr (h ▸ List.mem_cons_self)
        · exact (ih h).imp_right (List.mem_cons_of_mem _)

theorem Memory.wf_put {m : Memory} (hm : m.wf) {x : Nat} (v : Byte) (hx : x < 2 ^ 32) : (m.put x v).wf := by
  refine ⟨?_, fun p hp => (Memory.mem_put hp).elim (fun e => e ▸ hx) (hm.2 p)⟩
  have hs := hm.1
  clear hm hx
  induction m with
  | nil => simp [Memory.put]
  | cons q m ih =>
    obtain ⟨a, b⟩ := q
    have ⟨h1, h2⟩ := List.pairwise_cons.1 hs
    simp only [Memory.put]
    split
    · next hlt =>
      refine List.pairwise_cons.2 ⟨fun p hp => ?_, hs⟩
      rcases List.mem_cons.1 hp with e | hp
      · exact e ▸ hlt
      · exact Nat.lt_trans hlt (h1 p hp)
    · split
      · next _ he => subst he; exact List.pairwise_cons.2 ⟨h1, h2⟩
      · next hn he =>
        refine List.pairwise_cons.2 ⟨fun p hp => ?_, ih h2⟩
        rcases Memory.mem_put hp with e | hp
        · subst e; show a < x; omega
        · exact h1 p hp

theorem Memory.wf_forget {m : Memory} (hm : m.wf) (x : Nat) : (m.forget x).wf :=
  ⟨hm.1.filter _, fun p hp => hm.2 p (List.mem_of_mem_filter hp)⟩

theorem Memory.wf_putBytes {m : Memory} (hm : m.wf) {x : Nat} {bs : List Byte} (h : x + bs.length ≤ 2 ^ 32) :
    (m.putBytes x bs).wf := by
  induction bs generalizing m x with
  | nil => exact hm
  | cons b bs ih =>
    simp only [List.length_cons] at h
    exact ih (Memory.wf_put hm b (by omega)) (by omega)

theorem Memory.wf_forgetBytes {m : Memory} (hm : m.wf) (x len : Nat) : (m.forgetBytes x len).wf := by
  induction len generalizing m x with
  | zero => exact hm
  | succ len ih => exact ih (Memory.wf_forget hm x) _

theorem Memory.wf_forgetAll {m : Memory} (hm : m.wf) (xs : List Nat) : (m.forgetAll xs).wf :=
  ⟨hm.1.filter _, fun p hp => hm.2 p (List.mem_of_mem_filter hp)⟩

theorem Memory.wf_reset : State.reset.mem.wf := ⟨List.Pairwise.nil, fun _ h => nomatch h⟩

/-! ## Little-endian values (R12, R54) -/

@[simp] theorem leBytes_length (len v : Nat) : (leBytes len v).length = len := by
  induction len generalizing v with
  | zero => rfl
  | succ len ih => simp [leBytes, ih]

@[simp] theorem load_length (m : Memory) (d x len : Nat) : (m.load d x len).length = len := by
  induction len generalizing d x with
  | zero => rfl
  | succ len ih => simp [Memory.load, ih]

/-- Composing the bytes of a value gives it back. -/
theorem leNat_leBytes (len v : Nat) : leNat (leBytes len v) = v % 256 ^ len := by
  induction len generalizing v with
  | zero => simp [leBytes, leNat, Nat.mod_one]
  | succ len ih =>
    have e : 256 ^ (len + 1) = 256 * 256 ^ len := Nat.pow_succ'
    rw [leBytes, leNat, ih, BitVec.toNat_ofNat, e, Nat.mod_mul]

theorem leNat_lt (bs : List Byte) : leNat bs < 256 ^ bs.length := by
  induction bs with
  | nil => simp [leNat]
  | cons b bs ih =>
    have := b.isLt
    simp only [leNat, List.length_cons, Nat.pow_succ']
    omega

/-- A load of bytes whose values are known gives them, with no draw used. -/
theorem load_known (m : Memory) (d x : Nat) (f : Nat → Byte) (len : Nat)
    (h : ∀ k < len, m.byte (x + k) = some (f k)) : m.load d x len = (List.range len).map f := by
  induction len generalizing d x f with
  | zero => rfl
  | succ len ih =>
    have h0 := h 0 (Nat.succ_pos _)
    have hs : ∀ k < len, m.byte (x + 1 + k) = some (f (k + 1)) := fun k hk => by
      have := h (k + 1) (by omega)
      rwa [show x + (k + 1) = x + 1 + k by omega] at this
    simp only [Memory.load, ih (d + 1) (x + 1) (fun k => f (k + 1)) hs, List.range_succ_eq_map, List.map_cons, List.map_map]
    simp only [Nat.add_zero] at h0
    rw [h0]; rfl

/-! ## Loads of other agents (R218) -/

theorem inRunningDst_iff (a : Nat) (s : State) : s.inRunningDst a = true ↔
    s.status.busy = true ∧ s.cur.dst.toNat ≤ a ∧ a < s.cur.dst.toNat + s.cur.cmd.dstBytes * s.cur.n := by
  have e : s.cur.dstRegion = { base := s.cur.dst.toNat, size := s.cur.cmd.dstBytes * s.cur.n } := rfl
  simp only [State.inRunningDst, e, Region.holds, Bool.and_eq_true, decide_eq_true_eq]

/-- When a load waits for maintenance: the platform is not coherent, and it touches a byte the block stored that is no byte of
the running command's destination. -/
theorem staleForHost_iff (addr len : Nat) (s : State) : s.staleForHost addr len = true ↔
    s.platform.coherent = false ∧ ∃ a ∈ s.portDirty, (addr ≤ a ∧ a < addr + len) ∧ ¬ s.inRunningDst a = true := by
  simp [State.staleForHost, Region.holds]

@[simp] theorem hostLoad_length (a len : Nat) (s : State) : (s.hostLoad a len).length = len := by simp [State.hostLoad]

/-- A byte the load sees with a known value is given as it is. -/
theorem hostLoad_getD {a len j : Nat} {s : State} {b : Byte} (hj : j < len) (h : s.hostByte a (a + j) = some b) :
    (s.hostLoad a len).getD j 0#8 = b := by
  simp [State.hostLoad, List.getD, hj, h]

/-- On a coherent platform every load sees memory itself. -/
theorem hostByte_coherent {s : State} (h : s.platform.coherent = true) (a x : Nat) : s.hostByte a x = s.mem.byte x := by
  simp [State.hostByte, State.seesOld, h]

/-- Where no store of the block waits for maintenance, every load sees memory itself. -/
theorem hostByte_clean {s : State} {x : Nat} (h : x ∉ s.portDirty) (a : Nat) : s.hostByte a x = s.mem.byte x := by
  simp [State.hostByte, State.seesOld, h]

end Sys2Proof.Machine
end

