-- ==== Sys2Proof/Laws/State.lean ====
section
/-! SUPPORT. What each named update of State does to each field, true by unfolding once, so that no later proof unfolds a
record update. -/

namespace Sys2Proof.Machine

/-! ### State.recordError -/

@[simp] theorem recordError_status (e : ErrCode) (s : State) : (s.recordError e).status = s.status.withError e := rfl
@[simp] theorem recordError_irqEn (e : ErrCode) (s : State) : (s.recordError e).irqEn = s.irqEn := rfl
@[simp] theorem recordError_lastCmd (e : ErrCode) (s : State) : (s.recordError e).lastCmd = s.lastCmd := rfl
@[simp] theorem recordError_srcAddr (e : ErrCode) (s : State) : (s.recordError e).srcAddr = s.srcAddr := rfl
@[simp] theorem recordError_dstAddr (e : ErrCode) (s : State) : (s.recordError e).dstAddr = s.dstAddr := rfl
@[simp] theorem recordError_width (e : ErrCode) (s : State) : (s.recordError e).width = s.width := rfl
@[simp] theorem recordError_height (e : ErrCode) (s : State) : (s.recordError e).height = s.height := rfl
@[simp] theorem recordError_lutAddr (e : ErrCode) (s : State) : (s.recordError e).lutAddr = s.lutAddr := rfl
@[simp] theorem recordError_progress (e : ErrCode) (s : State) : (s.recordError e).progress = s.progress := rfl
@[simp] theorem recordError_satInLo (e : ErrCode) (s : State) : (s.recordError e).satInLo = s.satInLo := rfl
@[simp] theorem recordError_satInHi (e : ErrCode) (s : State) : (s.recordError e).satInHi = s.satInHi := rfl
@[simp] theorem recordError_lut (e : ErrCode) (s : State) : (s.recordError e).lut = s.lut := rfl
@[simp] theorem recordError_hist (e : ErrCode) (s : State) : (s.recordError e).hist = s.hist := rfl
@[simp] theorem recordError_cdf (e : ErrCode) (s : State) : (s.recordError e).cdf = s.cdf := rfl
@[simp] theorem recordError_cur (e : ErrCode) (s : State) : (s.recordError e).cur = s.cur := rfl
@[simp] theorem recordError_mem (e : ErrCode) (s : State) : (s.recordError e).mem = s.mem := rfl
@[simp] theorem recordError_platform (e : ErrCode) (s : State) : (s.recordError e).platform = s.platform := rfl
@[simp] theorem recordError_agenda (e : ErrCode) (s : State) : (s.recordError e).agenda = s.agenda := rfl
@[simp] theorem recordError_replies (e : ErrCode) (s : State) : (s.recordError e).replies = s.replies := rfl
@[simp] theorem recordError_picks (e : ErrCode) (s : State) : (s.recordError e).picks = s.picks := rfl
@[simp] theorem recordError_draws (e : ErrCode) (s : State) : (s.recordError e).draws = s.draws := rfl
@[simp] theorem recordError_hostDirty (e : ErrCode) (s : State) : (s.recordError e).hostDirty = s.hostDirty := rfl
@[simp] theorem recordError_portDirty (e : ErrCode) (s : State) : (s.recordError e).portDirty = s.portDirty := rfl
@[simp] theorem recordError_hostView (e : ErrCode) (s : State) : (s.recordError e).hostView = s.hostView := rfl

/-! ### State.reject -/

@[simp] theorem reject_status (e : ErrCode) (s : State) : (s.reject e).status = s.status.withError e := rfl
@[simp] theorem reject_irqEn (e : ErrCode) (s : State) : (s.reject e).irqEn = s.irqEn := rfl
@[simp] theorem reject_lastCmd (e : ErrCode) (s : State) : (s.reject e).lastCmd = s.lastCmd := rfl
@[simp] theorem reject_srcAddr (e : ErrCode) (s : State) : (s.reject e).srcAddr = s.srcAddr := rfl
@[simp] theorem reject_dstAddr (e : ErrCode) (s : State) : (s.reject e).dstAddr = s.dstAddr := rfl
@[simp] theorem reject_width (e : ErrCode) (s : State) : (s.reject e).width = s.width := rfl
@[simp] theorem reject_height (e : ErrCode) (s : State) : (s.reject e).height = s.height := rfl
@[simp] theorem reject_lutAddr (e : ErrCode) (s : State) : (s.reject e).lutAddr = s.lutAddr := rfl
@[simp] theorem reject_progress (e : ErrCode) (s : State) : (s.reject e).progress = s.progress := rfl
@[simp] theorem reject_satInLo (e : ErrCode) (s : State) : (s.reject e).satInLo = s.satInLo := rfl
@[simp] theorem reject_satInHi (e : ErrCode) (s : State) : (s.reject e).satInHi = s.satInHi := rfl
@[simp] theorem reject_lut (e : ErrCode) (s : State) : (s.reject e).lut = s.lut := rfl
@[simp] theorem reject_hist (e : ErrCode) (s : State) : (s.reject e).hist = s.hist := rfl
@[simp] theorem reject_cdf (e : ErrCode) (s : State) : (s.reject e).cdf = s.cdf := rfl
@[simp] theorem reject_cur (e : ErrCode) (s : State) : (s.reject e).cur = s.cur := rfl
@[simp] theorem reject_mem (e : ErrCode) (s : State) : (s.reject e).mem = s.mem := rfl
@[simp] theorem reject_platform (e : ErrCode) (s : State) : (s.reject e).platform = s.platform := rfl
@[simp] theorem reject_agenda (e : ErrCode) (s : State) : (s.reject e).agenda = s.agenda := rfl
@[simp] theorem reject_replies (e : ErrCode) (s : State) : (s.reject e).replies = s.replies := rfl
@[simp] theorem reject_picks (e : ErrCode) (s : State) : (s.reject e).picks = s.picks := rfl
@[simp] theorem reject_draws (e : ErrCode) (s : State) : (s.reject e).draws = s.draws := rfl
@[simp] theorem reject_hostDirty (e : ErrCode) (s : State) : (s.reject e).hostDirty = s.hostDirty := rfl
@[simp] theorem reject_portDirty (e : ErrCode) (s : State) : (s.reject e).portDirty = s.portDirty := rfl
@[simp] theorem reject_hostView (e : ErrCode) (s : State) : (s.reject e).hostView = s.hostView := rfl

/-! ### State.abort -/

@[simp] theorem abort_status (s : State) : (s.abort).status = s.status.aborted := rfl
@[simp] theorem abort_irqEn (s : State) : (s.abort).irqEn = s.irqEn := rfl
@[simp] theorem abort_lastCmd (s : State) : (s.abort).lastCmd = s.lastCmd := rfl
@[simp] theorem abort_srcAddr (s : State) : (s.abort).srcAddr = s.srcAddr := rfl
@[simp] theorem abort_dstAddr (s : State) : (s.abort).dstAddr = s.dstAddr := rfl
@[simp] theorem abort_width (s : State) : (s.abort).width = s.width := rfl
@[simp] theorem abort_height (s : State) : (s.abort).height = s.height := rfl
@[simp] theorem abort_lutAddr (s : State) : (s.abort).lutAddr = s.lutAddr := rfl
@[simp] theorem abort_progress (s : State) : (s.abort).progress = s.progress := rfl
@[simp] theorem abort_satInLo (s : State) : (s.abort).satInLo = s.satInLo := rfl
@[simp] theorem abort_satInHi (s : State) : (s.abort).satInHi = s.satInHi := rfl
@[simp] theorem abort_lut (s : State) : (s.abort).lut = s.lut := rfl
@[simp] theorem abort_hist (s : State) : (s.abort).hist = s.hist := rfl
@[simp] theorem abort_cdf (s : State) : (s.abort).cdf = s.cdf := rfl
@[simp] theorem abort_cur (s : State) : (s.abort).cur = s.cur := rfl
@[simp] theorem abort_mem (s : State) : (s.abort).mem = s.mem := rfl
@[simp] theorem abort_platform (s : State) : (s.abort).platform = s.platform := rfl
@[simp] theorem abort_agenda (s : State) : (s.abort).agenda = s.agenda := rfl
@[simp] theorem abort_replies (s : State) : (s.abort).replies = s.replies := rfl
@[simp] theorem abort_picks (s : State) : (s.abort).picks = s.picks := rfl
@[simp] theorem abort_draws (s : State) : (s.abort).draws = s.draws := rfl
@[simp] theorem abort_hostDirty (s : State) : (s.abort).hostDirty = s.hostDirty := rfl
@[simp] theorem abort_portDirty (s : State) : (s.abort).portDirty = s.portDirty := rfl
@[simp] theorem abort_hostView (s : State) : (s.abort).hostView = s.hostView := rfl

/-! ### State.clearStatus -/

@[simp] theorem clearStatus_status (v : Word) (s : State) : (s.clearStatus v).status = s.status.cleared v := rfl
@[simp] theorem clearStatus_irqEn (v : Word) (s : State) : (s.clearStatus v).irqEn = s.irqEn := rfl
@[simp] theorem clearStatus_lastCmd (v : Word) (s : State) : (s.clearStatus v).lastCmd = s.lastCmd := rfl
@[simp] theorem clearStatus_srcAddr (v : Word) (s : State) : (s.clearStatus v).srcAddr = s.srcAddr := rfl
@[simp] theorem clearStatus_dstAddr (v : Word) (s : State) : (s.clearStatus v).dstAddr = s.dstAddr := rfl
@[simp] theorem clearStatus_width (v : Word) (s : State) : (s.clearStatus v).width = s.width := rfl
@[simp] theorem clearStatus_height (v : Word) (s : State) : (s.clearStatus v).height = s.height := rfl
@[simp] theorem clearStatus_lutAddr (v : Word) (s : State) : (s.clearStatus v).lutAddr = s.lutAddr := rfl
@[simp] theorem clearStatus_progress (v : Word) (s : State) : (s.clearStatus v).progress = s.progress := rfl
@[simp] theorem clearStatus_satInLo (v : Word) (s : State) : (s.clearStatus v).satInLo = s.satInLo := rfl
@[simp] theorem clearStatus_satInHi (v : Word) (s : State) : (s.clearStatus v).satInHi = s.satInHi := rfl
@[simp] theorem clearStatus_lut (v : Word) (s : State) : (s.clearStatus v).lut = s.lut := rfl
@[simp] theorem clearStatus_hist (v : Word) (s : State) : (s.clearStatus v).hist = s.hist := rfl
@[simp] theorem clearStatus_cdf (v : Word) (s : State) : (s.clearStatus v).cdf = s.cdf := rfl
@[simp] theorem clearStatus_cur (v : Word) (s : State) : (s.clearStatus v).cur = s.cur := rfl
@[simp] theorem clearStatus_mem (v : Word) (s : State) : (s.clearStatus v).mem = s.mem := rfl
@[simp] theorem clearStatus_platform (v : Word) (s : State) : (s.clearStatus v).platform = s.platform := rfl
@[simp] theorem clearStatus_agenda (v : Word) (s : State) : (s.clearStatus v).agenda = s.agenda := rfl
@[simp] theorem clearStatus_replies (v : Word) (s : State) : (s.clearStatus v).replies = s.replies := rfl
@[simp] theorem clearStatus_picks (v : Word) (s : State) : (s.clearStatus v).picks = s.picks := rfl
@[simp] theorem clearStatus_draws (v : Word) (s : State) : (s.clearStatus v).draws = s.draws := rfl
@[simp] theorem clearStatus_hostDirty (v : Word) (s : State) : (s.clearStatus v).hostDirty = s.hostDirty := rfl
@[simp] theorem clearStatus_portDirty (v : Word) (s : State) : (s.clearStatus v).portDirty = s.portDirty := rfl
@[simp] theorem clearStatus_hostView (v : Word) (s : State) : (s.clearStatus v).hostView = s.hostView := rfl

/-! ### State.complete -/

@[simp] theorem complete_status (s : State) : (s.complete).status = s.status.completed := rfl
@[simp] theorem complete_irqEn (s : State) : (s.complete).irqEn = s.irqEn := rfl
@[simp] theorem complete_lastCmd (s : State) : (s.complete).lastCmd = s.lastCmd := rfl
@[simp] theorem complete_srcAddr (s : State) : (s.complete).srcAddr = s.srcAddr := rfl
@[simp] theorem complete_dstAddr (s : State) : (s.complete).dstAddr = s.dstAddr := rfl
@[simp] theorem complete_width (s : State) : (s.complete).width = s.width := rfl
@[simp] theorem complete_height (s : State) : (s.complete).height = s.height := rfl
@[simp] theorem complete_lutAddr (s : State) : (s.complete).lutAddr = s.lutAddr := rfl
@[simp] theorem complete_progress (s : State) : (s.complete).progress = s.progress := rfl
@[simp] theorem complete_satInLo (s : State) : (s.complete).satInLo = s.satInLo := rfl
@[simp] theorem complete_satInHi (s : State) : (s.complete).satInHi = s.satInHi := rfl
@[simp] theorem complete_lut (s : State) : (s.complete).lut = s.lut := rfl
@[simp] theorem complete_hist (s : State) : (s.complete).hist = s.hist := rfl
@[simp] theorem complete_cdf (s : State) : (s.complete).cdf = s.cdf := rfl
@[simp] theorem complete_cur (s : State) : (s.complete).cur = s.cur := rfl
@[simp] theorem complete_mem (s : State) : (s.complete).mem = s.mem := rfl
@[simp] theorem complete_platform (s : State) : (s.complete).platform = s.platform := rfl
@[simp] theorem complete_agenda (s : State) : (s.complete).agenda = s.agenda := rfl
@[simp] theorem complete_replies (s : State) : (s.complete).replies = s.replies := rfl
@[simp] theorem complete_picks (s : State) : (s.complete).picks = s.picks := rfl
@[simp] theorem complete_draws (s : State) : (s.complete).draws = s.draws := rfl
@[simp] theorem complete_hostDirty (s : State) : (s.complete).hostDirty = s.hostDirty := rfl
@[simp] theorem complete_portDirty (s : State) : (s.complete).portDirty = s.portDirty := rfl
@[simp] theorem complete_hostView (s : State) : (s.complete).hostView = s.hostView := rfl

/-! ### State.accept -/

@[simp] theorem accept_status (i : Instr) (s : State) : (s.accept i).status = s.status.accepted := rfl
@[simp] theorem accept_irqEn (i : Instr) (s : State) : (s.accept i).irqEn = s.irqEn := rfl
@[simp] theorem accept_lastCmd (i : Instr) (s : State) : (s.accept i).lastCmd = encode i := rfl
@[simp] theorem accept_srcAddr (i : Instr) (s : State) : (s.accept i).srcAddr = s.srcAddr := rfl
@[simp] theorem accept_dstAddr (i : Instr) (s : State) : (s.accept i).dstAddr = s.dstAddr := rfl
@[simp] theorem accept_width (i : Instr) (s : State) : (s.accept i).width = s.width := rfl
@[simp] theorem accept_height (i : Instr) (s : State) : (s.accept i).height = s.height := rfl
@[simp] theorem accept_lutAddr (i : Instr) (s : State) : (s.accept i).lutAddr = s.lutAddr := rfl
@[simp] theorem accept_progress (i : Instr) (s : State) : (s.accept i).progress = 0#32 := rfl
@[simp] theorem accept_satInLo (i : Instr) (s : State) : (s.accept i).satInLo = s.satInLo := rfl
@[simp] theorem accept_satInHi (i : Instr) (s : State) : (s.accept i).satInHi = s.satInHi := rfl
@[simp] theorem accept_lut (i : Instr) (s : State) : (s.accept i).lut = s.lut := rfl
@[simp] theorem accept_hist (i : Instr) (s : State) : (s.accept i).hist = if clearsHist i then zeroHist else s.hist := rfl
@[simp] theorem accept_cdf (i : Instr) (s : State) : (s.accept i).cdf = s.cdf := rfl
@[simp] theorem accept_cur (i : Instr) (s : State) : (s.accept i).cur = 
    { cmd := i, src := s.srcAddr, dst := s.dstAddr, lut := s.lutAddr, n := i.count s.width s.height, done := [] } := rfl
@[simp] theorem accept_mem (i : Instr) (s : State) : (s.accept i).mem = s.mem := rfl
@[simp] theorem accept_platform (i : Instr) (s : State) : (s.accept i).platform = s.platform := rfl
@[simp] theorem accept_agenda (i : Instr) (s : State) : (s.accept i).agenda = s.agenda := rfl
@[simp] theorem accept_replies (i : Instr) (s : State) : (s.accept i).replies = s.replies := rfl
@[simp] theorem accept_picks (i : Instr) (s : State) : (s.accept i).picks = s.picks := rfl
@[simp] theorem accept_draws (i : Instr) (s : State) : (s.accept i).draws = s.draws := rfl
@[simp] theorem accept_hostDirty (i : Instr) (s : State) : (s.accept i).hostDirty = s.hostDirty := rfl
@[simp] theorem accept_portDirty (i : Instr) (s : State) : (s.accept i).portDirty = s.portDirty := rfl
@[simp] theorem accept_hostView (i : Instr) (s : State) : (s.accept i).hostView = if s.platform.coherent then s.hostView else s.mem.forgetAll s.portDirty := rfl

/-! ### State.finish -/

@[simp] theorem finish_status (k : Nat) (s : State) : (s.finish k).status = s.status := rfl
@[simp] theorem finish_irqEn (k : Nat) (s : State) : (s.finish k).irqEn = s.irqEn := rfl
@[simp] theorem finish_lastCmd (k : Nat) (s : State) : (s.finish k).lastCmd = s.lastCmd := rfl
@[simp] theorem finish_srcAddr (k : Nat) (s : State) : (s.finish k).srcAddr = s.srcAddr := rfl
@[simp] theorem finish_dstAddr (k : Nat) (s : State) : (s.finish k).dstAddr = s.dstAddr := rfl
@[simp] theorem finish_width (k : Nat) (s : State) : (s.finish k).width = s.width := rfl
@[simp] theorem finish_height (k : Nat) (s : State) : (s.finish k).height = s.height := rfl
@[simp] theorem finish_lutAddr (k : Nat) (s : State) : (s.finish k).lutAddr = s.lutAddr := rfl
@[simp] theorem finish_progress (k : Nat) (s : State) : (s.finish k).progress = s.progress + 1#32 := rfl
@[simp] theorem finish_satInLo (k : Nat) (s : State) : (s.finish k).satInLo = s.satInLo := rfl
@[simp] theorem finish_satInHi (k : Nat) (s : State) : (s.finish k).satInHi = s.satInHi := rfl
@[simp] theorem finish_lut (k : Nat) (s : State) : (s.finish k).lut = s.lut := rfl
@[simp] theorem finish_hist (k : Nat) (s : State) : (s.finish k).hist = s.hist := rfl
@[simp] theorem finish_cdf (k : Nat) (s : State) : (s.finish k).cdf = s.cdf := rfl
@[simp] theorem finish_cur (k : Nat) (s : State) : (s.finish k).cur = { s.cur with done := insertDone k s.cur.done } := rfl
@[simp] theorem finish_mem (k : Nat) (s : State) : (s.finish k).mem = s.mem := rfl
@[simp] theorem finish_platform (k : Nat) (s : State) : (s.finish k).platform = s.platform := rfl
@[simp] theorem finish_agenda (k : Nat) (s : State) : (s.finish k).agenda = s.agenda := rfl
@[simp] theorem finish_replies (k : Nat) (s : State) : (s.finish k).replies = s.replies := rfl
@[simp] theorem finish_picks (k : Nat) (s : State) : (s.finish k).picks = s.picks := rfl
@[simp] theorem finish_draws (k : Nat) (s : State) : (s.finish k).draws = s.draws := rfl
@[simp] theorem finish_hostDirty (k : Nat) (s : State) : (s.finish k).hostDirty = s.hostDirty := rfl
@[simp] theorem finish_portDirty (k : Nat) (s : State) : (s.finish k).portDirty = s.portDirty := rfl
@[simp] theorem finish_hostView (k : Nat) (s : State) : (s.finish k).hostView = s.hostView := rfl

/-! ### State.wholeDone -/

@[simp] theorem wholeDone_status (s : State) : (s.wholeDone).status = s.status.completed := rfl
@[simp] theorem wholeDone_irqEn (s : State) : (s.wholeDone).irqEn = s.irqEn := rfl
@[simp] theorem wholeDone_lastCmd (s : State) : (s.wholeDone).lastCmd = s.lastCmd := rfl
@[simp] theorem wholeDone_srcAddr (s : State) : (s.wholeDone).srcAddr = s.srcAddr := rfl
@[simp] theorem wholeDone_dstAddr (s : State) : (s.wholeDone).dstAddr = s.dstAddr := rfl
@[simp] theorem wholeDone_width (s : State) : (s.wholeDone).width = s.width := rfl
@[simp] theorem wholeDone_height (s : State) : (s.wholeDone).height = s.height := rfl
@[simp] theorem wholeDone_lutAddr (s : State) : (s.wholeDone).lutAddr = s.lutAddr := rfl
@[simp] theorem wholeDone_progress (s : State) : (s.wholeDone).progress = 256#32 := rfl
@[simp] theorem wholeDone_satInLo (s : State) : (s.wholeDone).satInLo = s.satInLo := rfl
@[simp] theorem wholeDone_satInHi (s : State) : (s.wholeDone).satInHi = s.satInHi := rfl
@[simp] theorem wholeDone_lut (s : State) : (s.wholeDone).lut = s.lut := rfl
@[simp] theorem wholeDone_hist (s : State) : (s.wholeDone).hist = s.hist := rfl
@[simp] theorem wholeDone_cdf (s : State) : (s.wholeDone).cdf = s.cdf := rfl
@[simp] theorem wholeDone_cur (s : State) : (s.wholeDone).cur = { s.cur with done := span 0 256 } := rfl
@[simp] theorem wholeDone_mem (s : State) : (s.wholeDone).mem = s.mem := rfl
@[simp] theorem wholeDone_platform (s : State) : (s.wholeDone).platform = s.platform := rfl
@[simp] theorem wholeDone_agenda (s : State) : (s.wholeDone).agenda = s.agenda := rfl
@[simp] theorem wholeDone_replies (s : State) : (s.wholeDone).replies = s.replies := rfl
@[simp] theorem wholeDone_picks (s : State) : (s.wholeDone).picks = s.picks := rfl
@[simp] theorem wholeDone_draws (s : State) : (s.wholeDone).draws = s.draws := rfl
@[simp] theorem wholeDone_hostDirty (s : State) : (s.wholeDone).hostDirty = s.hostDirty := rfl
@[simp] theorem wholeDone_portDirty (s : State) : (s.wholeDone).portDirty = s.portDirty := rfl
@[simp] theorem wholeDone_hostView (s : State) : (s.wholeDone).hostView = s.hostView := rfl

/-! ### State.answer -/

@[simp] theorem answer_status (r : Reply) (s : State) : (s.answer r).status = s.status := rfl
@[simp] theorem answer_irqEn (r : Reply) (s : State) : (s.answer r).irqEn = s.irqEn := rfl
@[simp] theorem answer_lastCmd (r : Reply) (s : State) : (s.answer r).lastCmd = s.lastCmd := rfl
@[simp] theorem answer_srcAddr (r : Reply) (s : State) : (s.answer r).srcAddr = s.srcAddr := rfl
@[simp] theorem answer_dstAddr (r : Reply) (s : State) : (s.answer r).dstAddr = s.dstAddr := rfl
@[simp] theorem answer_width (r : Reply) (s : State) : (s.answer r).width = s.width := rfl
@[simp] theorem answer_height (r : Reply) (s : State) : (s.answer r).height = s.height := rfl
@[simp] theorem answer_lutAddr (r : Reply) (s : State) : (s.answer r).lutAddr = s.lutAddr := rfl
@[simp] theorem answer_progress (r : Reply) (s : State) : (s.answer r).progress = s.progress := rfl
@[simp] theorem answer_satInLo (r : Reply) (s : State) : (s.answer r).satInLo = s.satInLo := rfl
@[simp] theorem answer_satInHi (r : Reply) (s : State) : (s.answer r).satInHi = s.satInHi := rfl
@[simp] theorem answer_lut (r : Reply) (s : State) : (s.answer r).lut = s.lut := rfl
@[simp] theorem answer_hist (r : Reply) (s : State) : (s.answer r).hist = s.hist := rfl
@[simp] theorem answer_cdf (r : Reply) (s : State) : (s.answer r).cdf = s.cdf := rfl
@[simp] theorem answer_cur (r : Reply) (s : State) : (s.answer r).cur = s.cur := rfl
@[simp] theorem answer_mem (r : Reply) (s : State) : (s.answer r).mem = s.mem := rfl
@[simp] theorem answer_platform (r : Reply) (s : State) : (s.answer r).platform = s.platform := rfl
@[simp] theorem answer_agenda (r : Reply) (s : State) : (s.answer r).agenda = s.agenda := rfl
@[simp] theorem answer_replies (r : Reply) (s : State) : (s.answer r).replies = r :: s.replies := rfl
@[simp] theorem answer_picks (r : Reply) (s : State) : (s.answer r).picks = s.picks := rfl
@[simp] theorem answer_draws (r : Reply) (s : State) : (s.answer r).draws = s.draws := rfl
@[simp] theorem answer_hostDirty (r : Reply) (s : State) : (s.answer r).hostDirty = s.hostDirty := rfl
@[simp] theorem answer_portDirty (r : Reply) (s : State) : (s.answer r).portDirty = s.portDirty := rfl
@[simp] theorem answer_hostView (r : Reply) (s : State) : (s.answer r).hostView = s.hostView := rfl

/-! ### State.maintained -/

@[simp] theorem maintained_status (s : State) : (s.maintained).status = s.status := rfl
@[simp] theorem maintained_irqEn (s : State) : (s.maintained).irqEn = s.irqEn := rfl
@[simp] theorem maintained_lastCmd (s : State) : (s.maintained).lastCmd = s.lastCmd := rfl
@[simp] theorem maintained_srcAddr (s : State) : (s.maintained).srcAddr = s.srcAddr := rfl
@[simp] theorem maintained_dstAddr (s : State) : (s.maintained).dstAddr = s.dstAddr := rfl
@[simp] theorem maintained_width (s : State) : (s.maintained).width = s.width := rfl
@[simp] theorem maintained_height (s : State) : (s.maintained).height = s.height := rfl
@[simp] theorem maintained_lutAddr (s : State) : (s.maintained).lutAddr = s.lutAddr := rfl
@[simp] theorem maintained_progress (s : State) : (s.maintained).progress = s.progress := rfl
@[simp] theorem maintained_satInLo (s : State) : (s.maintained).satInLo = s.satInLo := rfl
@[simp] theorem maintained_satInHi (s : State) : (s.maintained).satInHi = s.satInHi := rfl
@[simp] theorem maintained_lut (s : State) : (s.maintained).lut = s.lut := rfl
@[simp] theorem maintained_hist (s : State) : (s.maintained).hist = s.hist := rfl
@[simp] theorem maintained_cdf (s : State) : (s.maintained).cdf = s.cdf := rfl
@[simp] theorem maintained_cur (s : State) : (s.maintained).cur = s.cur := rfl
@[simp] theorem maintained_mem (s : State) : (s.maintained).mem = s.mem := rfl
@[simp] theorem maintained_platform (s : State) : (s.maintained).platform = s.platform := rfl
@[simp] theorem maintained_agenda (s : State) : (s.maintained).agenda = s.agenda := rfl
@[simp] theorem maintained_replies (s : State) : (s.maintained).replies = s.replies := rfl
@[simp] theorem maintained_picks (s : State) : (s.maintained).picks = s.picks := rfl
@[simp] theorem maintained_draws (s : State) : (s.maintained).draws = s.draws := rfl
@[simp] theorem maintained_hostDirty (s : State) : (s.maintained).hostDirty = [] := rfl
@[simp] theorem maintained_portDirty (s : State) : (s.maintained).portDirty = [] := rfl
@[simp] theorem maintained_hostView (s : State) : (s.maintained).hostView = s.mem := rfl

/-! ### State.settle -/

@[simp] theorem settle_status (s : State) : (s.settle).status = if s.cur.done.length = s.cur.n then s.status.completed else s.status := by unfold State.settle; split <;> rfl
@[simp] theorem settle_irqEn (s : State) : (s.settle).irqEn = s.irqEn := by unfold State.settle; split <;> rfl
@[simp] theorem settle_lastCmd (s : State) : (s.settle).lastCmd = s.lastCmd := by unfold State.settle; split <;> rfl
@[simp] theorem settle_srcAddr (s : State) : (s.settle).srcAddr = s.srcAddr := by unfold State.settle; split <;> rfl
@[simp] theorem settle_dstAddr (s : State) : (s.settle).dstAddr = s.dstAddr := by unfold State.settle; split <;> rfl
@[simp] theorem settle_width (s : State) : (s.settle).width = s.width := by unfold State.settle; split <;> rfl
@[simp] theorem settle_height (s : State) : (s.settle).height = s.height := by unfold State.settle; split <;> rfl
@[simp] theorem settle_lutAddr (s : State) : (s.settle).lutAddr = s.lutAddr := by unfold State.settle; split <;> rfl
@[simp] theorem settle_progress (s : State) : (s.settle).progress = s.progress := by unfold State.settle; split <;> rfl
@[simp] theorem settle_satInLo (s : State) : (s.settle).satInLo = s.satInLo := by unfold State.settle; split <;> rfl
@[simp] theorem settle_satInHi (s : State) : (s.settle).satInHi = s.satInHi := by unfold State.settle; split <;> rfl
@[simp] theorem settle_lut (s : State) : (s.settle).lut = s.lut := by unfold State.settle; split <;> rfl
@[simp] theorem settle_hist (s : State) : (s.settle).hist = s.hist := by unfold State.settle; split <;> rfl
@[simp] theorem settle_cdf (s : State) : (s.settle).cdf = s.cdf := by unfold State.settle; split <;> rfl
@[simp] theorem settle_cur (s : State) : (s.settle).cur = s.cur := by unfold State.settle; split <;> rfl
@[simp] theorem settle_mem (s : State) : (s.settle).mem = s.mem := by unfold State.settle; split <;> rfl
@[simp] theorem settle_platform (s : State) : (s.settle).platform = s.platform := by unfold State.settle; split <;> rfl
@[simp] theorem settle_agenda (s : State) : (s.settle).agenda = s.agenda := by unfold State.settle; split <;> rfl
@[simp] theorem settle_replies (s : State) : (s.settle).replies = s.replies := by unfold State.settle; split <;> rfl
@[simp] theorem settle_picks (s : State) : (s.settle).picks = s.picks := by unfold State.settle; split <;> rfl
@[simp] theorem settle_draws (s : State) : (s.settle).draws = s.draws := by unfold State.settle; split <;> rfl
@[simp] theorem settle_hostDirty (s : State) : (s.settle).hostDirty = s.hostDirty := by unfold State.settle; split <;> rfl
@[simp] theorem settle_portDirty (s : State) : (s.settle).portDirty = s.portDirty := by unfold State.settle; split <;> rfl
@[simp] theorem settle_hostView (s : State) : (s.settle).hostView = s.hostView := by unfold State.settle; split <;> rfl

/-! ### State.dropPick -/

@[simp] theorem dropPick_status (s : State) : (s.dropPick).status = s.status := by cases h : s.picks <;> simp [State.dropPick, h]
@[simp] theorem dropPick_irqEn (s : State) : (s.dropPick).irqEn = s.irqEn := by cases h : s.picks <;> simp [State.dropPick, h]
@[simp] theorem dropPick_lastCmd (s : State) : (s.dropPick).lastCmd = s.lastCmd := by cases h : s.picks <;> simp [State.dropPick, h]
@[simp] theorem dropPick_srcAddr (s : State) : (s.dropPick).srcAddr = s.srcAddr := by cases h : s.picks <;> simp [State.dropPick, h]
@[simp] theorem dropPick_dstAddr (s : State) : (s.dropPick).dstAddr = s.dstAddr := by cases h : s.picks <;> simp [State.dropPick, h]
@[simp] theorem dropPick_width (s : State) : (s.dropPick).width = s.width := by cases h : s.picks <;> simp [State.dropPick, h]
@[simp] theorem dropPick_height (s : State) : (s.dropPick).height = s.height := by cases h : s.picks <;> simp [State.dropPick, h]
@[simp] theorem dropPick_lutAddr (s : State) : (s.dropPick).lutAddr = s.lutAddr := by cases h : s.picks <;> simp [State.dropPick, h]
@[simp] theorem dropPick_progress (s : State) : (s.dropPick).progress = s.progress := by cases h : s.picks <;> simp [State.dropPick, h]
@[simp] theorem dropPick_satInLo (s : State) : (s.dropPick).satInLo = s.satInLo := by cases h : s.picks <;> simp [State.dropPick, h]
@[simp] theorem dropPick_satInHi (s : State) : (s.dropPick).satInHi = s.satInHi := by cases h : s.picks <;> simp [State.dropPick, h]
@[simp] theorem dropPick_lut (s : State) : (s.dropPick).lut = s.lut := by cases h : s.picks <;> simp [State.dropPick, h]
@[simp] theorem dropPick_hist (s : State) : (s.dropPick).hist = s.hist := by cases h : s.picks <;> simp [State.dropPick, h]
@[simp] theorem dropPick_cdf (s : State) : (s.dropPick).cdf = s.cdf := by cases h : s.picks <;> simp [State.dropPick, h]
@[simp] theorem dropPick_cur (s : State) : (s.dropPick).cur = s.cur := by cases h : s.picks <;> simp [State.dropPick, h]
@[simp] theorem dropPick_mem (s : State) : (s.dropPick).mem = s.mem := by cases h : s.picks <;> simp [State.dropPick, h]
@[simp] theorem dropPick_platform (s : State) : (s.dropPick).platform = s.platform := by cases h : s.picks <;> simp [State.dropPick, h]
@[simp] theorem dropPick_agenda (s : State) : (s.dropPick).agenda = s.agenda := by cases h : s.picks <;> simp [State.dropPick, h]
@[simp] theorem dropPick_replies (s : State) : (s.dropPick).replies = s.replies := by cases h : s.picks <;> simp [State.dropPick, h]
@[simp] theorem dropPick_picks (s : State) : (s.dropPick).picks = s.picks.tail := by cases h : s.picks <;> simp [State.dropPick, h]
@[simp] theorem dropPick_hostDirty (s : State) : (s.dropPick).hostDirty = s.hostDirty := by cases h : s.picks <;> simp [State.dropPick, h]
@[simp] theorem dropPick_portDirty (s : State) : (s.dropPick).portDirty = s.portDirty := by cases h : s.picks <;> simp [State.dropPick, h]
@[simp] theorem dropPick_hostView (s : State) : (s.dropPick).hostView = s.hostView := by cases h : s.picks <;> simp [State.dropPick, h]

/-! ### State.markPort -/

@[simp] theorem markPort_status (a len : Nat) (s : State) : (s.markPort a len).status = s.status := by unfold State.markPort; split <;> rfl
@[simp] theorem markPort_irqEn (a len : Nat) (s : State) : (s.markPort a len).irqEn = s.irqEn := by unfold State.markPort; split <;> rfl
@[simp] theorem markPort_lastCmd (a len : Nat) (s : State) : (s.markPort a len).lastCmd = s.lastCmd := by unfold State.markPort; split <;> rfl
@[simp] theorem markPort_srcAddr (a len : Nat) (s : State) : (s.markPort a len).srcAddr = s.srcAddr := by unfold State.markPort; split <;> rfl
@[simp] theorem markPort_dstAddr (a len : Nat) (s : State) : (s.markPort a len).dstAddr = s.dstAddr := by unfold State.markPort; split <;> rfl
@[simp] theorem markPort_width (a len : Nat) (s : State) : (s.markPort a len).width = s.width := by unfold State.markPort; split <;> rfl
@[simp] theorem markPort_height (a len : Nat) (s : State) : (s.markPort a len).height = s.height := by unfold State.markPort; split <;> rfl
@[simp] theorem markPort_lutAddr (a len : Nat) (s : State) : (s.markPort a len).lutAddr = s.lutAddr := by unfold State.markPort; split <;> rfl
@[simp] theorem markPort_progress (a len : Nat) (s : State) : (s.markPort a len).progress = s.progress := by unfold State.markPort; split <;> rfl
@[simp] theorem markPort_satInLo (a len : Nat) (s : State) : (s.markPort a len).satInLo = s.satInLo := by unfold State.markPort; split <;> rfl
@[simp] theorem markPort_satInHi (a len : Nat) (s : State) : (s.markPort a len).satInHi = s.satInHi := by unfold State.markPort; split <;> rfl
@[simp] theorem markPort_lut (a len : Nat) (s : State) : (s.markPort a len).lut = s.lut := by unfold State.markPort; split <;> rfl
@[simp] theorem markPort_hist (a len : Nat) (s : State) : (s.markPort a len).hist = s.hist := by unfold State.markPort; split <;> rfl
@[simp] theorem markPort_cdf (a len : Nat) (s : State) : (s.markPort a len).cdf = s.cdf := by unfold State.markPort; split <;> rfl
@[simp] theorem markPort_cur (a len : Nat) (s : State) : (s.markPort a len).cur = s.cur := by unfold State.markPort; split <;> rfl
@[simp] theorem markPort_mem (a len : Nat) (s : State) : (s.markPort a len).mem = s.mem := by unfold State.markPort; split <;> rfl
@[simp] theorem markPort_platform (a len : Nat) (s : State) : (s.markPort a len).platform = s.platform := by unfold State.markPort; split <;> rfl
@[simp] theorem markPort_agenda (a len : Nat) (s : State) : (s.markPort a len).agenda = s.agenda := by unfold State.markPort; split <;> rfl
@[simp] theorem markPort_replies (a len : Nat) (s : State) : (s.markPort a len).replies = s.replies := by unfold State.markPort; split <;> rfl
@[simp] theorem markPort_picks (a len : Nat) (s : State) : (s.markPort a len).picks = s.picks := by unfold State.markPort; split <;> rfl
@[simp] theorem markPort_draws (a len : Nat) (s : State) : (s.markPort a len).draws = s.draws := by unfold State.markPort; split <;> rfl
@[simp] theorem markPort_hostDirty (a len : Nat) (s : State) : (s.markPort a len).hostDirty = s.hostDirty := by unfold State.markPort; split <;> rfl
@[simp] theorem markPort_portDirty (a len : Nat) (s : State) : (s.markPort a len).portDirty = if s.platform.coherent then s.portDirty else s.portDirty ++ span a len := by unfold State.markPort; split <;> rfl
@[simp] theorem markPort_hostView (a len : Nat) (s : State) : (s.markPort a len).hostView = s.hostView := by unfold State.markPort; split <;> rfl

/-! ### State.markHost -/

@[simp] theorem markHost_status (a len : Nat) (s : State) : (s.markHost a len).status = s.status := by unfold State.markHost; split <;> rfl
@[simp] theorem markHost_irqEn (a len : Nat) (s : State) : (s.markHost a len).irqEn = s.irqEn := by unfold State.markHost; split <;> rfl
@[simp] theorem markHost_lastCmd (a len : Nat) (s : State) : (s.markHost a len).lastCmd = s.lastCmd := by unfold State.markHost; split <;> rfl
@[simp] theorem markHost_srcAddr (a len : Nat) (s : State) : (s.markHost a len).srcAddr = s.srcAddr := by unfold State.markHost; split <;> rfl
@[simp] theorem markHost_dstAddr (a len : Nat) (s : State) : (s.markHost a len).dstAddr = s.dstAddr := by unfold State.markHost; split <;> rfl
@[simp] theorem markHost_width (a len : Nat) (s : State) : (s.markHost a len).width = s.width := by unfold State.markHost; split <;> rfl
@[simp] theorem markHost_height (a len : Nat) (s : State) : (s.markHost a len).height = s.height := by unfold State.markHost; split <;> rfl
@[simp] theorem markHost_lutAddr (a len : Nat) (s : State) : (s.markHost a len).lutAddr = s.lutAddr := by unfold State.markHost; split <;> rfl
@[simp] theorem markHost_progress (a len : Nat) (s : State) : (s.markHost a len).progress = s.progress := by unfold State.markHost; split <;> rfl
@[simp] theorem markHost_satInLo (a len : Nat) (s : State) : (s.markHost a len).satInLo = s.satInLo := by unfold State.markHost; split <;> rfl
@[simp] theorem markHost_satInHi (a len : Nat) (s : State) : (s.markHost a len).satInHi = s.satInHi := by unfold State.markHost; split <;> rfl
@[simp] theorem markHost_lut (a len : Nat) (s : State) : (s.markHost a len).lut = s.lut := by unfold State.markHost; split <;> rfl
@[simp] theorem markHost_hist (a len : Nat) (s : State) : (s.markHost a len).hist = s.hist := by unfold State.markHost; split <;> rfl
@[simp] theorem markHost_cdf (a len : Nat) (s : State) : (s.markHost a len).cdf = s.cdf := by unfold State.markHost; split <;> rfl
@[simp] theorem markHost_cur (a len : Nat) (s : State) : (s.markHost a len).cur = s.cur := by unfold State.markHost; split <;> rfl
@[simp] theorem markHost_mem (a len : Nat) (s : State) : (s.markHost a len).mem = s.mem := by unfold State.markHost; split <;> rfl
@[simp] theorem markHost_platform (a len : Nat) (s : State) : (s.markHost a len).platform = s.platform := by unfold State.markHost; split <;> rfl
@[simp] theorem markHost_agenda (a len : Nat) (s : State) : (s.markHost a len).agenda = s.agenda := by unfold State.markHost; split <;> rfl
@[simp] theorem markHost_replies (a len : Nat) (s : State) : (s.markHost a len).replies = s.replies := by unfold State.markHost; split <;> rfl
@[simp] theorem markHost_picks (a len : Nat) (s : State) : (s.markHost a len).picks = s.picks := by unfold State.markHost; split <;> rfl
@[simp] theorem markHost_draws (a len : Nat) (s : State) : (s.markHost a len).draws = s.draws := by unfold State.markHost; split <;> rfl
@[simp] theorem markHost_hostDirty (a len : Nat) (s : State) : (s.markHost a len).hostDirty = if s.platform.coherent then s.hostDirty else s.hostDirty ++ span a len := by unfold State.markHost; split <;> rfl
@[simp] theorem markHost_portDirty (a len : Nat) (s : State) : (s.markHost a len).portDirty = s.portDirty := by unfold State.markHost; split <;> rfl
@[simp] theorem markHost_hostView (a len : Nat) (s : State) : (s.markHost a len).hostView = s.hostView := by unfold State.markHost; split <;> rfl

/-! ### State.afterReset -/

@[simp] theorem afterReset_status (p : Option InFlight) (s : State) : (s.afterReset p).status = State.reset.status := rfl
@[simp] theorem afterReset_irqEn (p : Option InFlight) (s : State) : (s.afterReset p).irqEn = State.reset.irqEn := rfl
@[simp] theorem afterReset_lastCmd (p : Option InFlight) (s : State) : (s.afterReset p).lastCmd = State.reset.lastCmd := rfl
@[simp] theorem afterReset_srcAddr (p : Option InFlight) (s : State) : (s.afterReset p).srcAddr = State.reset.srcAddr := rfl
@[simp] theorem afterReset_dstAddr (p : Option InFlight) (s : State) : (s.afterReset p).dstAddr = State.reset.dstAddr := rfl
@[simp] theorem afterReset_width (p : Option InFlight) (s : State) : (s.afterReset p).width = State.reset.width := rfl
@[simp] theorem afterReset_height (p : Option InFlight) (s : State) : (s.afterReset p).height = State.reset.height := rfl
@[simp] theorem afterReset_lutAddr (p : Option InFlight) (s : State) : (s.afterReset p).lutAddr = State.reset.lutAddr := rfl
@[simp] theorem afterReset_progress (p : Option InFlight) (s : State) : (s.afterReset p).progress = State.reset.progress := rfl
@[simp] theorem afterReset_satInLo (p : Option InFlight) (s : State) : (s.afterReset p).satInLo = State.reset.satInLo := rfl
@[simp] theorem afterReset_satInHi (p : Option InFlight) (s : State) : (s.afterReset p).satInHi = State.reset.satInHi := rfl
@[simp] theorem afterReset_lut (p : Option InFlight) (s : State) : (s.afterReset p).lut = State.reset.lut := rfl
@[simp] theorem afterReset_hist (p : Option InFlight) (s : State) : (s.afterReset p).hist = State.reset.hist := rfl
@[simp] theorem afterReset_cdf (p : Option InFlight) (s : State) : (s.afterReset p).cdf = State.reset.cdf := rfl
@[simp] theorem afterReset_cur (p : Option InFlight) (s : State) : (s.afterReset p).cur = State.reset.cur := rfl
@[simp] theorem afterReset_mem (p : Option InFlight) (s : State) : (s.afterReset p).mem = s.memAtReset p := rfl
@[simp] theorem afterReset_platform (p : Option InFlight) (s : State) : (s.afterReset p).platform = s.platform := rfl
@[simp] theorem afterReset_agenda (p : Option InFlight) (s : State) : (s.afterReset p).agenda = s.agenda := rfl
@[simp] theorem afterReset_replies (p : Option InFlight) (s : State) : (s.afterReset p).replies = s.replies := rfl
@[simp] theorem afterReset_picks (p : Option InFlight) (s : State) : (s.afterReset p).picks = s.picks := rfl
@[simp] theorem afterReset_draws (p : Option InFlight) (s : State) : (s.afterReset p).draws = s.draws := rfl
@[simp] theorem afterReset_hostDirty (p : Option InFlight) (s : State) : (s.afterReset p).hostDirty = s.hostDirty := rfl
@[simp] theorem afterReset_portDirty (p : Option InFlight) (s : State) : (s.afterReset p).portDirty = s.portDirty := rfl
@[simp] theorem afterReset_hostView (p : Option InFlight) (s : State) : (s.afterReset p).hostView = s.hostView := rfl

end Sys2Proof.Machine
end

