-- ==== Sys2Proof/Laws/Engine.lean ====
section
/-! SUPPORT. The engine: which element is chosen (R104), the finished set, what the memory port does, and all that an element
step can come to, each said once. -/

namespace Sys2Proof.Machine

/-! ## The choice of an element -/

/-- The chosen index is not finished. -/
theorem nthLeft_not_mem {done : List Nat} (hs : done.Pairwise (· < ·)) (p : Nat) : nthLeft done p ∉ done := by
  induction done generalizing p with
  | nil => simp
  | cons d ds ih =>
    have ⟨h1, h2⟩ := List.pairwise_cons.1 hs
    simp only [nthLeft]
    split
    · next hd =>
      have hge : ∀ (l : List Nat) (q : Nat), q ≤ nthLeft l q := by
        intro l
        induction l with
        | nil => intro q; simp [nthLeft]
        | cons e l ihl => intro q; simp only [nthLeft]; split <;> [exact Nat.le_trans (Nat.le_succ q) (ihl _); exact Nat.le_refl q]
      have := hge ds (p + 1)
      simp only [List.mem_cons, not_or]
      exact ⟨by omega, ih h2 (p + 1)⟩
    · next hd =>
      simp only [List.mem_cons, not_or]
      refine ⟨by omega, fun hm => ?_⟩
      have := h1 _ hm
      omega

/-- Among the indices below `n`, place `p < n - |done|` exists. -/
theorem nthLeft_lt {done : List Nat} (hs : done.Pairwise (· < ·)) {n p : Nat} (hb : ∀ k ∈ done, k < n)
    (hp : p + done.length < n) : nthLeft done p < n := by
  induction done generalizing p with
  | nil => simpa [nthLeft] using hp
  | cons d ds ih =>
    have ⟨_, h2⟩ := List.pairwise_cons.1 hs
    simp only [nthLeft]
    simp only [List.length_cons] at hp
    split
    · exact ih h2 (fun k hk => hb k (List.mem_cons_of_mem _ hk)) (by omega)
    · next hd => have := hb d List.mem_cons_self; omega

theorem choiceOf_lt {p left : Nat} (h : 0 < left) : choiceOf p left < left := by
  unfold choiceOf
  split
  · exact h
  · exact Nat.mod_lt _ h

/-- The engine chooses an unfinished element of the command (R104: `k in [0, CUR.n) \ CUR.done`). -/
theorem choose_unfinished {c : Cur} (hs : c.done.Pairwise (· < ·)) (hb : ∀ k ∈ c.done, k < c.n)
    (hl : c.done.length < c.n) (p : Nat) : c.choose p < c.n ∧ c.choose p ∉ c.done := by
  have hc := choiceOf_lt (p := p) (left := c.n - c.done.length) (by omega)
  exact ⟨nthLeft_lt hs hb (by omega), nthLeft_not_mem hs _⟩

/-! ## The finished set -/

theorem mem_insertDone {k j : Nat} {done : List Nat} : j ∈ insertDone k done ↔ j = k ∨ j ∈ done := by
  induction done with
  | nil => simp [insertDone]
  | cons d ds ih =>
    simp only [insertDone]
    split
    · simp
    · split
      · next _ h => subst h; simp
      · simp only [List.mem_cons, ih]; tauto

theorem insertDone_rising {k : Nat} {done : List Nat} (hs : done.Pairwise (· < ·)) :
    (insertDone k done).Pairwise (· < ·) := by
  induction done with
  | nil => simp [insertDone]
  | cons d ds ih =>
    have ⟨h1, h2⟩ := List.pairwise_cons.1 hs
    simp only [insertDone]
    split
    · next h =>
      refine List.pairwise_cons.2 ⟨fun x hx => ?_, hs⟩
      rcases List.mem_cons.1 hx with e | hx
      · omega
      · have := h1 x hx; omega
    · split
      · exact hs
      · refine List.pairwise_cons.2 ⟨fun x hx => ?_, ih h2⟩
        rcases mem_insertDone.1 hx with e | hx
        · omega
        · exact h1 x hx

theorem insertDone_length {k : Nat} {done : List Nat} (hk : k ∉ done) :
    (insertDone k done).length = done.length + 1 := by
  induction done with
  | nil => rfl
  | cons d ds ih =>
    simp only [List.mem_cons, not_or] at hk
    simp only [insertDone]
    split
    · rfl
    · rw [if_neg hk.1]; simp [ih hk.2]

/-! ## The memory port -/

/-- All that a port read can come to. -/
theorem portRead_cases (s : State) (a len : Nat) :
    (s.memOk a len .read = true ∧
      s.portRead a len = some (leNat (s.mem.load s.draws a len), { s with draws := s.draws + len })) ∨
    (s.memOk a len .read = false ∧ s.portRead a len = none) := by
  unfold State.portRead
  cases h : s.memOk a len .read <;> simp

/-- All that a port write can come to. -/
theorem portWrite_cases (s : State) (a len v : Nat) :
    (s.memOk a len .write = true ∧ s.portWrite a len v =
      .ok (State.markPort a len { s with mem := s.mem.putBytes a (leBytes len v) })) ∨
    (s.memOk a len .write = false ∧ s.portWrite a len v =
      .busError (State.markPort a len { s with mem := s.mem.forgetBytes a len })) := by
  unfold State.portWrite
  cases h : s.memOk a len .write <;> simp

/-! ## The element step (R104) -/

/-- All that an element step can come to. -/
theorem elementStep_cases (elem : Nat → State → Elem) (s : State) :
    (s.cur.n ≤ s.cur.done.length ∧ elementStep elem s = .next s.complete) ∨
    (s.cur.done.length < s.cur.n ∧ ∃ t, elem s.element s.dropPick = .ok t ∧
      elementStep elem s = .next (t.finish s.element).settle) ∨
    (s.cur.done.length < s.cur.n ∧ ∃ t, elem s.element s.dropPick = .busError t ∧
      elementStep elem s = .next t.abort) ∨
    (s.cur.done.length < s.cur.n ∧ ∃ f, elem s.element s.dropPick = .stop f ∧
      elementStep elem s = .fault f) := by
  unfold elementStep
  by_cases h : s.cur.done.length < s.cur.n
  · rw [if_pos h]
    cases he : elem s.element s.dropPick <;> simp [h]
  · rw [if_neg h]
    exact .inl ⟨by omega, rfl⟩

end Sys2Proof.Machine
end

