-- ==== Sys2Proof/Laws/Tables.lean ====
section
/-! SUPPORT. The arrays: reading back a written cell, a filled array, a cleared histogram, and the lanes of a word. -/

namespace Sys2Proof.Machine

@[simp] theorem Table.get_set_self {α : Type} (t : Table α) (i : Byte) (v : α) : (t.set i v).get i = v := by
  simp [Table.get, Table.set]

theorem Table.get_set_other {α : Type} (t : Table α) (i j : Byte) (v : α) (h : j ≠ i) :
    (t.set i v).get j = t.get j := by
  have hne : i.toNat ≠ j.toNat := fun e => h (BitVec.eq_of_toNat_eq e.symm)
  simp only [Table.get, Table.set]
  exact Vector.getElem_set_ne i.isLt j.isLt hne

theorem Table.get_set {α : Type} (t : Table α) (i j : Byte) (v : α) :
    (t.set i v).get j = if j = i then v else t.get j := by
  split
  · next h => subst h; exact Table.get_set_self ..
  · next h => exact Table.get_set_other t i j v h

theorem valuesFrom_getElem {α : Type} (f : Nat → α) (n i k : Nat) (h : k < (valuesFrom f n i).length) :
    (valuesFrom f n i)[k] = f (i + k) := by
  induction n generalizing i k with
  | zero => simp [valuesFrom] at h
  | succ n ih =>
    cases k with
    | zero => simp [valuesFrom]
    | succ k => simp [valuesFrom, ih, Nat.add_comm, Nat.add_left_comm]

@[simp] theorem Table.get_fill {α : Type} (f : Byte → α) (i : Byte) : (Table.fill f).get i = f i := by
  simp [Table.fill, Table.get, valuesFrom_getElem]

@[simp] theorem get_zeroHist (i : Byte) : zeroHist.get i = .val 0#32 := by
  simp [zeroHist, Table.get]

/-- Two arrays with the same cells are equal. -/
theorem Table.ext_get {α : Type} {t u : Table α} (h : ∀ i : Byte, t.get i = u.get i) : t = u := by
  refine Vector.ext fun k hk => ?_
  have h1 := h (BitVec.ofNat 8 k)
  have h2 : (BitVec.ofNat 8 k).toNat = k := by simp; omega
  simpa [Table.get, h2] using h1

@[simp] theorem chanByte_packLanes_r (r g b a : Byte) : chanByte (packLanes r g b a) .r = r := by
  refine BitVec.eq_of_getLsbD_eq fun j hj => ?_
  simp only [chanByte, packLanes, Channel.lane, Channel.code, BitVec.getLsbD_extractLsb', BitVec.getLsbD_append]
  simp [hj]

@[simp] theorem chanByte_packLanes_g (r g b a : Byte) : chanByte (packLanes r g b a) .g = g := by
  refine BitVec.eq_of_getLsbD_eq fun j hj => ?_
  simp only [chanByte, packLanes, Channel.lane, Channel.code, BitVec.getLsbD_extractLsb', BitVec.getLsbD_append]
  simp [hj]

@[simp] theorem chanByte_packLanes_b (r g b a : Byte) : chanByte (packLanes r g b a) .b = b := by
  refine BitVec.eq_of_getLsbD_eq fun j hj => ?_
  simp only [chanByte, packLanes, Channel.lane, Channel.code, BitVec.getLsbD_extractLsb', BitVec.getLsbD_append]
  have e : 16 + j - 8 - 8 = j := by omega
  simp [hj, show ¬ 16 + j < 8 by omega, show ¬ 16 + j - 8 < 8 by omega, e]

@[simp] theorem chanByte_packLanes_a (r g b a : Byte) : chanByte (packLanes r g b a) .a = a := by
  refine BitVec.eq_of_getLsbD_eq fun j hj => ?_
  simp only [chanByte, packLanes, Channel.lane, Channel.code, BitVec.getLsbD_extractLsb', BitVec.getLsbD_append]
  have e : 24 + j - 8 - 8 - 8 = j := by omega
  simp [hj, show ¬ 24 + j < 8 by omega, show ¬ 24 + j - 8 < 8 by omega, show ¬ 24 + j - 8 - 8 < 8 by omega, e]

/-- A word is the packing of its four channel bytes (R53). -/
theorem packLanes_chanBytes (w : Word) : packLanes (chanByte w .r) (chanByte w .g) (chanByte w .b) (chanByte w .a) = w := by
  refine BitVec.eq_of_getLsbD_eq fun j hj => ?_
  simp only [chanByte, packLanes, Channel.lane, Channel.code, BitVec.getLsbD_extractLsb', BitVec.getLsbD_append]
  by_cases h1 : j < 8
  · simp [h1]
  by_cases h2 : j < 16
  · have e : 8 + (j - 8) = j := by omega
    simp [h1, show j - 8 < 8 by omega, e]
  by_cases h3 : j < 24
  · have e : 16 + (j - 8 - 8) = j := by omega
    simp [h1, show ¬ j - 8 < 8 by omega, show j - 8 - 8 < 8 by omega, e]
  · have e : 24 + (j - 8 - 8 - 8) = j := by omega
    simp [h1, show ¬ j - 8 < 8 by omega, show ¬ j - 8 - 8 < 8 by omega, show j - 8 - 8 - 8 < 8 by omega, e]

/-- A window word written to a LUT entry reads back (R126, R127). -/
@[simp] theorem toWord_ofWord (w : Word) : (LutEntry.ofWord w).toWord? = some w := by
  simp [LutEntry.toWord?, LutEntry.ofWord, packLanes_chanBytes]

/-- Lane `c` of a merged entry comes from the new entry where LMASK selects it, else from the old one (R121, R122). -/
theorem lane_merge (m : BitVec 4) (old new : LutEntry) (c : Channel) :
    (LutEntry.merge m old new).lane c = if laneOn m c then new.lane c else old.lane c := by
  cases c <;> rfl

@[simp] theorem lane_splat (v : Byte) (c : Channel) : (LutEntry.splat v).lane c = .val v := by
  cases c <;> rfl

@[simp] theorem lane_ofWord (w : Word) (c : Channel) : (LutEntry.ofWord w).lane c = .val (chanByte w c) := by
  cases c <;> rfl

end Sys2Proof.Machine
end

