-- ==== Sys2Proof/Laws/Commands.lean ====
section
/-! SUPPORT. The commands: exec while BUSY = 0 is the issue, and while BUSY = 1 an engine step; what one element can change
(its frame), and all that an engine step can come to. -/

namespace Sys2Proof.Machine

/-- exec of a command while BUSY = 0 is its issue (R92). -/
theorem exec_idle {i : Instr} {s : State} (h : s.status.busy = false) : exec i s = issue i s := by
  cases i <;> simp [exec, execNop, execLutIdent, execLutLoad, execApplyLutU8, execApplyLutRgba, execHistU8, execHistRgba,
    execCdf, execHistClear, execSat, command, h]

/-- All that an issue can come to. -/
theorem issue_cases (i : Instr) (s : State) :
    (∃ e, s.issueError i = some e ∧ issue i s = .next (s.reject e)) ∨
    (s.issueError i = none ∧ s.dutyBroken i = true ∧ issue i s = .fault .hostDutyBroken) ∨
    (s.issueError i = none ∧ s.dutyBroken i = false ∧ s.needsMaintenance i = true ∧
      issue i s = .refused .maintenanceOmitted) ∨
    (s.issueError i = none ∧ s.dutyBroken i = false ∧ s.needsMaintenance i = false ∧
      issue i s = .next (s.accept i)) := by
  unfold issue
  cases he : s.issueError i with
  | some e => exact .inl ⟨e, rfl, rfl⟩
  | none =>
    cases hd : s.dutyBroken i <;> cases hm : s.needsMaintenance i <;> simp

/-- The element operation of a command; the commands without elements never come to one. -/
def elemOf : Instr → Nat → State → Elem
  | .nop _ _ _ _ _ => fun _ s => .ok s
  | .lutIdent _ _ _ _ _ => fun _ s => .ok s
  | .lutLoad _ _ m _ _ => lutLoadElem m
  | .applyLutU8 c _ _ _ => applyU8Elem c
  | .applyLutRgba _ m _ _ => applyRgbaElem m
  | .histU8 _ _ _ _ => histU8Elem
  | .histRgba c _ _ _ => histRgbaElem c
  | .cdf _ _ _ _ _ => fun _ s => .ok s
  | .histClear _ _ _ _ _ => fun _ s => .ok s
  | .sat _ _ _ _ _ => satElem

/-- The commands of R104, which go element by element: LUT_LOAD, APPLY_LUT, HIST and SAT. -/
def hasElements : Instr → Bool
  | .nop _ _ _ _ _ => false
  | .lutIdent _ _ _ _ _ => false
  | .lutLoad _ _ _ _ _ => true
  | .applyLutU8 _ _ _ _ => true
  | .applyLutRgba _ _ _ _ => true
  | .histU8 _ _ _ _ => true
  | .histRgba _ _ _ _ => true
  | .cdf _ _ _ _ _ => false
  | .histClear _ _ _ _ _ => false
  | .sat _ _ _ _ _ => true

/-- exec of an element command while BUSY = 1 is an element step (R104). -/
theorem exec_busy_element {i : Instr} {s : State} (h : s.status.busy = true) (he : hasElements i = true) :
    exec i s = elementStep (elemOf i) s := by
  cases i <;> simp [hasElements] at he <;>
    simp [exec, execLutLoad, execApplyLutU8, execApplyLutRgba, execHistU8, execHistRgba, execSat, command, h, elemOf]

/-- The state after a port write or an errored port write (R12, R58). -/
theorem portWrite_mem {s t : State} {a len v : Nat}
    (h : s.portWrite a len v = .ok t ∨ s.portWrite a len v = .busError t) :
    t = { s with mem := t.mem, portDirty := t.portDirty } ∧
    (∀ x, ¬ (a ≤ x ∧ x < a + len) → t.mem.byte x = s.mem.byte x) ∧
    (s.mem.wf → a + len ≤ 2 ^ 32 → t.mem.wf) := by
  rcases portWrite_cases s a len v with ⟨-, e⟩ | ⟨-, e⟩ <;> rw [e] at h
  · have ht : t = State.markPort a len { s with mem := s.mem.putBytes a (leBytes len v) } := by
      rcases h with h | h <;> cases h; rfl
    subst ht
    refine ⟨?_, fun x hx => ?_, fun hw ha => ?_⟩
    · unfold State.markPort; split <;> rfl
    · rw [markPort_mem, Memory.byte_putBytes, leBytes_length, if_neg hx]
    · rw [markPort_mem]; exact Memory.wf_putBytes hw (by simpa using ha)
  · have ht : t = State.markPort a len { s with mem := s.mem.forgetBytes a len } := by
      rcases h with h | h <;> cases h; rfl
    subst ht
    refine ⟨?_, fun x hx => ?_, fun hw _ => ?_⟩
    · unfold State.markPort; split <;> rfl
    · rw [markPort_mem, Memory.byte_forgetBytes, if_neg hx]
    · rw [markPort_mem]; exact Memory.wf_forgetBytes hw a len

/-- What an element of a command may change: nothing but the LUT (LUT_LOAD), HIST and HOVF (HIST), and the bytes of its own
place in the destination (APPLY_LUT, SAT), beside the model's counters. -/
structure ElemFrame (i : Instr) (k : Nat) (s t : State) : Prop where
  rest : t = { s with
    draws := t.draws, lut := t.lut, hist := t.hist, status := t.status, mem := t.mem, portDirty := t.portDirty }
  status : t.status = { s.status with hovf := t.status.hovf }
  lut : i.opc ≠ 2#4 → t.lut = s.lut
  hist : i.opc ≠ 4#4 → t.hist = s.hist ∧ t.status = s.status
  mem : ∀ x, ¬ (s.cur.dst.toNat + i.dstBytes * k ≤ x ∧ x < s.cur.dst.toNat + i.dstBytes * k + i.dstBytes) →
    t.mem.byte x = s.mem.byte x
  mem_same : i.dstBytes = 0 → t.mem = s.mem
  wf : s.mem.wf → s.cur.dst.toNat + i.dstBytes * k + i.dstBytes ≤ 2 ^ 32 → t.mem.wf

theorem ElemFrame.refl (i : Instr) (k : Nat) (s : State) : ElemFrame i k s s :=
  ⟨rfl, rfl, fun _ => rfl, fun _ => ⟨rfl, rfl⟩, fun _ _ => rfl, fun _ => rfl, fun h _ => h⟩

theorem countByte_frame {i : Instr} (k : Nat) {v : Byte} {s t u : State} (hi : i.opc = 4#4)
    (hs : t = { s with draws := t.draws }) (h : countByte v t = .ok u ∨ countByte v t = .busError u) :
    ElemFrame i k s u := by
  unfold countByte at h
  cases hc : t.hist.get v with
  | unspec => simp [hc] at h
  | val c =>
    simp only [hc] at h
    rcases h with h | h <;> cases h
    rw [hs]
    exact ⟨rfl, rfl, fun _ => rfl, fun hn => absurd hi hn, fun _ _ => rfl, fun _ => rfl, fun h _ => h⟩

theorem portWrite_frame {i : Instr} {k : Nat} {s t u : State} {a v : Nat}
    (ha : a = s.cur.dst.toNat + i.dstBytes * k) (hp : 0 < i.dstBytes)
    (hs : t = { s with draws := t.draws })
    (h : t.portWrite a i.dstBytes v = .ok u ∨ t.portWrite a i.dstBytes v = .busError u) : ElemFrame i k s u := by
  obtain ⟨h1, h2, h3⟩ := portWrite_mem h
  subst ha
  have hm : t.mem = s.mem := by rw [hs]
  rw [hm] at h2 h3
  refine ⟨?_, ?_, fun _ => ?_, fun _ => ⟨?_, ?_⟩, h2, fun h0 => by omega, h3⟩ <;> rw [h1, hs]

/-- The frame of an element, finished or errored. -/
theorem elemOf_frame {i : Instr} {k : Nat} {s t : State} (hi : hasElements i = true)
    (h : elemOf i k s = .ok t ∨ elemOf i k s = .busError t) : ElemFrame i k s t := by
  have read : ∀ {a len : Nat} {f : Nat → State → Elem},
      ((match s.portRead a len with
        | none => Elem.busError s
        | some (r, u) => f r u) = .ok t ∨
       (match s.portRead a len with
        | none => Elem.busError s
        | some (r, u) => f r u) = .busError t) →
      (∀ (r : Nat) (u : State), u = { s with draws := u.draws } → (f r u = .ok t ∨ f r u = .busError t) →
        ElemFrame i k s t) → ElemFrame i k s t := by
    intro a len f h hf
    rcases portRead_cases s a len with ⟨-, e⟩ | ⟨-, e⟩ <;> rw [e] at h
    · exact hf _ _ rfl h
    · have ht : t = s := by rcases h with h | h <;> cases h; rfl
      rw [ht]; exact .refl ..
  cases i with
  | nop | lutIdent | cdf | histClear => simp [hasElements] at hi
  | lutLoad f c m p a =>
    refine read h fun r u hu h' => ?_
    rcases h' with h' | h' <;> cases h'
    rw [hu]
    exact ⟨rfl, rfl, fun hn => absurd rfl hn, fun _ => ⟨rfl, rfl⟩, fun _ _ => rfl, fun _ => rfl, fun h _ => h⟩
  | applyLutU8 c m p a =>
    refine read h fun r u hu h' => ?_
    split at h'
    · rcases h' with h' | h' <;> cases h'
    · exact portWrite_frame (i := .applyLutU8 c m p a) (by rw [hu]; simp [Instr.dstBytes]) (by simp [Instr.dstBytes]) hu h'
  | applyLutRgba c m p a =>
    refine read h fun r u hu h' => ?_
    split at h'
    · rcases h' with h' | h' <;> cases h'
    · exact portWrite_frame (i := .applyLutRgba c m p a) (by rw [hu]; simp [Instr.dstBytes]) (by simp [Instr.dstBytes]) hu h'
  | histU8 c m p a => exact read h fun r u hu h' => countByte_frame k rfl hu h'
  | histRgba c m p a => exact read h fun r u hu h' => countByte_frame k rfl hu h'
  | sat f c m p a =>
    refine read h fun r u hu h' => ?_
    exact portWrite_frame (i := .sat f c m p a) (by rw [hu]; simp [Instr.dstBytes]) (by simp [Instr.dstBytes]) hu h'

/-- An element stops the run only by reading an UNSPEC cell (R214). -/
theorem elemOf_stop {i : Instr} {k : Nat} {s : State} {f : Fault} (h : elemOf i k s = .stop f) : f = .unwrittenRead := by
  have write : ∀ {t : State} {a len v : Nat}, t.portWrite a len v ≠ .stop f := by
    intro t a len v hc
    rcases portWrite_cases t a len v with ⟨-, e⟩ | ⟨-, e⟩ <;> rw [e] at hc <;> cases hc
  cases i <;> simp only [elemOf, lutLoadElem, applyU8Elem, applyRgbaElem, histU8Elem, histRgbaElem, satElem, countByte] at h <;>
    first
    | cases h
    | (repeat' split at h) <;> first | (cases h; rfl) | cases h | exact absurd h write

/-- What an engine step of command `i` at `s` came to, when it ends in a next state (R104 to R108). -/
inductive EngineStep (i : Instr) (s : State) : State → Prop where
  /-- NOP, or nothing left to do: complete (R104, R108). -/
  | completed (h : i.opc = 0#4 ∨ (hasElements i = true ∧ s.cur.n ≤ s.cur.done.length)) : EngineStep i s s.complete
  /-- LUT_IDENT (R121). -/
  | ident (m : BitVec 4) (h : i.opc = 1#4) : EngineStep i s (State.wholeDone { s with lut := identTable m s.lut })
  /-- HIST_CLEAR (R141). -/
  | cleared (h : i.opc = 6#4) : EngineStep i s (State.wholeDone { s with hist := zeroHist })
  /-- CDF (R145). -/
  | summed (vs : List Nat) (h : i.opc = 5#4) (hv : counters s.hist.toList = some vs) :
      EngineStep i s (State.wholeDone { s with
        cdf := cdfTable vs
        status := s.status.overflow (decide (2 ^ 32 ≤ vs.sum)) })
  /-- An element is finished (R104). -/
  | element (t : State) (hi : hasElements i = true) (hl : s.cur.done.length < s.cur.n)
      (h : elemOf i s.element s.dropPick = .ok t) (hf : ElemFrame i s.element s.dropPick t) :
      EngineStep i s (t.finish s.element).settle
  /-- An element got an error response (R107). -/
  | aborted (t : State) (hi : hasElements i = true) (hl : s.cur.done.length < s.cur.n)
      (h : elemOf i s.element s.dropPick = .busError t) (hf : ElemFrame i s.element s.dropPick t) :
      EngineStep i s t.abort

/-- All that an engine step can come to. -/
theorem exec_busy_cases {i : Instr} {s : State} (hb : s.status.busy = true) :
    (∃ t, exec i s = .next t ∧ EngineStep i s t) ∨ exec i s = .fault .unwrittenRead := by
  by_cases he : hasElements i = true
  · rw [exec_busy_element hb he]
    rcases elementStep_cases (elemOf i) s with ⟨hn, e⟩ | ⟨hl, t, ht, e⟩ | ⟨hl, t, ht, e⟩ | ⟨hl, f, hf, e⟩
    · exact .inl ⟨_, e, .completed (.inr ⟨he, hn⟩)⟩
    · exact .inl ⟨_, e, .element t he hl ht (elemOf_frame he (.inl ht))⟩
    · exact .inl ⟨_, e, .aborted t he hl ht (elemOf_frame he (.inr ht))⟩
    · exact .inr (by rw [e, elemOf_stop hf])
  · cases i with
    | nop f c m p a =>
      exact .inl ⟨_, by simp [exec, execNop, command, hb], .completed (.inl rfl)⟩
    | lutIdent f c m p a =>
      exact .inl ⟨_, by simp [exec, execLutIdent, command, hb], .ident m rfl⟩
    | histClear f c m p a =>
      exact .inl ⟨_, by simp [exec, execHistClear, command, hb], .cleared rfl⟩
    | cdf f c m p a =>
      cases hv : counters s.hist.toList with
      | none => exact .inr (by simp [exec, execCdf, command, hb, cdfStep, hv])
      | some vs => exact .inl ⟨_, by simp [exec, execCdf, command, hb, cdfStep, hv], .summed vs rfl hv⟩
    | lutLoad | applyLutU8 | applyLutRgba | histU8 | histRgba | sat => simp [hasElements] at he

/-- What no engine step changes (R102, R103): the host's registers, the latched command, the platform, the events to come. -/
theorem EngineStep.keeps {i : Instr} {s t : State} (h : EngineStep i s t) :
    t = { s with
      status := t.status, progress := t.progress, lut := t.lut, hist := t.hist, cdf := t.cdf
      cur := { s.cur with done := t.cur.done }, mem := t.mem, picks := t.picks, draws := t.draws
      portDirty := t.portDirty } := by
  have hd : s.dropPick = { s with picks := s.dropPick.picks, draws := s.dropPick.draws } := by
    unfold State.dropPick; split <;> rfl
  cases h with
  | element u hi hl h hf =>
    have h := hf.rest
    rw [hd] at h
    unfold State.settle
    split <;> (rw [h]; rfl)
  | aborted u hi hl h hf =>
    have h := hf.rest
    rw [hd] at h
    rw [h]; rfl
  | _ => rfl

/-- What an engine step does to the flags: the command goes on, completes (R106), or aborts (R107). -/
theorem EngineStep.status {i : Instr} {s t : State} (h : EngineStep i s t) :
    t.status = { s.status with hovf := t.status.hovf } ∨
    t.status = { s.status with busy := false, done := true, hovf := t.status.hovf } ∨
    t.status = { s.status with busy := false, error := true, errcode := .bus, hovf := t.status.hovf } := by
  have hd : s.dropPick.status = s.status := by unfold State.dropPick; split <;> rfl
  cases h with
  | element u hi hl h hf =>
    have h := hf.status
    rw [hd] at h
    unfold State.settle
    split
    · refine .inr (.inl ?_)
      simp only [State.complete, Status.completed, State.finish]
      rw [h]
    · exact .inl h
  | aborted u hi hl h hf =>
    have h := hf.status
    rw [hd] at h
    refine .inr (.inr ?_)
    simp only [State.abort, Status.aborted, Status.withError]
    rw [h]
  | _ => exact .inr (.inl rfl)

/-- Which arrays an engine step of which command may write (R40, R41, R42). -/
theorem EngineStep.arrays {i : Instr} {s t : State} (h : EngineStep i s t) :
    (t.lut = s.lut ∨ i.opc = 1#4 ∨ i.opc = 2#4) ∧ (t.hist = s.hist ∨ i.opc = 4#4 ∨ i.opc = 6#4) ∧
      (t.cdf = s.cdf ∨ i.opc = 5#4) := by
  have hd : s.dropPick.lut = s.lut ∧ s.dropPick.hist = s.hist ∧ s.dropPick.cdf = s.cdf := by
    unfold State.dropPick; split <;> exact ⟨rfl, rfl, rfl⟩
  have elem : ∀ {u : State}, ElemFrame i s.element s.dropPick u →
      (u.lut = s.lut ∨ i.opc = 1#4 ∨ i.opc = 2#4) ∧ (u.hist = s.hist ∨ i.opc = 4#4 ∨ i.opc = 6#4) ∧
        (u.cdf = s.cdf ∨ i.opc = 5#4) := by
    intro u hf
    refine ⟨?_, ?_, .inl (by rw [hf.rest]; exact hd.2.2)⟩
    · by_cases ho : i.opc = 2#4
      · exact .inr (.inr ho)
      · exact .inl (by rw [hf.lut ho, hd.1])
    · by_cases ho : i.opc = 4#4
      · exact .inr (.inl ho)
      · exact .inl (by rw [(hf.hist ho).1, hd.2.1])
  cases h with
  | element u hi hl h hf => have := elem hf; unfold State.settle; split <;> exact this
  | aborted u hi hl h hf => have := elem hf; exact this
  | completed h => exact ⟨.inl rfl, .inl rfl, .inl rfl⟩
  | ident m h => exact ⟨.inr (.inl h), .inl rfl, .inl rfl⟩
  | cleared h => exact ⟨.inl rfl, .inr (.inr h), .inl rfl⟩
  | summed vs h hv => exact ⟨.inl rfl, .inl rfl, .inr h⟩

end Sys2Proof.Machine
end

