-- ==== Sys2Proof/Laws/Elements.lean ====
section
/-! SUPPORT. One element, in the terms of Safety.lean: the bytes a read of the port gives, and the state after an element that
is finished, errored, or stopped. -/

namespace Sys2Proof.Machine

/-! ## The value read -/

/-- The value of a one-byte read is the byte seen. -/
theorem ofNat_leNat_load_one (m : Memory) (d x : Nat) :
    BitVec.ofNat 8 (leNat (m.load d x 1)) = (m.load d x 1).getD 0 0#8 := by
  simp [Memory.load, leNat]

/-- Channel `c` of the word of a four-byte read is byte `c` of the four seen (R12, R53). -/
theorem chanByte_leNat_load (m : Memory) (d x : Nat) (c : Channel) :
    chanByte (BitVec.ofNat 32 (leNat (m.load d x 4))) c = byteOf (m.load d x 4) c := by
  simp only [Memory.load, leNat, byteOf, chanByte]
  generalize (m.byte x).getD (Config.freeByte d) = b0
  generalize (m.byte (x + 1)).getD (Config.freeByte (d + 1)) = b1
  generalize (m.byte (x + 1 + 1)).getD (Config.freeByte (d + 1 + 1)) = b2
  generalize (m.byte (x + 1 + 1 + 1)).getD (Config.freeByte (d + 1 + 1 + 1)) = b3
  have h0 := b0.isLt
  have h1 := b1.isLt
  have h2 := b2.isLt
  have h3 := b3.isLt
  apply BitVec.eq_of_toNat_eq
  cases c <;> simp [Channel.lane, Channel.code, Nat.shiftRight_eq_div_pow] <;> omega

/-- Byte `j` of the little-endian bytes of a packed pixel is the channel of lane `j` (R53, R54). -/
theorem getD_leBytes_packLanes (r g b a : Byte) :
    leBytes 4 (packLanes r g b a).toNat = [r, g, b, a] := by
  have h0 := r.isLt
  have h1 := g.isLt
  have h2 := b.isLt
  have h3 := a.isLt
  have e : (packLanes r g b a).toNat = r.toNat + 256 * g.toNat + 65536 * b.toNat + 16777216 * a.toNat := by
    simp only [packLanes, BitVec.toNat_append, Nat.shiftLeft_eq]
    rw [← Nat.shiftLeft_eq, ← Nat.shiftLeft_eq, ← Nat.shiftLeft_eq,
      ← Nat.shiftLeft_add_eq_or_of_lt h2, ← Nat.shiftLeft_add_eq_or_of_lt h1, ← Nat.shiftLeft_add_eq_or_of_lt h0]
    simp only [Nat.shiftLeft_eq]
    omega
  rw [e]
  simp only [leBytes, List.cons.injEq, and_true]
  refine ⟨?_, ?_, ?_, ?_⟩ <;> apply BitVec.eq_of_toNat_eq <;> simp <;> omega

/-! ## The state after an element -/

/-- Using up a choice changes the schedule and the count of draws only. -/
theorem dropPick_eq (s : State) : s.dropPick = { s with picks := s.picks.tail, draws := s.dropPick.draws } := by
  unfold State.dropPick
  cases s.picks <;> rfl

theorem settle_last {s : State} (h : s.cur.done.length = s.cur.n) : s.settle = s.complete := if_pos h

theorem settle_more {s : State} (h : s.cur.done.length ≠ s.cur.n) : s.settle = s := if_neg h

theorem statusAfterElement_last {s : State} (h : s.curAfterElement.done.length = s.cur.n) :
    s.statusAfterElement = { s.status with busy := false, done := true } := if_pos h

theorem statusAfterElement_more {s : State} (h : s.curAfterElement.done.length ≠ s.cur.n) :
    s.statusAfterElement = s.status := if_neg h

/-- An element that is finished: CUR.done and PROGRESS count it, and the last one completes the command (R104). -/
theorem exec_element_ok {i : Instr} {s t : State} (hl : s.elementLeft) (hi : hasElements i = true)
    (h : elemOf i s.element s.dropPick = .ok t) :
    exec i s = .next { t with
      cur := s.curAfterElement, progress := s.progress + 1#32
      status := { s.statusAfterElement with hovf := t.status.hovf } } := by
  have hf := elemOf_frame hi (.inl h)
  have hd := dropPick_eq s
  have hc : t.cur = s.cur := by rw [hf.rest, hd]
  have hp : t.progress = s.progress := by rw [hf.rest, hd]
  have hs : t.status = { s.status with hovf := t.status.hovf } := by have := hf.status; rwa [hd] at this
  dsimp only at hs
  rw [exec_busy_element hl.1 hi]
  unfold elementStep
  rw [if_pos hl.2, h]
  have hfin : t.finish s.element = { t with cur := s.curAfterElement, progress := s.progress + 1#32 } := by
    simp only [State.finish, State.curAfterElement, hc, hp]
  dsimp only
  rw [hfin]
  by_cases hn : s.curAfterElement.done.length = s.cur.n
  · rw [settle_last (by exact hn), statusAfterElement_last hn]
    simp only [State.complete, Status.completed]
    rw [hs]
  · rw [settle_more (by exact hn), statusAfterElement_more hn]
    rw [← hs]

/-- An element that got an error response: the command aborts (R107). -/
theorem exec_element_abort {i : Instr} {s t : State} (hl : s.elementLeft) (hi : hasElements i = true)
    (h : elemOf i s.element s.dropPick = .busError t) : exec i s = .next t.abort := by
  rw [exec_busy_element hl.1 hi, elementStep, if_pos hl.2, h]

/-- An element that read an UNSPEC cell: the run ends (R214). -/
theorem exec_element_stop {i : Instr} {s : State} {f : Fault} (hl : s.elementLeft) (hi : hasElements i = true)
    (h : elemOf i s.element s.dropPick = .stop f) : exec i s = .fault .unwrittenRead := by
  rw [exec_busy_element hl.1 hi, elementStep, if_pos hl.2, h, elemOf_stop h]

/-- A port read at the next element, by the bytes seen. -/
theorem portRead_dropPick {s : State} {a len : Nat} (h : s.memOk a len .read = true) :
    s.dropPick.portRead a len =
      some (leNat (s.seen a len), { s.dropPick with draws := s.dropPick.draws + len }) := by
  have hm : s.dropPick.memOk a len .read = true := by rw [dropPick_eq]; exact h
  have he : s.dropPick.mem = s.mem := by rw [dropPick_eq]
  rcases portRead_cases s.dropPick a len with ⟨-, e⟩ | ⟨hn, -⟩
  · rw [e, State.seen, ← he]
  · rw [hm] at hn; cases hn

/-- A port read with an error response at the next element. -/
theorem portRead_dropPick_error {s : State} {a len : Nat} (h : s.memOk a len .read = false) :
    s.dropPick.portRead a len = none := by
  have hm : s.dropPick.memOk a len .read = false := by rw [dropPick_eq]; exact h
  simp [State.portRead, hm]

end Sys2Proof.Machine
end

