-- ==== Sys2Proof/Laws/PerInstr.lean ====
section
/-! SUPPORT. Per instruction: the word of a command lies in the command's row of spec/opcode_table.json. -/

namespace Sys2Proof.Laws

theorem or_and_word (x y m : Word) : (x ||| y) &&& m = (x &&& m) ||| (y &&& m) := by
  refine BitVec.eq_of_getLsbD_eq fun j _ => ?_
  simp only [BitVec.getLsbD_and, BitVec.getLsbD_or, Bool.and_or_distrib_right]

/-- Bits [31:14] and OPC of an assembled word, whatever its other fields hold. -/
theorem assemble_opc (opc : BitVec 4) (fmt : BitVec 2) (ch : Channel) (lmask : BitVec 4) (par acc : Bool) :
    assemble opc fmt ch lmask par acc &&& 0xFFFFC00F#32 = opc.setWidth 32 := by
  have h1 : ∀ x : BitVec 4, x.setWidth 32 &&& 0xFFFFC00F#32 = x.setWidth 32 := by decide
  have h2 : ∀ x : BitVec 2, (x.setWidth 32 <<< 4) &&& 0xFFFFC00F#32 = 0#32 := by decide
  have h3 : ∀ c : Channel, (c.code.setWidth 32 <<< 6) &&& 0xFFFFC00F#32 = 0#32 := by intro c; cases c <;> decide
  have h4 : ∀ x : BitVec 4, (x.setWidth 32 <<< 8) &&& 0xFFFFC00F#32 = 0#32 := by decide
  have h5 : ∀ x : Bool, (bitOf x <<< 12) &&& 0xFFFFC00F#32 = 0#32 := by decide
  have h6 : ∀ x : Bool, (bitOf x <<< 13) &&& 0xFFFFC00F#32 = 0#32 := by decide
  simp only [assemble, or_and_word, h1, h2, h3, h4, h5, h6, BitVec.or_zero]

/-- Bits [31:14], FMT and OPC of an assembled word. -/
theorem assemble_opc_fmt (opc : BitVec 4) (fmt : BitVec 2) (ch : Channel) (lmask : BitVec 4) (par acc : Bool) {v : Word}
    (h : opc.setWidth 32 ||| (fmt.setWidth 32 <<< 4) = v) : assemble opc fmt ch lmask par acc &&& 0xFFFFC03F#32 = v := by
  subst h
  have h1 : ∀ x : BitVec 4, x.setWidth 32 &&& 0xFFFFC03F#32 = x.setWidth 32 := by decide
  have h2 : ∀ x : BitVec 2, (x.setWidth 32 <<< 4) &&& 0xFFFFC03F#32 = x.setWidth 32 <<< 4 := by decide
  have h3 : ∀ c : Channel, (c.code.setWidth 32 <<< 6) &&& 0xFFFFC03F#32 = 0#32 := by intro c; cases c <;> decide
  have h4 : ∀ x : BitVec 4, (x.setWidth 32 <<< 8) &&& 0xFFFFC03F#32 = 0#32 := by decide
  have h5 : ∀ x : Bool, (bitOf x <<< 12) &&& 0xFFFFC03F#32 = 0#32 := by decide
  have h6 : ∀ x : Bool, (bitOf x <<< 13) &&& 0xFFFFC03F#32 = 0#32 := by decide
  simp only [assemble, or_and_word, h1, h2, h3, h4, h5, h6, BitVec.or_zero]

/-- The mask and the match value of a command's row in the opcode table. -/
def tableRow : Instr → Word × Word
  | .nop _ _ _ _ _ => (0xFFFFC00F#32, 0x00000000#32)
  | .lutIdent _ _ _ _ _ => (0xFFFFC00F#32, 0x00000001#32)
  | .lutLoad _ _ _ _ _ => (0xFFFFC00F#32, 0x00000002#32)
  | .applyLutU8 _ _ _ _ => (0xFFFFC03F#32, 0x00000003#32)
  | .applyLutRgba _ _ _ _ => (0xFFFFC03F#32, 0x00000013#32)
  | .histU8 _ _ _ _ => (0xFFFFC03F#32, 0x00000004#32)
  | .histRgba _ _ _ _ => (0xFFFFC03F#32, 0x00000014#32)
  | .cdf _ _ _ _ _ => (0xFFFFC00F#32, 0x00000005#32)
  | .histClear _ _ _ _ _ => (0xFFFFC00F#32, 0x00000006#32)
  | .sat _ _ _ _ _ => (0xFFFFC00F#32, 0x00000007#32)

/-- The encoded word of `i`, masked as its opcode-table row says, is the row's match value. -/
def TableRow.Statement (i : Instr) : Prop := encode i &&& (tableRow i).1 = (tableRow i).2

theorem TableRow.nop (fmt : BitVec 2) (chsel : Channel) (lmask : BitVec 4) (par acc : Bool) :
    TableRow.Statement (.nop fmt chsel lmask par acc) := assemble_opc ..

theorem TableRow.lutIdent (fmt : BitVec 2) (chsel : Channel) (lmask : BitVec 4) (par acc : Bool) :
    TableRow.Statement (.lutIdent fmt chsel lmask par acc) := assemble_opc ..

theorem TableRow.lutLoad (fmt : BitVec 2) (chsel : Channel) (lmask : BitVec 4) (par acc : Bool) :
    TableRow.Statement (.lutLoad fmt chsel lmask par acc) := assemble_opc ..

theorem TableRow.applyLutU8 (chsel : Channel) (lmask : BitVec 4) (par acc : Bool) :
    TableRow.Statement (.applyLutU8 chsel lmask par acc) :=
  assemble_opc_fmt 3#4 0#2 chsel lmask par acc rfl

theorem TableRow.applyLutRgba (chsel : Channel) (lmask : BitVec 4) (par acc : Bool) :
    TableRow.Statement (.applyLutRgba chsel lmask par acc) :=
  assemble_opc_fmt 3#4 1#2 chsel lmask par acc rfl

theorem TableRow.histU8 (chsel : Channel) (lmask : BitVec 4) (par acc : Bool) :
    TableRow.Statement (.histU8 chsel lmask par acc) :=
  assemble_opc_fmt 4#4 0#2 chsel lmask par acc rfl

theorem TableRow.histRgba (chsel : Channel) (lmask : BitVec 4) (par acc : Bool) :
    TableRow.Statement (.histRgba chsel lmask par acc) :=
  assemble_opc_fmt 4#4 1#2 chsel lmask par acc rfl

theorem TableRow.cdf (fmt : BitVec 2) (chsel : Channel) (lmask : BitVec 4) (par acc : Bool) :
    TableRow.Statement (.cdf fmt chsel lmask par acc) := assemble_opc ..

theorem TableRow.histClear (fmt : BitVec 2) (chsel : Channel) (lmask : BitVec 4) (par acc : Bool) :
    TableRow.Statement (.histClear fmt chsel lmask par acc) := assemble_opc ..

theorem TableRow.sat (fmt : BitVec 2) (chsel : Channel) (lmask : BitVec 4) (par acc : Bool) :
    TableRow.Statement (.sat fmt chsel lmask par acc) := assemble_opc ..

end Sys2Proof.Laws
end

