-- ==== Sys2Proof/Laws/Step.lean ====
section
/-! SUPPORT. A step: what an event at the head of the agenda does, and all that a step can come to, said once. -/

namespace Sys2Proof.Machine

theorem step_facing (e : Event) (s : State) : step (s.facing e) = handle e s := by
  simp [step, takeStep, State.facing]

theorem step_of_agenda {s : State} {e : Event} {rest : List Event} (h : s.agenda = e :: rest) :
    step s = handle e { s with agenda := rest } := by
  simp [step, takeStep, h]

/-- The engine's step is taken at a state that differs from `s` in the agenda at most. -/
theorem EngineMoves.eq {s u : State} (h : EngineMoves s u) : u = { s with agenda := u.agenda } := by
  rcases h with ⟨-, e⟩ | ⟨rest, -, e⟩ | ⟨rest, -, -, e⟩ <;> rw [e]

theorem step_of_engineMoves {s u : State} (h : EngineMoves s u) (hb : s.status.busy = true) :
    step s = exec s.cur.cmd u := by
  rcases h with ⟨ha, e⟩ | ⟨rest, ha, e⟩ | ⟨rest, ha, -, e⟩
  · subst e; simp [step, takeStep, ha, engineTurn, hb]
  · rw [step_of_agenda ha, e]; simp [handle, engineTurn, hb]
  · rw [step_of_agenda ha, e]
    have hs : ({ s with agenda := .wait :: rest } : State) = s := by rw [← ha]
    simp [handle, engineTurn, hb, hs]

theorem transaction_eq_wr {x : Transaction} (hw : x.wf = true) (hd : x.dir = .write) :
    Event.reg x = wr x.off x.data := by
  obtain ⟨dir, width, off, data⟩ := x
  simp only [Transaction.wf, Bool.and_eq_true, decide_eq_true_eq] at hw
  simp only at hd
  simp [wr, hd, hw.1]

/-- The only offset that names CMD. -/
theorem locate_eq_cmd {off : BitVec 12} (h0 : off.extractLsb' 0 2 = 0) (h : locate off = .cmd) : off = 0x00C#12 := by
  revert off; decide +kernel

theorem wr_event_wf {off : BitVec 12} {v : Word} (h : off.extractLsb' 0 2 = 0) (s : State) :
    handle (wr off v) s = hostWrite off v s := by
  simp [handle, wr, transact, Transaction.wf, h]

theorem decode_error_ne_noError {w : Word} {e : ErrCode} (h : decode w = .error e) : e ≠ .noError := by
  rintro rfl
  unfold decode at h
  split at h
  · cases h
  · dsimp only at h
    split at h <;> first | cases h | (split at h <;> cases h)

theorem operandError_ne_noError {i : Instr} {src dst lut : Word} {n : Nat} {e : ErrCode}
    (h : operandError i src dst lut n = some e) : e ≠ .noError := by
  unfold operandError at h
  (repeat' split at h) <;> cases h <;> simp

/-- A gated write (R97): dropped with error BUSY while a command runs, done otherwise. -/
theorem rwi_cases (s t : State) :
    (s.status.busy = true ∧ s.rwi t = s.recordError .busy) ∨ (s.status.busy = false ∧ s.rwi t = t) := by
  unfold State.rwi
  cases s.status.busy <;> simp

/-- What a host write to a location other than CMD never changes (R96 to R99). -/
theorem writeAt_keeps (l : Location) (v : Word) (s : State) : State.writeAt l v s = { s with
    status := (State.writeAt l v s).status, irqEn := (State.writeAt l v s).irqEn
    srcAddr := (State.writeAt l v s).srcAddr, dstAddr := (State.writeAt l v s).dstAddr
    width := (State.writeAt l v s).width, height := (State.writeAt l v s).height
    lutAddr := (State.writeAt l v s).lutAddr, satInLo := (State.writeAt l v s).satInLo
    satInHi := (State.writeAt l v s).satInHi, lut := (State.writeAt l v s).lut
    hist := (State.writeAt l v s).hist } := by
  have gate : ∀ t : State, (∃ r, t = r ∧ r = { s with
      srcAddr := r.srcAddr, dstAddr := r.dstAddr, width := r.width, height := r.height, lutAddr := r.lutAddr
      lut := r.lut, hist := r.hist }) → s.rwi t = { s with
      status := (s.rwi t).status, irqEn := (s.rwi t).irqEn, srcAddr := (s.rwi t).srcAddr, dstAddr := (s.rwi t).dstAddr
      width := (s.rwi t).width, height := (s.rwi t).height, lutAddr := (s.rwi t).lutAddr
      satInLo := (s.rwi t).satInLo, satInHi := (s.rwi t).satInHi, lut := (s.rwi t).lut, hist := (s.rwi t).hist } := by
    rintro t ⟨r, rfl, hr⟩
    rcases rwi_cases s t with ⟨-, e⟩ | ⟨-, e⟩ <;> rw [e]
    · rfl
    · rw [hr]
  cases l <;> first | rfl | exact gate _ ⟨_, rfl, rfl⟩

/-- What a host write to a location other than CMD does to the flags: STATUS is write-1-to-clear (R23), a gated write while a
command runs records BUSY (R97), and nothing else touches them. -/
theorem writeAt_status (l : Location) (v : Word) (s : State) :
    (State.writeAt l v s).status = s.status ∨
    (l = .status ∧ (State.writeAt l v s).status = s.status.cleared v) ∨
    (s.status.busy = true ∧ (State.writeAt l v s).status = s.status.withError .busy) := by
  have gate : ∀ u t : State, u = s.rwi t → t.status = s.status →
      u.status = s.status ∨ (s.status.busy = true ∧ u.status = s.status.withError .busy) := by
    rintro u t rfl ht
    rcases rwi_cases s t with ⟨hb, e⟩ | ⟨-, e⟩ <;> rw [e]
    · exact .inr ⟨hb, rfl⟩
    · exact .inl ht
  cases l with
  | status => exact .inr (.inl ⟨rfl, rfl⟩)
  | srcAddr | dstAddr | width | height | lutAddr | hist | lut => refine (gate (State.writeAt _ v s) _ rfl ?_).imp_right .inr; rfl
  | _ => exact .inl rfl

/-- Only a write to IRQ_EN changes it (R98). -/
theorem writeAt_irqEn {l : Location} (h : l ≠ .irqEn) (v : Word) (s : State) : (State.writeAt l v s).irqEn = s.irqEn := by
  have gate : ∀ t : State, t.irqEn = s.irqEn → (s.rwi t).irqEn = s.irqEn := by
    intro t ht
    rcases rwi_cases s t with ⟨-, e⟩ | ⟨-, e⟩ <;> rw [e]
    · rfl
    · exact ht
  cases l with
  | irqEn => exact absurd rfl h
  | srcAddr | dstAddr | width | height | lutAddr | hist | lut => exact gate _ rfl
  | _ => rfl

/-- What a host write to a location other than CMD does to the registers a running command latched: nothing while it runs
(R97, R102). -/
theorem writeAt_busy {s : State} (h : s.status.busy = true) (l : Location) (v : Word) :
    State.writeAt l v s = { s with
      status := (State.writeAt l v s).status, irqEn := (State.writeAt l v s).irqEn
      satInLo := (State.writeAt l v s).satInLo, satInHi := (State.writeAt l v s).satInHi } := by
  have gate : ∀ t : State, s.rwi t = s.recordError .busy := fun t => by simp [State.rwi, h]
  cases l <;> simp only [State.writeAt, gate] <;> rfl

/-- What a step came to, when it ends in a next state. -/
inductive StepTo (s : State) : State → Prop where
  /-- The engine took a step of the running command (R103). -/
  | engine (u t : State) (hm : EngineMoves s u) (hb : s.status.busy = true) (hx : exec s.cur.cmd u = .next t)
      (he : EngineStep s.cur.cmd u t) : StepTo s t
  /-- No command runs and no event comes: nothing happens (R198). -/
  | idle (hb : s.status.busy = false) (ha : s.agenda = []) : StepTo s s
  /-- The engine has the turn and no command runs (R103). -/
  | idleEngine (rest : List Event) (hb : s.status.busy = false) (ha : s.agenda = .engine :: rest) :
      StepTo s { s with agenda := rest }
  /-- A register read, an ill-formed transaction, or the last poll of WAIT: only an answer (R71, R85, R95). -/
  | answered (r : Reply) (e : Event) (rest : List Event) (ha : s.agenda = e :: rest) :
      StepTo s (State.answer r { s with agenda := rest })
  /-- A host write to a location other than CMD (R96). -/
  | written (off : BitVec 12) (v : Word) (rest : List Event) (ha : s.agenda = wr off v :: rest)
      (h0 : off.extractLsb' 0 2 = 0) (hc : locate off ≠ .cmd) : StepTo s (State.writeAt (locate off) v (s.taken rest))
  /-- A rejected CMD write (R92, R182). -/
  | rejected (w : Word) (rest : List Event) (e : ErrCode) (ha : s.agenda = wr 0x00C#12 w :: rest)
      (hn : e ≠ .noError)
      (hr : (s.status.busy = true ∧ e = .busy) ∨
        (s.status.busy = false ∧ (decode w = .error e ∨ ∃ i, decode w = .ok i ∧ s.issueError i = some e))) : StepTo s ((s.taken rest).reject e)
  /-- An accepted CMD write (R94). -/
  | accepted (w : Word) (rest : List Event) (i : Instr) (ha : s.agenda = wr 0x00C#12 w :: rest)
      (hb : s.status.busy = false) (hd : decode w = .ok i) (hi : s.issueError i = none) :
      StepTo s ((s.taken rest).accept i)
  /-- A store by the host or another agent (R218). -/
  | stored (addr : Word) (bytes : List Byte) (rest : List Event) (ha : s.agenda = .memStore addr bytes :: rest)
      (hs : addr.toNat + bytes.length ≤ 2 ^ 32) (ho : s.ownedByEngine addr.toNat bytes.length = false) :
      StepTo s (State.markHost addr.toNat bytes.length
        { s with agenda := rest, mem := s.mem.putBytes addr.toNat bytes })
  /-- A load by the host or another agent. -/
  | loaded (addr : Word) (len : Nat) (rest : List Event) (ha : s.agenda = .memLoad addr len :: rest) :
      StepTo s (State.answer (.bytes (s.hostLoad addr.toNat len))
        { s with agenda := rest, draws := s.draws + len })
  /-- The platform's maintenance (R67). -/
  | maintained (rest : List Event) (ha : s.agenda = .maintain :: rest) :
      StepTo s (State.maintained { s with agenda := rest })
  /-- Reset (R210 to R212). -/
  | reset (p : Option InFlight) (rest : List Event) (ha : s.agenda = .reset p :: rest) :
      StepTo s (State.afterReset p { s with agenda := rest })

theorem engine_stepTo {s u t : State} (hm : EngineMoves s u) (hb : s.status.busy = true)
    (h : exec s.cur.cmd u = .next t) : StepTo s t := by
  have hu : u.status.busy = true := by rw [hm.eq]; exact hb
  rcases exec_busy_cases (i := s.cur.cmd) hu with ⟨t', e, he⟩ | e
  · rw [h] at e; cases e; exact .engine u t hm hb h he
  · rw [h] at e; cases e

/-- All that a step can come to. -/
theorem stepTo_of_step {s t : State} (h : step s = .next t) : StepTo s t := by
  cases ha : s.agenda with
  | nil =>
    cases hb : s.status.busy with
    | true => exact engine_stepTo (.inl ⟨ha, rfl⟩) hb (by rwa [step_of_engineMoves (.inl ⟨ha, rfl⟩) hb] at h)
    | false =>
      simp only [step, takeStep, ha, engineTurn, hb] at h
      cases h; exact .idle hb ha
  | cons e rest =>
    cases e with
    | engine =>
      cases hb : s.status.busy with
      | true =>
        have hm : EngineMoves s { s with agenda := rest } := .inr (.inl ⟨rest, ha, rfl⟩)
        exact engine_stepTo hm hb (by rwa [step_of_engineMoves hm hb] at h)
      | false =>
        rw [step_of_agenda ha] at h
        simp only [handle, engineTurn, hb] at h
        cases h; exact .idleEngine rest hb ha
    | wait =>
      cases hb : s.status.busy with
      | true =>
        have hm : EngineMoves s s := .inr (.inr ⟨rest, ha, hb, rfl⟩)
        exact engine_stepTo hm hb (by rwa [step_of_engineMoves hm hb] at h)
      | false =>
        rw [step_of_agenda ha] at h
        simp only [handle, hb] at h
        cases h; exact .answered _ _ rest ha
    | memStore addr bytes =>
      rw [step_of_agenda ha] at h
      simp only [handle, memStore] at h
      by_cases hs : spanExists addr bytes.length = true
      · cases ho : s.ownedByEngine addr.toNat bytes.length with
        | true =>
          have ho' : State.ownedByEngine addr.toNat bytes.length { s with agenda := rest } = true := ho
          simp [hs, ho'] at h
        | false =>
          have ho' : State.ownedByEngine addr.toNat bytes.length { s with agenda := rest } = false := ho
          simp only [hs, ho'] at h
          cases h
          exact .stored addr bytes rest ha (by simpa [spanExists] using hs) ho
      · simp [hs] at h
    | memLoad addr len =>
      rw [step_of_agenda ha] at h
      simp only [handle, memLoad] at h
      split at h
      · cases h
      · split at h
        · cases h
        · cases h; exact .loaded addr len rest ha
    | maintain => rw [step_of_agenda ha] at h; cases h; exact .maintained rest ha
    | reset p => rw [step_of_agenda ha] at h; cases h; exact .reset p rest ha
    | reg x =>
      rw [step_of_agenda ha] at h
      simp only [handle, transact] at h
      by_cases hw : x.wf = true
      · rw [if_pos hw] at h
        cases hd : x.dir with
        | read =>
          simp only [hd, hostRead] at h
          split at h
          · cases h
          · cases h; exact .answered _ _ rest ha
        | write =>
          have hx := transaction_eq_wr hw hd
          have ha' : s.agenda = wr x.off x.data :: rest := by rw [ha, hx]
          have h0 : x.off.extractLsb' 0 2 = 0 := by
            simp only [Transaction.wf, Bool.and_eq_true, decide_eq_true_eq] at hw; exact hw.2
          simp only [hd, hostWrite] at h
          split at h
          · next hl =>
            have hoff := locate_eq_cmd h0 hl
            rw [hoff] at ha'
            simp only [writeCmd] at h
            have hbs : (State.answer .ack { s with agenda := rest }).status = s.status := rfl
            rw [hbs] at h
            cases hb : s.status.busy with
            | true => simp only [hb, if_true] at h; cases h; exact .rejected _ rest .busy ha' (by simp) (.inl ⟨hb, rfl⟩)
            | false =>
              simp only [hb] at h
              cases hdec : decode x.data with
              | error e =>
                simp only [hdec] at h; cases h
                exact .rejected _ rest e ha' (decode_error_ne_noError hdec) (.inr ⟨hb, .inl hdec⟩)
              | ok i =>
                simp only [hdec, exec_idle (s := State.answer .ack { s with agenda := rest }) hb] at h
                rcases issue_cases i (State.answer .ack { s with agenda := rest }) with
                  ⟨e, he, e'⟩ | ⟨-, -, e'⟩ | ⟨-, -, -, e'⟩ | ⟨hi, -, -, e'⟩
                · simp only [e'] at h; cases h
                  exact .rejected _ rest e ha' (operandError_ne_noError he) (.inr ⟨hb, .inr ⟨i, hdec, he⟩⟩)
                · simp [e'] at h
                · simp [e'] at h
                · simp only [e'] at h; cases h
                  exact .accepted _ rest i ha' hb hdec hi
          · next hl => cases h; exact .written x.off x.data rest ha' h0 hl
      · rw [if_neg hw] at h; cases h; exact .answered _ _ rest ha

/-- A run goes on from the next state. -/
theorem run_next {s t : State} (h : step s = .next t) (k : Nat) :
    Sys2Proof.core.run (k + 1) s = Sys2Proof.core.run k t := by
  have h' : Sys2Proof.core.step s = .next t := h
  simp only [Host.Core.run, h']

/-- A run ends at a fault. -/
theorem run_fault {s : State} {f : Fault} (h : step s = .fault f) (k : Nat) :
    Sys2Proof.core.run (k + 1) s = .fault f := by
  have h' : Sys2Proof.core.step s = .fault f := h
  simp only [Host.Core.run, h']

end Sys2Proof.Machine
end

