-- ==== Sys2Proof/Tests/Slice0.lean ====
section
/-! SUPPORT. Tests: ill-formed terms the checks refuse, words decoded by hand, one step of each command on a small state, and
for every statement of Obligations.lean a concrete state that meets its hypotheses. Expected results are the spec's own
vectors (95_test_vectors.md) or hand calculation from its rules. -/

namespace Sys2Proof.Tests

open Sys2Proof Sys2Proof.Machine

-- one theorem after another: many kernel evaluations at once ask for more threads than the memory limit allows
set_option Elab.async false

/-! ## Helpers -/

/-- A field of the next state, if there is one. -/
def after {α : Type} (o : Host.Outcome State Fault Refusal) (f : State → α) : Option α :=
  match o with
  | .next t => some (f t)
  | .fault _ => none
  | .refused _ => none

/-- The fault a step ends in, if it does. -/
def faultOf (o : Host.Outcome State Fault Refusal) : Option Fault :=
  match o with
  | .next _ => none
  | .fault f => some f
  | .refused _ => none

/-- The table of V-L5: lane R identity, lane G inverse, lanes B and A zero. -/
def invTable : Table LutEntry :=
  Table.fill fun i => { r := .val i, g := .val (255#8 - i), b := .val 0#8, a := .val 0#8 }

/-- The table of V-L7: entry `i` is i+1, i+2, i+3, i+4 modulo 256. -/
def stepTable : Table LutEntry :=
  Table.fill fun i => { r := .val (i + 1#8), g := .val (i + 2#8), b := .val (i + 3#8), a := .val (i + 4#8) }

/-- A set-up machine: two elements, the source at 0x2000, the destination at 0x3000, the table at 0x1000; the next element
chosen is number 1. Bytes 0x1004 to 0x1007 are those of V-L4's word 1; the source holds the samples 00 80 FF 07, a pixel
FF FF FF FF, and the pattern of 400.0. -/
def base : State :=
  { State.reset with
    srcAddr := 0x2000#32, dstAddr := 0x3000#32, width := 2#16, height := 1#16, lutAddr := 0x1000#32
    lut := Table.fill LutEntry.splat, hist := zeroHist, picks := [1]
    mem := [(0x1004, 0x04#8), (0x1005, 0x05#8), (0x1006, 0x06#8), (0x1007, 0x07#8),
      (0x2000, 0x00#8), (0x2001, 0x80#8), (0x2002, 0xFF#8), (0x2003, 0x07#8),
      (0x2004, 0xFF#8), (0x2005, 0xFF#8), (0x2006, 0xFF#8), (0x2007, 0xFF#8),
      (0x2008, 0x00#8), (0x2009, 0x00#8), (0x200A, 0x00#8), (0x200B, 0x00#8),
      (0x200C, 0x00#8), (0x200D, 0x00#8), (0x200E, 0x79#8), (0x200F, 0x40#8)] }

/-- The set-up machine running `i`. -/
def running (i : Instr) : State := base.accept i

/-- The same with every memory access of size `bytes` in direction `dir` at `addr` answered with an error. -/
def failing (addr bytes : Nat) (dir : Dir) (s : State) : State :=
  { s with platform := { s.platform with memErr := [{ addr := addr, bytes := bytes, dir := dir }] } }

def applyU8 : Instr := .applyLutU8 .g 0#4 false false
def applyRgba : Instr := .applyLutRgba .r 0xF#4 false false
def lutLoadF : Instr := .lutLoad 0#2 .r 0xF#4 false false
def histU8 : Instr := .histU8 .r 0#4 false false
def histRgba : Instr := .histRgba .g 0#4 false false
def satCmd : Instr := .sat 0#2 .r 0#4 false false
def nopCmd : Instr := .nop 0#2 .r 0#4 false false
def cdfCmd : Instr := .cdf 0#2 .r 0#4 false false

/-! ## Ill-formed terms the checks refuse (WellFormed.lean) -/

theorem test_byte_write_ill_formed :
    Transaction.wf { dir := .write, width := .w8, off := 0x00C#12, data := 0#32 } = false := by decide

theorem test_halfword_read_ill_formed :
    Transaction.wf { dir := .read, width := .w16, off := 0x004#12, data := 0#32 } = false := by decide

theorem test_misaligned_word_ill_formed :
    Transaction.wf { dir := .read, width := .w32, off := 0x006#12, data := 0#32 } = false := by decide

theorem test_store_past_top_ill_formed : Event.wf (.memStore 0xFFFFFFFF#32 [0#8, 0#8]) = false := by decide

theorem test_load_past_top_ill_formed : Event.wf (.memLoad 0xFFFFFFFE#32 3) = false := by decide

theorem test_well_formed_events : Event.wf (wr 0x00C#12 0#32) = true ∧ Event.wf (.memStore 0xFFFFFFFF#32 [0#8]) = true := by
  decide

theorem test_store_past_top_faults :
    faultOf (step (State.reset.facing (.memStore 0xFFFFFFFF#32 [0#8, 0#8]))) = some .noSuchAddress := by decide +kernel

/-! ## Decoding: words written out from R72 and the opcode table -/

-- fields, from the left: reserved [31:14], ACC [13], PAR [12], LMASK [11:8], CHSEL [7:6], FMT [5:4], OPC [3:0]
theorem test_decode_nop :
    decode 0b000000000000000000_1_1_1111_11_11_0000#32 = .ok (.nop 3#2 .a 0xF#4 true true) := by decide

theorem test_decode_lutIdent :
    decode 0b000000000000000000_0_0_1111_00_00_0001#32 = .ok (.lutIdent 0#2 .r 0xF#4 false false) := by decide

theorem test_decode_lutLoad :
    decode 0b000000000000000000_0_0_0101_00_00_0010#32 = .ok (.lutLoad 0#2 .r 0x5#4 false false) := by decide

theorem test_decode_applyLutU8 :
    decode 0b000000000000000000_0_0_0000_01_00_0011#32 = .ok (.applyLutU8 .g 0#4 false false) := by decide

theorem test_decode_applyLutRgba :
    decode 0b000000000000000000_0_1_1111_00_01_0011#32 = .ok (.applyLutRgba .r 0xF#4 true false) := by decide

theorem test_decode_histU8 :
    decode 0b000000000000000000_1_0_0000_00_00_0100#32 = .ok (.histU8 .r 0#4 false true) := by decide

theorem test_decode_histRgba :
    decode 0b000000000000000000_0_0_0000_11_01_0100#32 = .ok (.histRgba .a 0#4 false false) := by decide

theorem test_decode_cdf :
    decode 0b000000000000000000_0_0_0000_00_00_0101#32 = .ok (.cdf 0#2 .r 0#4 false false) := by decide

theorem test_decode_histClear :
    decode 0b000000000000000000_0_0_0000_00_00_0110#32 = .ok (.histClear 0#2 .r 0#4 false false) := by decide

theorem test_decode_sat :
    decode 0b000000000000000000_0_0_0000_00_11_0111#32 = .ok (.sat 3#2 .r 0#4 false false) := by decide

-- V-C3, V-C4, V-C5, V-C6 and the first unassigned opcode
theorem test_decode_rejects :
    decode 0x00004001#32 = .error .badOpc ∧ decode 0x80000000#32 = .error .badOpc ∧
    decode 0x00000008#32 = .error .badOpc ∧ decode 0x00000023#32 = .error .badFmt ∧
    decode 0x00000034#32 = .error .badFmt := by decide

-- byte lanes of the bus (R70): lane 0 carries bits [7:0]; the word is 0x0F13
theorem test_decode_lanes : decodeLanes 0x13#8 0x0F#8 0x00#8 0x00#8 = .ok applyRgba := by decide

theorem test_disassemble :
    disassemble (.applyLutRgba .r 0xF#4 true false) = "APPLY_LUT.RGBA mask=F par" ∧
    disassemble (.histRgba .b 0#4 false true) = "HIST.RGBA ch=B acc" := by decide +kernel

theorem test_fetch_word_runs_first :
    after (step (State.reset.withFetchWord 32 0x0F01)) (fun t => (t.lastCmd, t.status.busy)) = some (0x0F01#32, true) := by
  decide +kernel

/-! ## One step of each command -/

-- V-C8: NOP with every ignored bit set is accepted, LAST_CMD reads back the whole word, and it completes
theorem test_nop_accepted :
    after (exec (.nop 3#2 .a 0xF#4 true true) base) (fun t => (t.lastCmd, t.status.word)) =
      some (0x3FF0#32, 0x01#32) := by decide +kernel

theorem test_nop_completes : after (exec nopCmd (running nopCmd)) (fun t => t.status.word) = some 0x02#32 := by
  decide +kernel

-- V-L1
theorem test_lutIdent :
    after (exec (.lutIdent 0#2 .r 0xF#4 false false) ((State.reset).accept (.lutIdent 0#2 .r 0xF#4 false false)))
      (fun t => ((t.lut.get 0x80#8).toWord?, t.status.word, t.progress)) =
      some (some 0x80808080#32, 0x02#32, 256#32) := by decide +kernel

-- V-L2: with mask 1 the other lanes stay UNSPEC
theorem test_lutIdent_mask :
    after (exec (.lutIdent 0#2 .r 1#4 false false) ((State.reset).accept (.lutIdent 0#2 .r 1#4 false false)))
      (fun t => ((t.lut.get 5#8).r, (t.lut.get 5#8).a)) = some (.val 5#8, .unspec) := by decide +kernel

-- V-L4, entry 1
theorem test_lutLoad :
    after (exec (.lutLoad 0#2 .r 5#4 false false) (running (.lutLoad 0#2 .r 5#4 false false)))
      (fun t => ((t.lut.get 1#8).toWord?, t.cur.done)) = some (some 0x01060104#32, [1]) := by decide +kernel

-- V-L5: sample 0x80 through the inverse lane
theorem test_applyLutU8 :
    after (exec applyU8 { running applyU8 with lut := invTable }) (fun t => (t.mem.byte 0x3001, t.progress)) =
      some (some 0x7F#8, 1#32) := by decide +kernel

-- V-L7, second pixel
theorem test_applyLutRgba :
    after (exec applyRgba { running applyRgba with lut := stepTable })
      (fun t => (t.mem.byte 0x3004, t.mem.byte 0x3005, t.mem.byte 0x3006, t.mem.byte 0x3007)) =
      some (some 0x00#8, some 0x01#8, some 0x02#8, some 0x03#8) := by decide +kernel

-- V-L8, mask 7: A kept
theorem test_applyLutRgba_mask :
    after (exec (.applyLutRgba .r 7#4 false false)
        { running (.applyLutRgba .r 7#4 false false) with lut := stepTable })
      (fun t => (t.mem.byte 0x3006, t.mem.byte 0x3007)) = some (some 0x02#8, some 0xFF#8) := by decide +kernel

-- V-H1, sample 0x80
theorem test_histU8 :
    after (exec histU8 (running histU8)) (fun t => (t.hist.get 0x80#8, t.hist.get 0#8)) =
      some (.val 1#32, .val 0#32) := by decide +kernel

-- V-H6: the counter wraps and HOVF rises; one element is left, so BUSY stays
theorem test_histU8_wraps :
    after (exec (.histU8 .r 0#4 false true)
        { (running (.histU8 .r 0#4 false true)) with hist := zeroHist.set 0x80#8 (.val 0xFFFFFFFF#32) })
      (fun t => (t.hist.get 0x80#8, t.status.word)) = some (.val 0#32, 0x09#32) := by decide +kernel

-- V-H4's shape: channel G of the second pixel (FF FF FF FF)
theorem test_histRgba :
    after (exec histRgba (running histRgba)) (fun t => t.hist.get 0xFF#8) = some (.val 1#32) := by decide +kernel

-- V-D4
theorem test_cdf :
    after (exec cdfCmd { running cdfCmd with hist := (zeroHist.set 0#8 (.val 0xFFFFFFFF#32)).set 1#8 (.val 1#32) })
      (fun t => (t.cdf.get 0#8, t.cdf.get 1#8, t.cdf.get 255#8, t.status.word)) =
      some (.val 0xFFFFFFFF#32, .val 0#32, .val 0#32, 0x0A#32) := by decide +kernel

-- V-D7
theorem test_cdf_counts :
    after (exec cdfCmd { running cdfCmd with hist := Table.fill fun _ => .val 1#32 })
      (fun t => (t.cdf.get 0#8, t.cdf.get 255#8, t.status.hovf)) = some (.val 1#32, .val 256#32, false) := by
  decide +kernel

-- V-H8
theorem test_histClear :
    after (exec (.histClear 0#2 .r 0#4 false false) ((State.reset).accept (.histClear 0#2 .r 0#4 false false)))
      (fun t => (t.hist.get 7#8, t.hist.get 255#8, t.progress)) = some (.val 0#32, .val 0#32, 256#32) := by
  decide +kernel

-- V-S3, the sample 400.0
theorem test_sat :
    after (exec satCmd (running satCmd)) (fun t => t.mem.byte 0x3001) = some (some 0xFF#8) := by decide +kernel

-- V-S1, rows 4, 5, 7, 9, 11, 17, 18, 20
theorem test_sat_patterns :
    sat (f64 0x3FDFFFFFFFFFFFFF#64) = 0x00#8 ∧ sat (f64 0x3FE0000000000000#64) = 0x01#8 ∧
    sat (f64 0x4004000000000000#64) = 0x03#8 ∧ sat (f64 0x406FCFFFFFFFFFFF#64) = 0xFE#8 ∧
    sat (f64 0x406FD00000000000#64) = 0xFF#8 ∧ sat (f64 0xBFE0000000000000#64) = 0x00#8 ∧
    sat (f64 0xFFF0000000000000#64) = 0x00#8 ∧ sat (f64 0xFFF0000000000001#64) = 0x00#8 := by decide +kernel

-- V-C26: write-1-to-clear
theorem test_status_write :
    let st : Status := { busy := false, done := true, error := true, hovf := true, errcode := .busy }
    st.word = 0x3E#32 ∧ (st.cleared 0x02#32).word = 0x3C#32 ∧ ((st.cleared 0x02#32).cleared 0x04#32).word = 0x08#32 ∧
      (((st.cleared 0x02#32).cleared 0x04#32).cleared 0x08#32).word = 0x00#32 := by decide

-- V-C22: BUSY is checked before decoding
theorem test_busy_before_decode :
    after (step ((running histU8).facing (wr 0x00C#12 0x00000008#32))) (fun t => t.status.word) = some 0x35#32 := by
  decide +kernel

/-! ## Witnesses: for every statement with hypotheses, a state and operands that meet them all -/

/-- A command running on the set-up machine meets the invariant. -/
theorem witness_inv_running (i : Instr) (h : base.issueError i = none) : Inv (running i) := by
  have hc : ∀ (w h : BitVec 16), i.count w h ≤ 4294836225 := by
    intro w h
    have h1 := w.isLt
    have h2 := h.isLt
    have : w.toNat * h.toNat ≤ 65535 * 65535 := Nat.mul_le_mul (by omega) (by omega)
    cases i <;> simp [Instr.count, pixels] <;> omega
  refine ⟨?_, ⟨List.Pairwise.nil, fun _ h => nomatch h⟩, List.Pairwise.nil, fun _ h => (nomatch h), rfl, hc _ _, ⟨fun _ => rfl, fun _ => rfl⟩, fun _ => rfl, fun _ => ?_,
    fun _ => ⟨rfl, rfl, rfl, rfl, rfl⟩, fun _ => h⟩
  · show Memory.wf base.mem
    exact ⟨by decide +kernel, by decide +kernel⟩
  · show i.count _ _ = 0 ∨ 0 < i.count _ _
    omega

theorem witness_left (i : Instr) (h : 0 < i.count base.width base.height) : (running i).elementLeft := ⟨rfl, h⟩

theorem witness_EncodeDecodeRoundTrip : decode 0x00001F13#32 = .ok (.applyLutRgba .r 0xF#4 true false) := by decide

-- OPC 7 and 8, reserved bits 14 and 31, FMT 1, 2 and 3, and an accepted word
theorem witness_DecodeRejectsAndReadsFields :
    decode 0x00000007#32 = .ok (.sat 0#2 .r 0#4 false false) ∧ decode 0x00000008#32 = .error .badOpc ∧
    decode 0x0000000F#32 = .error .badOpc ∧ decode 0x00004000#32 = .error .badOpc ∧
    decode 0x80000003#32 = .error .badOpc ∧ decode 0x00000013#32 = .ok (.applyLutRgba .r 0#4 false false) ∧
    decode 0x00000023#32 = .error .badFmt ∧ decode 0x00000034#32 = .error .badFmt := by decide

theorem witness_CmdWriteRunsDecodedCommand : base.status.busy = false ∧ decode 0x00000F13#32 = .ok applyRgba := by decide

theorem witness_EngineTurnRunsLatchedCommand :
    (running nopCmd).status.busy = true ∧ (running nopCmd).agenda = [] ∧ base.status.busy = false ∧ base.agenda = [] := by
  decide

theorem witness_OnlyCmdWriteStartsWork :
    (base.facing (cmdEvent nopCmd)).status.busy = false ∧
    after (step (base.facing (cmdEvent nopCmd))) (fun t => t.status.busy) = some true := by decide +kernel

-- after reset, a CMD write makes the block busy
theorem witness_ResetSetsRegisters :
    after (step ((State.afterReset none (running applyU8)).facing (wr 0x00C#12 0#32))) (fun t => t.status.busy) =
      some true := by decide +kernel

-- the three ways a command ends: reset, completion, abort
theorem witness_RunningCommandEndsOnlyBy :
    (running nopCmd).status.busy = true ∧
    after (step ((running nopCmd).facing (.reset none))) (fun t => t.status.busy) = some false ∧
    after (step (running nopCmd)) (fun t => (t.status.busy, t.status.done)) = some (false, true) ∧
    after (step (failing 0x2001 1 .read (running histU8))) (fun t => (t.status.busy, t.status.error, t.status.done)) =
      some (false, true, false) := by decide +kernel

theorem witness_ResetDuringCommand : (running applyU8).elementLeft := witness_left _ (by decide)

-- R211: the last source byte's read in flight, and the last destination byte's write, leave no known value; others stay
theorem test_reset_in_flight :
    after (step ((running histU8).facing (.reset (some { dir := .read, pick := 1 }))))
      (fun t => (t.mem.byte 0x2000, t.mem.byte 0x2001, t.mem.byte 0x2002)) =
      some (some 0x00#8, none, some 0xFF#8) ∧
    after (step (({ running applyU8 with mem := [(0x3000, 5#8), (0x3001, 6#8)] } : State).facing
        (.reset (some { dir := .write, pick := 1 })))) (fun t => (t.mem, t.status.word)) =
      some ([(0x3000, 5#8)], 0#32) := by decide +kernel

theorem witness_IllFormedTransaction :
    (({ dir := .write, width := .w8, off := 0x00C#12, data := 0#32 } : Transaction).width ≠ .w32) ∧
    (({ dir := .read, width := .w32, off := 0x001#12, data := 0#32 } : Transaction).off.extractLsb' 0 2 ≠ 0) ∧
    (({ dir := .read, width := .w32, off := 0xFFE#12, data := 0#32 } : Transaction).off.extractLsb' 0 2 ≠ 0) := by decide

-- a readable location, and an UNSPEC cell (V-D6)
theorem witness_HostReadHasNoSideEffect :
    (0x000#12).extractLsb' 0 2 = 0 ∧ base.readAt (locate 0x000#12) = .ok 0x4C555401#32 ∧
    (0x800#12).extractLsb' 0 2 = 0 ∧ base.readAt (locate 0x800#12) = .error .unwrittenRead := by decide +kernel

-- the first and the last reserved offset
theorem witness_RegisterMapReads :
    ((0x034#12).extractLsb' 0 2 = 0 ∧ 0x034 ≤ (0x034#12).toNat ∧ (0x034#12).toNat ≤ 0x3FC) ∧
    ((0x3FC#12).extractLsb' 0 2 = 0 ∧ 0x034 ≤ (0x3FC#12).toNat ∧ (0x3FC#12).toNat ≤ 0x3FC) := by decide

theorem witness_RegisterMapReads_windows :
    base.hist.get 255#8 = .val 0#32 ∧
    ({ base with cdf := Table.fill fun _ => .val 0x12345678#32 } : State).cdf.get 0#8 = .val 0x12345678#32 ∧
    (stepTable.get 0#8).lane .r = .val 1#8 ∧ (stepTable.get 0#8).lane .g = .val 2#8 ∧
    (stepTable.get 0#8).lane .b = .val 3#8 ∧ (stepTable.get 0#8).lane .a = .val 4#8 := by decide +kernel

-- R38: lane R in bits [7:0]
theorem test_lut_window_read :
    ({ base with lut := stepTable } : State).readAt (locate 0xC00#12) = .ok 0x04030201#32 := by decide +kernel

theorem witness_RwiWritesGatedByBusy : base.status.busy = false ∧ (running histU8).status.busy = true := by decide

-- ID, PROGRESS, SAT_OUT, the first and last CDF word, the first and last reserved offset
theorem witness_ReadOnlyWritesIgnored :
    (0x800#12 = BitVec.ofNat 12 (0x800 + 4 * (0#8).toNat)) ∧ (0xBFC#12 = BitVec.ofNat 12 (0x800 + 4 * (255#8).toNat)) ∧
    ((0x034#12).extractLsb' 0 2 = 0 ∧ 0x034 ≤ (0x034#12).toNat ∧ (0x034#12).toNat ≤ 0x3FC) ∧
    ((0x3FC#12).extractLsb' 0 2 = 0 ∧ 0x034 ≤ (0x3FC#12).toNat ∧ (0x3FC#12).toNat ≤ 0x3FC) := by decide

theorem witness_WindowWriteReadsBack : base.status.busy = false := by decide

theorem witness_CmdWriteWhileBusyRejected : (running histU8).status.busy = true := by decide

-- a word rejected by decoding, and one rejected by an operand check (V-C16)
theorem witness_RejectedWordChangesOnlyError :
    base.status.busy = false ∧ decode 0x00000008#32 = .error .badOpc ∧ decode 0x00000007#32 = .ok satCmd ∧
    ({ base with dstAddr := 0x2000#32 } : State).issueError satCmd = some .overlap ∧
    ({ base with status := { base.status with busy := true } } : State).status.busy = true := by decide +kernel

theorem witness_AcceptanceLatchesCommand :
    base.status.busy = false ∧ base.issueError histU8 = none ∧ base.dutyBroken histU8 = false ∧
    base.needsMaintenance histU8 = false := by decide +kernel

-- an empty image by WIDTH and by HEIGHT (V-C14, V-C15), on each of the three opcodes
theorem witness_EmptyImageIsNoOp :
    applyU8.opc = 3#4 ∧ histU8.opc = 4#4 ∧ satCmd.opc = 7#4 ∧
    ({ base with width := 0#16 } : State).width = 0#16 ∧ ({ base with height := 0#16 } : State).height = 0#16 ∧
    base.status.busy = false := by decide

/-- The set-up machine with a device at the first source byte, and the same with its register window at the last
destination byte. -/
def withDevice : State := { base with platform := { base.platform with devices := [{ base := 0x1FF0, size := 17 }] } }
def withWindow : State := { base with platform := { base.platform with regBase := 0x3001 } }

theorem witness_DeviceRegionBreaksDuty :
    (withDevice.status.busy = false ∧ withDevice.issueError applyU8 = none ∧
      ({ base := 0x1FF0, size := 17 } : Region) ∈ withDevice.platform.devices ∧
      (0x1FF0 ≤ 0x2000 ∧ 0x2000 < 0x1FF0 + 17) ∧
      (withDevice.srcAddr.toNat ≤ 0x2000 ∧ 0x2000 < withDevice.srcAddr.toNat + 1 * 2)) ∧
    (withWindow.status.busy = false ∧ withWindow.issueError applyU8 = none ∧
      (withWindow.platform.regBase ≤ 0x3001 ∧ 0x3001 < withWindow.platform.regBase + 4096) ∧
      (withWindow.dstAddr.toNat ≤ 0x3001 ∧ 0x3001 < withWindow.dstAddr.toNat + 1 * 2)) := by decide +kernel

/-- The set-up machine on a non-coherent platform, where the host stored the first source and the last destination byte. -/
def nonCoherent : State :=
  { base with platform := { base.platform with coherent := false }, hostDirty := [0x2000, 0x3001] }

theorem witness_OmittedMaintenanceRefused :
    nonCoherent.status.busy = false ∧ nonCoherent.issueError applyU8 = none ∧ nonCoherent.dutyBroken applyU8 = false ∧
    nonCoherent.platform.coherent = false ∧ 0x2000 ∈ nonCoherent.hostDirty ∧ 0x3001 ∈ nonCoherent.hostDirty ∧
    (nonCoherent.srcAddr.toNat ≤ 0x2000 ∧ 0x2000 < nonCoherent.srcAddr.toNat + 1 * 2) ∧
    (nonCoherent.dstAddr.toNat ≤ 0x3001 ∧ 0x3001 < nonCoherent.dstAddr.toNat + 1 * 2) := by decide +kernel

/-- APPLY_LUT.U8 running on a non-coherent platform, its last element done and not yet visible to the host. -/
def halfDone : State :=
  { (State.accept applyU8 { nonCoherent with hostDirty := [], mem := base.mem ++ [(0x3000, 5#8), (0x3001, 6#8)] }) with
    portDirty := [0x3001] }

-- the load clauses: a byte of an ended command (busy = 0), one past the running destination, and the whole of that
theorem witness_OmittedMaintenanceRefused_loads :
    (let s : State := { nonCoherent with portDirty := [0x3001] }
     s.platform.coherent = false ∧ (0x3000#32).toNat + 2 ≤ 2 ^ 32 ∧ 0x3001 ∈ s.portDirty ∧ s.status.busy = false) ∧
    (halfDone.status.busy = true ∧ 0x3002 ∉ halfDone.portDirty ∧
      halfDone.cur.dst.toNat + halfDone.cur.cmd.dstBytes * halfDone.cur.n ≤ 0x3002) ∧
    (halfDone.cur.dst.toNat ≤ (0x3000#32).toNat ∧
      (0x3000#32).toNat + 2 ≤ halfDone.cur.dst.toNat + halfDone.cur.cmd.dstBytes * halfDone.cur.n ∧
      halfDone.hostView.byte 0x3001 = some 6#8) := by decide +kernel

-- R218: while the command runs the host may load its destination, and an element not done has its old contents; S8: once
-- the command has ended, a load needs the maintenance
theorem test_load_on_non_coherent_platform :
    after (step (halfDone.facing (.memLoad 0x3000#32 1))) (fun t => t.replies) = some [.bytes [5#8]] ∧
    after (step (halfDone.facing (.memLoad 0x3000#32 2))) (fun t => t.draws) = some 2 ∧
    after (step (({ halfDone with status := Status.completed halfDone.status } : State).facing
      (.memLoad 0x3000#32 2))) (fun t => t.draws) = none := by decide +kernel

theorem witness_NopCompletes :
    base.status.busy = false ∧ (running nopCmd).status.busy = true ∧ (0x00003FF0#32).extractLsb' 14 18 = 0 ∧ (0x00003FF0#32).extractLsb' 0 4 = 0 := by
  decide

theorem witness_LutIdentFillsSelectedLanes :
    (running (.lutIdent 0#2 .r 5#4 false false)).status.busy = true := by decide

theorem witness_HistClearZeroesCounters :
    (running (.histClear 0#2 .r 0#4 false false)).status.busy = true := by decide

theorem witness_CdfStoresPrefixSums :
    (running cdfCmd).status.busy = true ∧ ∀ i : Byte, (running cdfCmd).hist.get i = .val ((fun _ => 0#32) i) := by
  decide +kernel

theorem witness_LutLoadElementLoadsLanes : (running lutLoadF).elementLeft ∧
    (running lutLoadF).memOk ((running lutLoadF).cur.lut.toNat + 4 * (running lutLoadF).element) 4 .read = true :=
  ⟨witness_left _ (by decide), by decide +kernel⟩

theorem witness_ApplyU8ElementLooksUpLane : (running applyU8).elementLeft ∧
    (running applyU8).memOk ((running applyU8).cur.src.toNat + (running applyU8).element) 1 .read = true ∧
    (running applyU8).memOk ((running applyU8).cur.dst.toNat + (running applyU8).element) 1 .write = true ∧
    ((running applyU8).lut.get (((running applyU8).seen
      ((running applyU8).cur.src.toNat + (running applyU8).element) 1).getD 0 0#8)).lane .g = .val 0x80#8 :=
  ⟨witness_left _ (by decide), by decide +kernel, by decide +kernel, by decide +kernel⟩

/-- APPLY_LUT.RGBA with mask 7 on the set-up machine with the table of V-L7. -/
def rgbaRun : State := { running (.applyLutRgba .r 7#4 false false) with lut := stepTable }

/-- The output channels of its second pixel (V-L8): 00 01 02 FF. -/
def rgbaOut : Channel → Byte
  | .r => 0x00#8
  | .g => 0x01#8
  | .b => 0x02#8
  | .a => 0xFF#8

theorem witness_ApplyRgbaElementLooksUpChannels : rgbaRun.elementLeft ∧
    rgbaRun.memOk (rgbaRun.cur.src.toNat + 4 * rgbaRun.element) 4 .read = true ∧
    rgbaRun.memOk (rgbaRun.cur.dst.toNat + 4 * rgbaRun.element) 4 .write = true ∧
    (∀ c : Channel, (7#4).getLsbD c.lane = true → (rgbaRun.lut.get
      (byteOf (rgbaRun.seen (rgbaRun.cur.src.toNat + 4 * rgbaRun.element) 4) c)).lane c = .val (rgbaOut c)) ∧
    (∀ c : Channel, (7#4).getLsbD c.lane = false →
      rgbaOut c = byteOf (rgbaRun.seen (rgbaRun.cur.src.toNat + 4 * rgbaRun.element) 4) c) := by
  refine ⟨⟨rfl, by decide +kernel⟩, by decide +kernel, by decide +kernel, fun c => ?_, fun c => ?_⟩ <;>
    cases c <;> decide +kernel

theorem witness_HistElementCountsOnce : (running histU8).elementLeft ∧
    (running histU8).memOk ((running histU8).cur.src.toNat + (running histU8).element) 1 .read = true ∧
    (running histU8).hist.get (((running histU8).seen
      ((running histU8).cur.src.toNat + (running histU8).element) 1).getD 0 0#8) = .val 0#32 ∧
    (running histRgba).elementLeft ∧
    (running histRgba).memOk ((running histRgba).cur.src.toNat + 4 * (running histRgba).element) 4 .read = true ∧
    (running histRgba).hist.get (byteOf ((running histRgba).seen
      ((running histRgba).cur.src.toNat + 4 * (running histRgba).element) 4) .g) = .val 0#32 :=
  ⟨witness_left _ (by decide), by decide +kernel, by decide +kernel, witness_left _ (by decide), by decide +kernel,
    by decide +kernel⟩

theorem witness_SatElementCastsSample : (running satCmd).elementLeft ∧
    (running satCmd).memOk ((running satCmd).cur.src.toNat + 8 * (running satCmd).element) 8 .read = true ∧
    (running satCmd).memOk ((running satCmd).cur.dst.toNat + (running satCmd).element) 1 .write = true :=
  ⟨witness_left _ (by decide), by decide +kernel, by decide +kernel⟩

theorem witness_ChosenElementIsUnfinished : Inv (running applyU8) ∧ (running applyU8).elementLeft :=
  ⟨witness_inv_running _ (by decide +kernel), witness_left _ (by decide)⟩

-- the first and the last element
theorem witness_AnyUnfinishedElementCanBeNext : Inv (running applyU8) ∧ (running applyU8).elementLeft ∧
    (0 < (running applyU8).cur.n ∧ 0 ∉ (running applyU8).cur.done) ∧
    (1 < (running applyU8).cur.n ∧ (running applyU8).cur.n = 2 ∧ 1 ∉ (running applyU8).cur.done) :=
  ⟨witness_inv_running _ (by decide +kernel), witness_left _ (by decide), by decide +kernel, by decide +kernel⟩

-- each of the six reading commands
theorem witness_ReadBusErrorAborts :
    (failing 0x1004 4 .read (running lutLoadF)).memOk 0x1004 4 .read = false ∧
    (failing 0x2001 1 .read (running applyU8)).memOk 0x2001 1 .read = false ∧
    (failing 0x2004 4 .read (running applyRgba)).memOk 0x2004 4 .read = false ∧
    (failing 0x2001 1 .read (running histU8)).memOk 0x2001 1 .read = false ∧
    (failing 0x2004 4 .read (running histRgba)).memOk 0x2004 4 .read = false ∧
    (failing 0x2008 8 .read (running satCmd)).memOk 0x2008 8 .read = false ∧
    (failing 0x1004 4 .read (running lutLoadF)).cur.lut.toNat + 4 * (failing 0x1004 4 .read (running lutLoadF)).element =
      0x1004 ∧
    (failing 0x2001 1 .read (running applyU8)).cur.src.toNat + (failing 0x2001 1 .read (running applyU8)).element =
      0x2001 ∧
    (failing 0x2008 8 .read (running satCmd)).cur.src.toNat + 8 * (failing 0x2008 8 .read (running satCmd)).element =
      0x2008 ∧ (failing 0x2001 1 .read (running applyU8)).elementLeft :=
  ⟨by decide +kernel, by decide +kernel, by decide +kernel, by decide +kernel, by decide +kernel, by decide +kernel,
    by decide +kernel, by decide +kernel, by decide +kernel, ⟨rfl, by decide +kernel⟩⟩

theorem witness_WriteBusErrorAborts_u8 :
    let s := failing 0x3001 1 .write (running applyU8)
    s.elementLeft ∧ 0x3001 = s.cur.dst.toNat + s.element ∧ s.memOk (s.cur.src.toNat + s.element) 1 .read = true ∧
    (s.lut.get ((s.seen (s.cur.src.toNat + s.element) 1).getD 0 0#8)).lane .g ≠ .unspec ∧
    s.memOk 0x3001 1 .write = false :=
  ⟨⟨rfl, by decide +kernel⟩, by decide +kernel, by decide +kernel, by decide +kernel, by decide +kernel⟩

theorem witness_WriteBusErrorAborts_rgba :
    let s := failing 0x3004 4 .write (running applyRgba)
    s.elementLeft ∧ 0x3004 = s.cur.dst.toNat + 4 * s.element ∧
    s.memOk (s.cur.src.toNat + 4 * s.element) 4 .read = true ∧
    (∀ c : Channel, (0xF#4).getLsbD c.lane = true →
      (s.lut.get (byteOf (s.seen (s.cur.src.toNat + 4 * s.element) 4) c)).lane c ≠ .unspec) ∧
    s.memOk 0x3004 4 .write = false := by
  refine ⟨⟨rfl, by decide +kernel⟩, by decide +kernel, by decide +kernel, fun c => ?_, by decide +kernel⟩
  cases c <;> decide +kernel

theorem witness_WriteBusErrorAborts_sat :
    let s := failing 0x3001 1 .write (running satCmd)
    s.elementLeft ∧ 0x3001 = s.cur.dst.toNat + s.element ∧
    s.memOk (s.cur.src.toNat + 8 * s.element) 8 .read = true ∧ s.memOk 0x3001 1 .write = false :=
  ⟨⟨rfl, by decide +kernel⟩, by decide +kernel, by decide +kernel, by decide +kernel⟩

/-- The set-up machine with every array cell UNSPEC. -/
def unspec (s : State) : State :=
  { s with lut := State.reset.lut, hist := State.reset.hist, cdf := State.reset.cdf }

theorem witness_UnspecCellFaults_lut :
    let s := unspec (running applyU8)
    s.elementLeft ∧ s.memOk (s.cur.src.toNat + s.element) 1 .read = true ∧
    (s.lut.get ((s.seen (s.cur.src.toNat + s.element) 1).getD 0 0#8)).lane .g = .unspec ∧
    s.memOk (s.cur.src.toNat + 4 * s.element) 4 .read = true ∧ (0xF#4).getLsbD (Channel.lane .a) = true ∧
    (s.lut.get (byteOf (s.seen (s.cur.src.toNat + 4 * s.element) 4) .a)).lane .a = .unspec ∧
    (s.lut.get 255#8).lane .a = .unspec :=
  ⟨⟨rfl, by decide +kernel⟩, by decide +kernel, by decide +kernel, by decide +kernel, by decide +kernel, by decide +kernel,
    by decide +kernel⟩

theorem witness_UnspecCellFaults_hist :
    let s := unspec (running histU8)
    s.elementLeft ∧ s.memOk (s.cur.src.toNat + s.element) 1 .read = true ∧
    s.hist.get ((s.seen (s.cur.src.toNat + s.element) 1).getD 0 0#8) = .unspec ∧
    s.memOk (s.cur.src.toNat + 4 * s.element) 4 .read = true ∧
    s.hist.get (byteOf (s.seen (s.cur.src.toNat + 4 * s.element) 4) .g) = .unspec ∧
    (s.status.busy = true ∧ s.hist.get 255#8 = .unspec) ∧ s.cdf.get 0#8 = .unspec :=
  ⟨⟨rfl, by decide +kernel⟩, by decide +kernel, by decide +kernel, by decide +kernel, by decide +kernel, by decide +kernel,
    by decide +kernel⟩

theorem witness_IgnoredFieldsDoNotMatter : (running applyRgba).status.busy = true := by decide

-- a half of either sign
theorem witness_SatRoundsHalfAwayAndClamps :
    (Real64.finite false 1 (-1)).value = some (1 / 2) ∧ (Real64.finite true 1 (-1)).value = some (-1 / 2) := by
  constructor <;> norm_num [Real64.value]

-- just below 1/2, 1/2, just below 509/2, 509/2, the integers 0 and 255, and the half above 254
theorem witness_SatThresholds :
    ((Real64.finite false 1 (-2)).value = some (1 / 4) ∧ (1 / 4 : ℚ) < 1 / 2) ∧
    ((Real64.finite false 1 (-1)).value = some (1 / 2) ∧ (1 / 2 : ℚ) ≤ 1 / 2 ∧ (1 / 2 : ℚ) < 509 / 2) ∧
    ((Real64.finite false 1017 (-2)).value = some (1017 / 4) ∧ (1 / 2 : ℚ) ≤ 1017 / 4 ∧ (1017 / 4 : ℚ) < 509 / 2) ∧
    ((Real64.finite false 509 (-1)).value = some (509 / 2) ∧ (509 / 2 : ℚ) ≤ 509 / 2) ∧
    (Real64.finite false 0 0).value = some (((0#8).toNat : ℕ) : ℚ) ∧
    (Real64.finite false 255 0).value = some (((255#8).toNat : ℕ) : ℚ) ∧
    ((254#8).toNat < 255 ∧ (Real64.finite false 509 (-1)).value = some ((((254#8).toNat : ℕ) : ℚ) + 1 / 2)) := by
  norm_num [Real64.value]

-- NaN, infinity, the largest subnormal exponent field (0), the smallest and the largest normal one (1 and 0x7FE)
theorem witness_PatternDenotesValue :
    ((0x7FF0000000000001#64).extractLsb' 52 11).toNat = 0x7FF ∧ ((0x7FF0000000000001#64).extractLsb' 0 52).toNat ≠ 0 ∧
    ((0xFFF0000000000000#64).extractLsb' 52 11).toNat = 0x7FF ∧ ((0xFFF0000000000000#64).extractLsb' 0 52).toNat = 0 ∧
    ((0x000FFFFFFFFFFFFF#64).extractLsb' 52 11).toNat = 0 ∧
    ((0x0010000000000000#64).extractLsb' 52 11).toNat = 1 ∧
    ((0x7FEFFFFFFFFFFFFF#64).extractLsb' 52 11).toNat = 0x7FE := by decide +kernel

theorem witness_PortValuesAreLittleEndian :
    0 < [0x10#8, 0x20#8].length ∧ 1 < [0x10#8, 0x20#8].length ∧ 3 < 4 ∧ 7 < 8 ∧
    base.mem.byte (0x2000 + 1) = some 0x80#8 ∧ base.memOk 0x2000 4 .read = true ∧
    base.mem.byte (0x2000 + 3) = some 0x07#8 ∧ base.memOk 0x3000 4 .write = true := by decide +kernel

-- the pixel 00 80 FF 07 as a little-endian word, and a word stored (R12, R53)
theorem test_port_little_endian :
    (base.portRead 0x2000 4).map (·.1) = some 0x07FF8000 ∧
    (match base.portWrite 0x3000 4 0x07FF8000 with
     | .ok t => some (t.mem.byte 0x3000, t.mem.byte 0x3003)
     | .busError _ => none
     | .stop _ => none) = some (some 0x00#8, some 0x07#8) := by decide +kernel

-- up to the top of the address space
theorem witness_StoreThenLoad :
    (0xFFFFFFFE#32).toNat + [1#8, 2#8].length ≤ 2 ^ 32 ∧ base.platform.coherent = true ∧
    base.ownedByEngine (0xFFFFFFFE#32).toNat [1#8, 2#8].length = false := by decide +kernel

-- the last source byte and the first destination byte of a running APPLY_LUT.U8
theorem witness_StoreIntoLiveRegionFaults :
    (running applyU8).status.busy = true ∧ (0x2001#32).toNat + [0#8].length ≤ 2 ^ 32 ∧
    ((0x2001#32).toNat ≤ 0x2001 ∧ 0x2001 < (0x2001#32).toNat + [0#8].length) ∧
    ((running applyU8).cur.src.toNat ≤ 0x2001 ∧ 0x2001 < (running applyU8).cur.src.toNat + 1 * 2) ∧
    ((0x2FFF#32).toNat ≤ 0x3000 ∧ 0x3000 < (0x2FFF#32).toNat + [0#8, 0#8].length) ∧
    ((running applyU8).cur.dst.toNat ≤ 0x3000 ∧ 0x3000 < (running applyU8).cur.dst.toNat + 1 * 2) := by decide +kernel

theorem witness_EngineWritesOnlyDestination :
    Inv (running applyU8) ∧ EngineMoves (running applyU8) (running applyU8) ∧
    after (step (running applyU8)) (fun t => decide (t.mem.byte 0x3001 ≠ (running applyU8).mem.byte 0x3001)) =
      some true :=
  ⟨witness_inv_running _ (by decide +kernel), .inl ⟨rfl, rfl⟩, by decide +kernel⟩

theorem witness_StepKeepsInvariant :
    Inv (running applyU8) ∧ after (step (running applyU8)) (fun t => t.cur.done) = some [1] :=
  ⟨witness_inv_running _ (by decide +kernel), by decide +kernel⟩

-- each array written by its command
theorem witness_ArraysHaveOnlyTheirWriters :
    after (step (unspec (running (.lutIdent 0#2 .r 0xF#4 false false)))) (fun t => (t.lut.get 3#8).r) =
      some (.val 3#8) ∧
    after (step (unspec (running (.histClear 0#2 .r 0#4 false false)))) (fun t => t.hist.get 3#8) = some (.val 0#32) ∧
    after (step (running cdfCmd)) (fun t => (t.cdf.get 3#8, base.cdf.get 3#8)) = some (.val 0#32, .unspec) := by
  decide +kernel

-- HIST written by the acceptance of HIST, and HIST and LUT by host writes to their last words; ACC = 1 keeps HIST
theorem witness_ArraysHaveOnlyTheirWriters_host :
    after (step ((unspec base).facing (cmdEvent histU8))) (fun t => t.hist.get 3#8) = some (.val 0#32) ∧
    after (step ((unspec base).facing (cmdEvent (.histU8 .r 0#4 false true)))) (fun t => t.hist.get 3#8) =
      some .unspec ∧
    after (step ((unspec base).facing (wr 0x7FC#12 9#32))) (fun t => t.hist.get 255#8) = some (.val 9#32) ∧
    after (step ((unspec base).facing (wr 0xFFC#12 9#32))) (fun t => (t.lut.get 255#8).r) = some (.val 9#8) := by
  decide +kernel

theorem witness_HovfSetOnlyByHistAndCdf :
    (running cdfCmd).status.hovf = false ∧
    after (step { running cdfCmd with hist := Table.fill fun _ => .val 0xFFFFFFFF#32 }) (fun t => t.status.hovf) =
      some true := by decide +kernel

-- V-I1 (rises at completion), V-I5 (rises at a write), V-I2 (falls at a write of STATUS)
theorem witness_IrqLevelRisesAndFalls :
    (let s : State := { running nopCmd with irqEn := { doneIe := true, errorIe := false } }
     s.irq = false ∧ after (step s) State.irq = some true) ∧
    (let s : State := { base with status := Status.completed base.status }
     s.irq = false ∧ after (step (s.facing (wr 0x008#12 1#32))) State.irq = some true) ∧
    (let s : State := { base with
        status := Status.completed base.status, irqEn := { doneIe := true, errorIe := false } }
     s.irq = true ∧ after (step (s.facing (wr 0x004#12 2#32))) State.irq = some false) := by decide +kernel

-- rises: an abort, a rejected word while idle and while busy, a dropped write of SRC_ADDR and of LUT[255]; falls: IRQ_EN
-- written 0, an accepted command, reset
theorem witness_IrqLevelRisesAndFalls_more :
    (let on : State → State := fun s => { s with irqEn := { doneIe := true, errorIe := true } }
     let done : State := on { base with status := Status.completed base.status }
     after (step (on (failing 0x2001 1 .read (running histU8)))) State.irq = some true ∧
     (on base).irq = false ∧ after (step ((on base).facing (wr 0x00C#12 8#32))) State.irq = some true ∧
     (on (running histU8)).irq = false ∧
     after (step ((on (running histU8)).facing (wr 0x00C#12 0#32))) State.irq = some true ∧
     after (step ((on (running histU8)).facing (wr 0x010#12 0#32))) State.irq = some true ∧
     after (step ((on (running histU8)).facing (wr 0xFFC#12 0#32))) State.irq = some true ∧
     done.irq = true ∧ after (step (done.facing (wr 0x008#12 0#32))) State.irq = some false ∧
     after (step (done.facing (cmdEvent nopCmd))) State.irq = some false ∧
     after (step (done.facing (.reset none))) State.irq = some false) := by decide +kernel

theorem witness_PlatformNeverChanges :
    after (step (running nopCmd)) (fun t => decide (t.platform = base.platform)) = some true := by decide +kernel

theorem witness_CommandsEnd :
    Inv (running applyU8) ∧ (running applyU8).status.busy = true ∧ (running applyU8).agenda = [] :=
  ⟨witness_inv_running _ (by decide +kernel), rfl, rfl⟩

-- the two samples 00 80 through the identity table
theorem witness_ApplyU8TransformsImage :
    let s := running applyU8
    let v : Nat → Byte := fun k => if k = 0 then 0x00#8 else 0x80#8
    Inv s ∧ s.status.busy = true ∧ s.cur.cmd = applyU8 ∧ s.cur.done = [] ∧ 0 < s.cur.n ∧ s.agenda = [] ∧ s.memAllOk ∧
    (∀ k < s.cur.n, s.mem.byte (s.cur.src.toNat + k) = some (v k)) ∧
    (∀ k < s.cur.n, (s.lut.get (v k)).lane .g = .val (v k)) :=
  ⟨witness_inv_running _ (by decide +kernel), rfl, rfl, rfl, by decide, rfl, rfl, by decide +kernel, by decide +kernel⟩

-- the two pixels 00 80 FF 07 and FF FF FF FF, mask 5, through the identity table
theorem witness_ApplyRgbaTransformsImage :
    let s := running (.applyLutRgba .r 5#4 false false)
    let v : Nat → Channel → Byte := fun k c => byteOf (if k = 0 then [0x00#8, 0x80#8, 0xFF#8, 0x07#8] else
      [0xFF#8, 0xFF#8, 0xFF#8, 0xFF#8]) c
    Inv s ∧ s.status.busy = true ∧ s.cur.cmd = .applyLutRgba .r 5#4 false false ∧ s.cur.done = [] ∧ 0 < s.cur.n ∧
    s.agenda = [] ∧ s.memAllOk ∧
    (∀ k < s.cur.n, ∀ c : Channel, s.mem.byte (s.cur.src.toNat + 4 * k + c.lane) = some (v k c)) ∧
    (∀ k < s.cur.n, ∀ c : Channel, (5#4).getLsbD c.lane = true → (s.lut.get (v k c)).lane c = .val (v k c)) ∧
    (∀ k < s.cur.n, ∀ c : Channel, (5#4).getLsbD c.lane = false → v k c = v k c) := by
  refine ⟨witness_inv_running _ (by decide +kernel), rfl, rfl, rfl, by decide, rfl, rfl, fun k hk c => ?_,
    fun k hk c => ?_, fun _ _ _ _ => rfl⟩ <;>
  · have h2 : k < 2 := hk
    interval_cases k <;> cases c <;> decide +kernel

theorem witness_HistU8CountsImage :
    let s := running histU8
    let v : Nat → Byte := fun k => if k = 0 then 0x00#8 else 0x80#8
    Inv s ∧ s.status.busy = true ∧ s.cur.cmd = .histU8 .r 0#4 false false ∧ s.cur.done = [] ∧ 0 < s.cur.n ∧
    s.agenda = [] ∧ s.memAllOk ∧ (∀ b : Byte, s.hist.get b = .val 0#32) ∧
    (∀ k < s.cur.n, s.mem.byte (s.cur.src.toNat + k) = some (v k)) :=
  ⟨witness_inv_running _ (by decide +kernel), rfl, rfl, rfl, by decide, rfl, rfl, by decide +kernel, by decide +kernel⟩

end Sys2Proof.Tests
end

section
/-! PROOFS. The scope family: what the memory port moves is little-endian (R12, R54), another agent's store is what a load then
reads on a coherent platform (R8, R50, R67, R218), and the platform's parameters never change (R7, R46). -/

namespace Sys2Proof.Machine

/-! ## Little-endian values (R12, R54) -/

/-- Byte `j` of a composed value is byte `j` of the list. -/
theorem leNat_div_mod {bs : List Byte} {j : Nat} (h : j < bs.length) :
    leNat bs / 256 ^ j % 256 = (bs.getD j 0#8).toNat := by
  induction bs generalizing j with
  | nil => simp at h
  | cons b bs ih =>
    have hb := b.isLt
    cases j with
    | zero =>
      simp only [leNat, pow_zero, Nat.div_one, List.getD_cons_zero]
      omega
    | succ j =>
      have hdrop : leNat (b :: bs) / 256 = leNat bs := by
        simp only [leNat]
        omega
      rw [Nat.pow_succ', ← Nat.div_div_eq_div_mul, hdrop, List.getD_cons_succ]
      exact ih (by simpa using h)

/-- Byte `j` of the little-endian bytes of a value. -/
theorem leBytes_getD {len j : Nat} (v : Nat) (h : j < len) :
    (leBytes len v).getD j 0#8 = BitVec.ofNat 8 (v / 256 ^ j) := by
  induction len generalizing v j with
  | zero => omega
  | succ len ih =>
    cases j with
    | zero => simp [leBytes]
    | succ j =>
      rw [leBytes, List.getD_cons_succ, ih _ (by omega), Nat.div_div_eq_div_mul, Nat.pow_succ']

/-- A byte of known value is loaded as it is, whatever the others are (log 4). -/
theorem load_getD {m : Memory} {x len k : Nat} {b : Byte} (d : Nat) (hk : k < len) (h : m.byte (x + k) = some b) :
    (m.load d x len).getD k 0#8 = b := by
  induction len generalizing d x k with
  | zero => omega
  | succ len ih =>
    cases k with
    | zero =>
      rw [Nat.add_zero] at h
      simp [Memory.load, h]
    | succ k =>
      rw [Memory.load, List.getD_cons_succ]
      exact ih (d + 1) (by omega) (by rwa [Nat.add_right_comm])

/-- A port read that completes: its value fits in the width, and holds every byte that memory knows at its place (R12). -/
theorem portRead_ok {s : State} {addr len : Nat} (h : s.memOk addr len .read = true) :
    ∃ v, s.portRead addr len = some (v, { s with draws := s.draws + len }) ∧ v < 256 ^ len ∧
      ∀ (j : Nat) (b : Byte), j < len → s.mem.byte (addr + j) = some b → v / 256 ^ j % 256 = b.toNat := by
  refine ⟨leNat (s.mem.load s.draws addr len), if_pos h, ?_, fun j b hj hb => ?_⟩
  · simpa using leNat_lt (s.mem.load s.draws addr len)
  · rw [leNat_div_mod (by simpa using hj), load_getD s.draws hj hb]

/-- A port write that completes: each byte of the value at its place, and every other byte kept (R12). -/
theorem portWrite_ok {s : State} {addr len : Nat} (v : Nat) (h : s.memOk addr len .write = true) :
    ∃ t, s.portWrite addr len v = .ok t ∧
      (∀ j : Nat, j < len → t.mem.byte (addr + j) = some (BitVec.ofNat 8 (v / 256 ^ j))) ∧
      (∀ x : Nat, x < addr ∨ addr + len ≤ x → t.mem.byte x = s.mem.byte x) := by
  refine ⟨_, if_pos h, fun j hj => ?_, fun x hx => ?_⟩ <;>
    rw [markPort_mem, Memory.byte_putBytes, leBytes_length]
  · rw [if_pos (by omega), Nat.add_sub_cancel_left, leBytes_getD v hj]
  · rw [if_neg (by omega)]

/-- Settles O48: the values and the bytes compose and split as R54 says, and a port access that completes moves them so. -/
theorem portValuesAreLittleEndian : Obligations.PortValuesAreLittleEndian := by
  refine ⟨fun _ _ => leNat_div_mod, fun len v j hj => ?_, fun _ d _ _ _ _ => load_getD d, fun _ _ _ => portRead_ok,
    fun _ _ _ v => portWrite_ok v⟩
  rw [leBytes_getD v hj, BitVec.toNat_ofNat]

/-! ## Another agent's stores and loads (R218) -/

/-- A store below the top of memory that touches no region of a running command lands (R50, R218). -/
theorem step_memStore {addr : Word} {bytes : List Byte} {s : State} (hs : addr.toNat + bytes.length ≤ 2 ^ 32)
    (ho : s.ownedByEngine addr.toNat bytes.length = false) :
    ∃ t, step (s.facing (.memStore addr bytes)) = .next t ∧ t.mem = s.mem.putBytes addr.toNat bytes ∧
      t.platform = s.platform ∧ t.replies = s.replies := by
  have hspan : spanExists addr bytes.length = true := decide_eq_true hs
  simp [step_facing, handle, memStore, hspan, ho]

/-- On a coherent platform no load waits for maintenance (R67). -/
theorem staleForHost_coherent {s : State} (h : s.platform.coherent = true) (addr len : Nat) :
    s.staleForHost addr len = false := by
  simp [State.staleForHost, h]

/-- On a coherent platform a load below the top of memory is answered with the bytes seen, and memory is kept (R50, R67). -/
theorem step_memLoad {addr : Word} {len : Nat} {s : State} (hs : addr.toNat + len ≤ 2 ^ 32)
    (hc : s.platform.coherent = true) :
    ∃ t, step (s.facing (.memLoad addr len)) = .next t ∧ t.replies = .bytes (s.hostLoad addr.toNat len) :: s.replies ∧
      t.mem = s.mem := by
  have hspan : spanExists addr len = true := decide_eq_true hs
  simp [step_facing, handle, memLoad, hspan, staleForHost_coherent hc]

/-- A load over bytes that are all seen with known values gives them. -/
theorem hostLoad_known {s : State} {a : Nat} {bytes : List Byte}
    (h : ∀ j < bytes.length, s.hostByte a (a + j) = some (bytes.getD j 0#8)) : s.hostLoad a bytes.length = bytes := by
  refine List.ext_getElem (hostLoad_length ..) fun j hj hj' => ?_
  have hbyte := hostLoad_getD hj' (h j hj')
  rwa [List.getD_eq_getElem _ _ hj, List.getD_eq_getElem _ _ hj'] at hbyte

/-- Settles O49: the store lands, and on a coherent platform the load sees memory itself. -/
theorem storeThenLoad : Obligations.StoreThenLoad := by
  intro s addr bytes hs hc ho
  obtain ⟨t, hstore, hmem, hplatform, hreplies⟩ := step_memStore hs ho
  have htc : t.platform.coherent = true := by rw [hplatform, hc]
  obtain ⟨u, hload, hanswer, hkept⟩ := step_memLoad hs htc
  have hseen : t.hostLoad addr.toNat bytes.length = bytes := hostLoad_known fun j hj => by
    rw [hostByte_coherent htc, hmem, Memory.byte_putBytes, if_pos (by omega), Nat.add_sub_cancel_left]
  refine ⟨t, u, hstore, fun x hx => ?_, hload, by rw [hanswer, hseen, hreplies], hkept⟩
  rw [hmem, Memory.byte_putBytes, if_neg (by omega)]

/-! ## The platform (R7, R46) -/

/-- An engine step does not change the platform. -/
theorem EngineStep.platform_eq {i : Instr} {s t : State} (h : EngineStep i s t) : t.platform = s.platform := by
  rw [h.keeps]

/-- The engine's step is taken on the same platform. -/
theorem EngineMoves.platform_eq {s u : State} (h : EngineMoves s u) : u.platform = s.platform := by
  rw [h.eq]

/-- A host write to a register does not change the platform (R96 to R99). -/
@[simp] theorem writeAt_platform (l : Location) (v : Word) (s : State) :
    (State.writeAt l v s).platform = s.platform := by
  rw [writeAt_keeps]

/-- No step changes the platform, by the cases of what a step can come to. -/
theorem StepTo.platform_eq {s t : State} (h : StepTo s t) : t.platform = s.platform := by
  cases h with
  | engine u t hm hb hx he => rw [he.platform_eq, hm.platform_eq]
  | written off v rest ha h0 hc => rw [writeAt_platform]; rfl
  | stored addr bytes rest ha hs ho => rw [markHost_platform]
  | idle | idleEngine | answered | rejected | accepted | loaded | maintained | reset => rfl

/-- Settles O56. -/
theorem platformNeverChanges : Obligations.PlatformNeverChanges :=
  fun _ _ h => (stepTo_of_step h).platform_eq

end Sys2Proof.Machine
end

section
/-! PROOFS. The state family: every step keeps the invariant (R43, R50, R61, R62, R94, R97, R102), a word that decodes is the
encoding of its command (R25, R81), which steps write the arrays (R40 to R42) and raise HOVF (R45), and the register map with
the fields of STATUS and IRQ_EN (R22 to R38). -/

namespace Sys2Proof.Machine

/-! ## The flags' part of the invariant (R23, R94, R106, R181) -/

/-- What the invariant asks of STATUS alone: ERRCODE agrees with ERROR, and DONE is 0 while a command runs. -/
structure Status.Consistent (st : Status) : Prop where
  errcode_iff : st.error = false ↔ st.errcode = .noError
  busy_not_done : st.busy = true → st.done = false

theorem Inv.status_consistent {s : State} (h : Inv s) : s.status.Consistent := ⟨h.errcode_iff, h.busy_not_done⟩

theorem Status.Consistent.withError {st : Status} (h : st.Consistent) {e : ErrCode} (he : e ≠ .noError) :
    (st.withError e).Consistent :=
  ⟨by simp [Status.withError, he], h.busy_not_done⟩

theorem Status.Consistent.cleared {st : Status} (h : st.Consistent) (v : Word) : (st.cleared v).Consistent := by
  refine ⟨?_, fun hb => ?_⟩
  · cases hv : v.getLsbD 2
    · simpa only [Status.cleared, hv, Bool.not_false, Bool.and_true, Bool.false_eq_true, if_false] using h.errcode_iff
    · simp only [Status.cleared, hv, Bool.not_true, Bool.and_false, if_true]
  · simp [Status.cleared, h.busy_not_done hb]

theorem Status.Consistent.completed {st : Status} (h : st.Consistent) : st.completed.Consistent :=
  ⟨h.errcode_iff, fun hb => by simp [Status.completed] at hb⟩

theorem Status.Consistent.aborted {st : Status} : st.aborted.Consistent :=
  ⟨by simp [Status.aborted, Status.withError], fun hb => by simp [Status.aborted, Status.withError] at hb⟩

theorem Status.Consistent.accepted {st : Status} (h : st.Consistent) : st.accepted.Consistent :=
  ⟨h.errcode_iff, fun _ => rfl⟩

theorem Status.Consistent.with_hovf {st : Status} (h : st.Consistent) (b : Bool) :
    ({ st with hovf := b } : Status).Consistent :=
  ⟨h.errcode_iff, h.busy_not_done⟩

/-! ## What the invariant does not depend on -/

/-- The invariant speaks neither of the arrays, IRQ_EN, SAT_IN and the platform, nor of the model's own bookkeeping. -/
theorem Inv.frame {s : State} (h : Inv s) {irqEn : IrqEn} {satInLo satInHi : Word} {lut : Table LutEntry}
    {hist cdf : Table (ArrayCell Word)} {platform : Platform} {agenda : List Event} {replies : List Reply}
    {picks hostDirty portDirty : List Nat} {draws : Nat} :
    Inv { s with
      irqEn := irqEn, satInLo := satInLo, satInHi := satInHi, lut := lut, hist := hist, cdf := cdf
      platform := platform, agenda := agenda, replies := replies, picks := picks, draws := draws
      hostDirty := hostDirty, portDirty := portDirty } :=
  { h with }

theorem Inv.with_agenda {s : State} (h : Inv s) (agenda : List Event) : Inv { s with agenda := agenda } := h.frame

/-- New flags that are consistent keep the invariant, unless they set BUSY. -/
theorem Inv.with_status {s : State} (h : Inv s) {st : Status} (hc : st.Consistent)
    (hb : st.busy = true → s.status.busy = true) : Inv { s with status := st } where
  __ := h
  errcode_iff := hc.errcode_iff
  busy_not_done := hc.busy_not_done
  busy_left hbusy := h.busy_left (hb hbusy)
  busy_latched hbusy := h.busy_latched (hb hbusy)
  busy_checked hbusy := h.busy_checked (hb hbusy)

/-- Memory in its canonical form keeps the invariant. -/
theorem Inv.with_mem {s : State} (h : Inv s) {m : Memory} (hm : m.wf) : Inv { s with mem := m } :=
  { h with mem_wf := hm }

/-- While no command runs, the registers a command would latch are free (R97). -/
theorem Inv.with_registers {s : State} (h : Inv s) (hb : s.status.busy = false) {src dst lut : Word}
    {width height : BitVec 16} :
    Inv { s with srcAddr := src, dstAddr := dst, lutAddr := lut, width := width, height := height } where
  __ := h
  busy_latched hbusy := by simp [hb] at hbusy

/-! ## The state the engine's step is taken at -/

theorem EngineMoves.status_eq {s u : State} (h : EngineMoves s u) : u.status = s.status := by
  rw [h.eq]

theorem EngineMoves.cur_eq {s u : State} (h : EngineMoves s u) : u.cur = s.cur := by
  rw [h.eq]

theorem EngineMoves.inv {s u : State} (hm : EngineMoves s u) (h : Inv s) : Inv u := by
  rw [hm.eq]
  exact h.frame

/-! ## The engine's steps keep the invariant (R104 to R108) -/

/-- The commands of R105 do all 256 entries in one step. -/
theorem count_of_whole {i : Instr} (h : i.opc = 1#4 ∨ i.opc = 5#4 ∨ i.opc = 6#4) (width height : BitVec 16) :
    i.count width height = 256 := by
  cases i with
  | lutIdent | cdf | histClear => rfl
  | _ => simp [Instr.opc] at h

/-- No command has more elements than the largest image has pixels (R21, R29). -/
theorem count_le_max (i : Instr) (width height : BitVec 16) : i.count width height ≤ 4294836225 := by
  have hpixels : pixels width height ≤ 65535 * 65535 :=
    Nat.mul_le_mul (Nat.le_of_lt_succ width.isLt) (Nat.le_of_lt_succ height.isLt)
  cases i <;> simp only [Instr.count] <;> omega

/-- What the operand checks say when none fails (R92): the image is empty, or every check passes. -/
theorem operandError_none {i : Instr} {src dst lut : Word} {n : Nat} (h : operandError i src dst lut n = none) :
    (i.isImage = true ∧ n = 0) ∨
    (misaligned i src dst lut = false ∧ outOfRange i src dst lut n = false ∧ badOverlap i src dst lut n = false) := by
  unfold operandError at h
  split at h
  · next hempty => exact .inl (by simpa using hempty)
  · split at h <;> [cases h; skip]
    split at h <;> [cases h; skip]
    split at h <;> [cases h; skip]
    next halign hrange hoverlap => exact .inr ⟨by simpa using halign, by simpa using hrange, by simpa using hoverlap⟩

/-- When a region is in range (R62). -/
theorem inRange_iff {r : Region} : r.inRange = true ↔ r.size = 0 ∨ r.base + r.size ≤ 2 ^ 32 := by
  simp [Region.inRange]

/-- A command that passed the operand checks writes each of its elements below 2^32 (R62). -/
theorem element_below_top {i : Instr} {src dst lut : Word} {n k : Nat}
    (h : operandError i src dst lut n = none) (hk : k < n) :
    dst.toNat + i.dstBytes * k + i.dstBytes ≤ 2 ^ 32 := by
  have hdst := dst.isLt
  have hspan : i.dstBytes * k + i.dstBytes ≤ i.dstBytes * n := Nat.mul_le_mul_left i.dstBytes hk
  obtain ⟨-, hn⟩ | ⟨-, hrange, -⟩ := operandError_none h
  · omega
  · have hin : (i.dstRegion dst n).inRange = true := by
      simp only [outOfRange, Bool.or_eq_false_iff, Bool.not_eq_false'] at hrange
      exact hrange.2
    obtain hempty | hfit := inRange_iff.1 hin <;> simp only [Instr.dstRegion] at * <;> omega

/-! ### The entries of a command that does all in one step -/

theorem span_zero_eq_range (n : Nat) : span 0 n = List.range n := by
  refine List.ext_getElem (by simp [span, valuesFrom_length]) fun k hk hk' => ?_
  simp [span, valuesFrom_getElem]

theorem span_zero_rising (n : Nat) : (span 0 n).Pairwise (· < ·) := by
  rw [span_zero_eq_range]
  exact List.pairwise_lt_range

theorem mem_span_zero {n k : Nat} : k ∈ span 0 n ↔ k < n := by
  rw [span_zero_eq_range, List.mem_range]

@[simp] theorem span_length (a len : Nat) : (span a len).length = len := valuesFrom_length id len a

/-- A command of 256 entries that does them all in one step (R105). -/
theorem Inv.wholeDone {s : State} (h : Inv s) (hn : s.cur.n = 256) : Inv s.wholeDone where
  mem_wf := h.mem_wf
  view_wf := h.view_wf
  done_rising := span_zero_rising 256
  done_below _ hk := (mem_span_zero.1 hk).trans_eq hn.symm
  progress_eq := by
    rw [wholeDone_progress, wholeDone_cur, span_length]
    rfl
  count_le := h.count_le
  errcode_iff := h.errcode_iff
  busy_not_done hb := by simp [Status.completed] at hb
  busy_left hb := by simp [Status.completed] at hb
  busy_latched hb := by simp [Status.completed] at hb
  busy_checked hb := by simp [Status.completed] at hb

theorem Inv.complete {s : State} (h : Inv s) : Inv s.complete :=
  h.with_status h.status_consistent.completed (fun hb => by simp [Status.completed] at hb)

theorem Inv.abort {s : State} (h : Inv s) : Inv s.abort :=
  h.with_status Status.Consistent.aborted (fun hb => by simp [Status.aborted, Status.withError] at hb)

theorem Inv.dropPick {s : State} (h : Inv s) : Inv s.dropPick := by
  rw [dropPick_eq]
  exact h.frame

/-- What an element does before it is counted keeps the invariant, where its place in the destination exists. -/
theorem Inv.of_elemFrame {i : Instr} {k : Nat} {s t : State} (h : Inv s) (hf : ElemFrame i k s t)
    (hk : s.cur.dst.toNat + i.dstBytes * k + i.dstBytes ≤ 2 ^ 32) : Inv t := by
  have hmem : Inv { s with mem := t.mem } := h.with_mem (hf.wf h.mem_wf hk)
  have hrest := hf.rest
  rw [hf.status] at hrest
  rw [hrest]
  exact (hmem.with_status (h.status_consistent.with_hovf t.status.hovf) id).frame

/-- Counting an unfinished element, and completing with the last one (R104). -/
theorem Inv.finish_settle {s : State} (h : Inv s) {k : Nat} (hk : k < s.cur.n) (hfresh : k ∉ s.cur.done)
    (hleft : s.cur.done.length < s.cur.n) : Inv (s.finish k).settle := by
  have hmax := h.count_le
  have hlen : (insertDone k s.cur.done).length = s.cur.done.length + 1 := insertDone_length hfresh
  -- BUSY aside, the clauses hold whether or not this was the last element
  have hcounted : Inv { s.finish k with status := { s.status with busy := false } } :=
    { h with
      done_rising := insertDone_rising h.done_rising
      done_below := fun j hj => (mem_insertDone.1 hj).elim (fun e => e ▸ hk) (h.done_below j)
      progress_eq := by
        have hp := h.progress_eq
        simp only [finish_progress, finish_cur, hlen, BitVec.toNat_add, BitVec.toNat_ofNat]
        omega
      busy_not_done := fun hb => by simp at hb
      busy_left := fun hb => by simp at hb
      busy_latched := fun hb => by simp at hb
      busy_checked := fun hb => by simp at hb }
  by_cases hlast : (s.finish k).cur.done.length = (s.finish k).cur.n
  · rw [settle_last hlast]
    exact hcounted.complete
  · rw [settle_more hlast]
    simp only [finish_cur, hlen] at hlast
    exact { hcounted with
      busy_not_done := h.busy_not_done
      busy_left := fun _ => .inr (by simp only [finish_cur, hlen]; omega)
      busy_latched := h.busy_latched
      busy_checked := h.busy_checked }

/-- An engine step of the latched command keeps the invariant. -/
theorem Inv.engineStep {s t : State} (h : Inv s) (hb : s.status.busy = true) (he : EngineStep s.cur.cmd s t) :
    Inv t := by
  have whole (ho : s.cur.cmd.opc = 1#4 ∨ s.cur.cmd.opc = 5#4 ∨ s.cur.cmd.opc = 6#4) : s.cur.n = 256 := by
    obtain ⟨-, -, -, hn, -⟩ := h.busy_latched hb
    rw [hn, count_of_whole ho]
  have elem {u : State} (hl : s.cur.done.length < s.cur.n) (hf : ElemFrame s.cur.cmd s.element s.dropPick u) :
      Inv u ∧ u.cur = s.cur ∧ s.element < s.cur.n ∧ s.element ∉ s.cur.done := by
    obtain ⟨hlt, hfresh⟩ := choose_unfinished h.done_rising h.done_below hl s.nextPick
    have hplace := element_below_top (h.busy_checked hb) hlt
    refine ⟨h.dropPick.of_elemFrame hf (by rwa [dropPick_cur]), ?_, hlt, hfresh⟩
    rw [hf.rest]
    exact dropPick_cur s
  cases he with
  | completed _ => exact h.complete
  | ident m ho => exact h.frame.wholeDone (whole (.inl ho))
  | cleared ho => exact h.frame.wholeDone (whole (.inr (.inr ho)))
  | summed vs ho _ =>
    have hflag : Inv { s with status := s.status.overflow (decide (2 ^ 32 ≤ vs.sum)) } :=
      h.with_status (h.status_consistent.with_hovf _) id
    exact hflag.frame.wholeDone (whole (.inr (.inl ho)))
  | element u _ hl _ hf =>
    obtain ⟨hu, hcur, hlt, hfresh⟩ := elem hl hf
    exact hu.finish_settle (by rwa [hcur]) (by rwa [hcur]) (by rwa [hcur])
  | aborted u _ hl _ hf =>
    obtain ⟨hu, -⟩ := elem hl hf
    exact hu.abort

/-! ## The other agents' steps keep the invariant -/

/-- The flags after a host write to a location other than CMD are consistent, and BUSY is as it was. -/
theorem writeAt_status_consistent {s : State} (h : s.status.Consistent) (l : Location) (v : Word) :
    (State.writeAt l v s).status.Consistent ∧ (State.writeAt l v s).status.busy = s.status.busy := by
  obtain e | ⟨-, e⟩ | ⟨-, e⟩ := writeAt_status l v s <;> rw [e]
  · exact ⟨h, rfl⟩
  · exact ⟨h.cleared v, rfl⟩
  · exact ⟨h.withError (by decide), rfl⟩

/-- A host write to a location other than CMD (R96 to R99): while a command runs it reaches no register the command latched
(R102). -/
theorem Inv.writeAt {s : State} (h : Inv s) (l : Location) (v : Word) : Inv (State.writeAt l v s) := by
  obtain ⟨hflags, hbusy⟩ := writeAt_status_consistent h.status_consistent l v
  cases hb : s.status.busy with
  | true =>
    rw [writeAt_busy hb]
    exact (h.with_status hflags (fun _ => hb)).frame
  | false =>
    rw [writeAt_keeps]
    exact ((h.with_registers hb).with_status hflags (fun hbt => by rwa [hbusy] at hbt)).frame

/-- A host write that the port has taken. -/
theorem Inv.taken {s : State} (h : Inv s) (rest : List Event) : Inv (s.taken rest) := h.frame

/-- A rejected word (R182). -/
theorem Inv.reject {s : State} (h : Inv s) {e : ErrCode} (he : e ≠ .noError) : Inv (s.reject e) :=
  h.with_status (h.status_consistent.withError he) id

/-- An accepted command that passed its checks (R94). -/
theorem Inv.accept {s : State} (h : Inv s) {i : Instr} (hi : s.issueError i = none) : Inv (s.accept i) where
  mem_wf := h.mem_wf
  view_wf := by
    rw [accept_hostView]
    split
    · exact h.view_wf
    · exact Memory.wf_forgetAll h.mem_wf _
  done_rising := .nil
  done_below _ hk := nomatch hk
  progress_eq := rfl
  count_le := count_le_max i s.width s.height
  errcode_iff := h.errcode_iff
  busy_not_done _ := rfl
  busy_left _ := Nat.eq_zero_or_pos _
  busy_latched _ := ⟨rfl, rfl, rfl, rfl, rfl⟩
  busy_checked _ := hi

/-- Another agent's bytes, stored below 2^32. -/
theorem Inv.stored {s : State} (h : Inv s) {a : Nat} {bytes : List Byte} (ha : a + bytes.length ≤ 2 ^ 32) :
    Inv (State.markHost a bytes.length { s with mem := s.mem.putBytes a bytes }) := by
  have hmem : Inv { s with mem := s.mem.putBytes a bytes } := h.with_mem (Memory.wf_putBytes h.mem_wf ha)
  unfold State.markHost
  split
  · exact hmem
  · exact hmem.frame

theorem Inv.maintained {s : State} (h : Inv s) : Inv s.maintained :=
  { h with view_wf := h.mem_wf }

theorem wf_memAtReset {s : State} (h : s.mem.wf) (p : Option InFlight) : (s.memAtReset p).wf := by
  unfold State.memAtReset
  split
  · exact h
  · split
    · exact Memory.wf_forgetBytes h _ _
    · exact h

/-- Reset (R210 to R212). -/
theorem Inv.afterReset {s : State} (h : Inv s) (p : Option InFlight) : Inv (s.afterReset p) where
  mem_wf := wf_memAtReset h.mem_wf p
  view_wf := h.view_wf
  done_rising := .nil
  done_below _ hk := nomatch hk
  progress_eq := rfl
  count_le := Nat.zero_le _
  errcode_iff := ⟨fun _ => rfl, fun _ => rfl⟩
  busy_not_done hb := nomatch hb
  busy_left hb := nomatch hb
  busy_latched hb := nomatch hb
  busy_checked hb := nomatch hb

/-- The invariant is kept, by the cases of what a step can come to. -/
theorem StepTo.keeps_inv {s t : State} (h : Inv s) (hst : StepTo s t) : Inv t := by
  cases hst with
  | engine u t hm hb hx he => exact (hm.inv h).engineStep (by rwa [hm.status_eq]) (by rwa [hm.cur_eq])
  | idle => exact h
  | idleEngine | answered | loaded => exact h.frame
  | written off v rest => exact (h.taken rest).writeAt _ v
  | rejected w rest e ha hn => exact (h.taken rest).reject hn
  | accepted w rest i ha hb hd hi => exact (h.taken rest).accept hi
  | stored addr bytes rest ha hs => exact (h.with_agenda rest).stored hs
  | maintained rest => exact (h.with_agenda rest).maintained
  | reset p rest => exact (h.with_agenda rest).afterReset p

/-- Settles O52: the engine's steps, and the other agents', each keep every clause of the invariant. -/
theorem stepKeepsInvariant : Obligations.StepKeepsInvariant :=
  fun _ _ h hstep => (stepTo_of_step hstep).keeps_inv h

/-! ## Decoding drops no bit (R72, R81, R86) -/

/-- A channel is a CHSEL value (R75). -/
theorem code_channelOf (c : BitVec 2) : (channelOf c).code = c := by
  revert c
  decide

/-- The fields of a word that decodes (R72, R81): its reserved bits are 0, and its command holds every other bit. -/
theorem decode_fields {w : Word} {i : Instr} (h : decode w = .ok i) :
    w.extractLsb' 14 18 = 0 ∧ i.opc = w.extractLsb' 0 4 ∧ i.fmt = w.extractLsb' 4 2 ∧
      i.chsel.code = w.extractLsb' 6 2 ∧ i.lmask = w.extractLsb' 8 4 ∧ i.par = w.getLsbD 12 ∧
      i.acc = w.getLsbD 13 := by
  have field {n : Nat} {x : BitVec n} {v : Nat} (hx : x.toNat = v) : BitVec.ofNat n v = x := by
    rw [← hx, BitVec.ofNat_toNat, BitVec.setWidth_eq]
  unfold decode at h
  split at h
  · cases h
  · next hres =>
    have hres0 : w.extractLsb' 14 18 = 0 := not_not.1 hres
    dsimp only at h
    split at h
    case h_4 hopc | h_5 hopc =>
      split at h
      case h_3 => cases h
      all_goals
        next hfmt => cases h; exact ⟨hres0, field hopc, field hfmt, code_channelOf _, rfl, rfl, rfl⟩
    case h_9 => cases h
    all_goals
      next hopc => cases h; exact ⟨hres0, field hopc, rfl, code_channelOf _, rfl, rfl, rfl⟩

/-- Bit `j` of a field of a word, put back at its place. -/
theorem getLsbD_placed_field (w : Word) (k len j : Nat) (hj : j < 32) :
    ((w.extractLsb' k len).setWidth 32 <<< k).getLsbD j = (decide (k ≤ j ∧ j < k + len) && w.getLsbD j) := by
  by_cases hk : k ≤ j
  · have hplace : k + (j - k) = j := by omega
    have hlen : j - k < len ↔ j < k + len := by omega
    simp [hj, hk, hplace, hlen]
  · simp [hk]

/-- PAR and ACC as fields of one bit. -/
theorem bitOf_getLsbD (w : Word) (k : Nat) : bitOf (w.getLsbD k) = (w.extractLsb' k 1).setWidth 32 := by
  have hbit : w.extractLsb' k 1 = BitVec.ofBool (w.getLsbD k) := by
    ext j hj
    simp [show j = 0 by omega]
  rw [hbit]
  cases w.getLsbD k <;> rfl

/-- A bit above the fields of a word whose reserved bits are 0. -/
theorem getLsbD_reserved {w : Word} (h : w.extractLsb' 14 18 = 0) {j : Nat} (hlo : 14 ≤ j) (hj : j < 32) :
    w.getLsbD j = false := by
  have hplace : 14 + (j - 14) = j := by omega
  have hbit := congrArg (·.getLsbD (j - 14)) h
  simpa [hplace, show j - 14 < 18 by omega] using hbit

/-- The fields of a word with its reserved bits 0, put back at their places, are the word (R72). -/
theorem assemble_fields {w : Word} (h : w.extractLsb' 14 18 = 0) {ch : Channel}
    (hch : ch.code = w.extractLsb' 6 2) :
    assemble (w.extractLsb' 0 4) (w.extractLsb' 4 2) ch (w.extractLsb' 8 4) (w.getLsbD 12) (w.getLsbD 13) = w := by
  have hopc : (w.extractLsb' 0 4).setWidth 32 = (w.extractLsb' 0 4).setWidth 32 <<< 0 := (BitVec.shiftLeft_zero _).symm
  refine BitVec.eq_of_getLsbD_eq fun j hj => ?_
  unfold assemble
  rw [hopc, hch, bitOf_getLsbD, bitOf_getLsbD]
  simp only [BitVec.getLsbD_or, getLsbD_placed_field _ _ _ j hj, ← Bool.and_or_distrib_right]
  by_cases hfield : j < 14
  · have hcover : (0 ≤ j ∧ j < 0 + 4) ∨ (4 ≤ j ∧ j < 4 + 2) ∨ (6 ≤ j ∧ j < 6 + 2) ∨ (8 ≤ j ∧ j < 8 + 4) ∨
        (12 ≤ j ∧ j < 12 + 1) ∨ (13 ≤ j ∧ j < 13 + 1) := by omega
    simp only [← Bool.decide_or, or_assoc, hcover, decide_true, Bool.true_and]
  · rw [getLsbD_reserved h (by omega) hj, Bool.and_false]

/-- Settles O2: the command holds every field of the word, and the bits outside the fields are 0. -/
theorem encodeDecodeRoundTrip : Obligations.EncodeDecodeRoundTrip := by
  intro w i h
  obtain ⟨hres, hopc, hfmt, hchsel, hlmask, hpar, hacc⟩ := decode_fields h
  rw [encode, hopc, hfmt, hlmask, hpar, hacc, assemble_fields hres hchsel]

/-! ## Offsets of the window (R36 to R38) -/

/-- The fields of a 4-aligned offset that `locate` reads give it back. -/
theorem offset_eq_of_fields {off : BitVec 12} (h0 : off.extractLsb' 0 2 = 0) :
    off.toNat = 1024 * (off.extractLsb' 10 2).toNat + 4 * (off.extractLsb' 2 8).toNat := by
  have hlow : (off.extractLsb' 0 2).toNat = 0 := by rw [h0]; rfl
  have hoff := off.isLt
  simp only [BitVec.extractLsb'_toNat, Nat.shiftRight_eq_div_pow] at *
  omega

/-- The fields `locate` reads of word `i` of the window that begins at `1024 * k`. -/
theorem fields_of_offset {k base : Nat} (hk : k < 4) (hbase : base = 1024 * k) (i : Byte) :
    ((BitVec.ofNat 12 (base + 4 * i.toNat)).extractLsb' 10 2).toNat = k ∧
      (BitVec.ofNat 12 (base + 4 * i.toNat)).extractLsb' 2 8 = i := by
  have hi := i.isLt
  constructor
  · simp only [BitVec.extractLsb'_toNat, Nat.shiftRight_eq_div_pow, BitVec.toNat_ofNat]
    omega
  · apply BitVec.eq_of_toNat_eq
    simp only [BitVec.extractLsb'_toNat, Nat.shiftRight_eq_div_pow, BitVec.toNat_ofNat]
    omega

/-- A 4-aligned offset by its fields. -/
theorem offset_eq_ofNat {off : BitVec 12} (h0 : off.extractLsb' 0 2 = 0) {k : Nat}
    (hk : (off.extractLsb' 10 2).toNat = k) :
    off = BitVec.ofNat 12 (1024 * k + 4 * (off.extractLsb' 2 8).toNat) := by
  rw [← hk, ← offset_eq_of_fields h0, BitVec.ofNat_toNat, BitVec.setWidth_eq]

theorem locate_hist (i : Byte) : locate (BitVec.ofNat 12 (0x400 + 4 * i.toNat)) = .hist i := by
  obtain ⟨hk, hi⟩ := fields_of_offset (k := 1) (by decide) rfl i
  simp only [locate, hk, hi]

theorem locate_cdf (i : Byte) : locate (BitVec.ofNat 12 (0x800 + 4 * i.toNat)) = .cdf i := by
  obtain ⟨hk, hi⟩ := fields_of_offset (k := 2) (by decide) rfl i
  simp only [locate, hk, hi]

theorem locate_lut (i : Byte) : locate (BitVec.ofNat 12 (0xC00 + 4 * i.toNat)) = .lut i := by
  obtain ⟨hk, hi⟩ := fields_of_offset (k := 3) (by decide) rfl i
  simp only [locate, hk, hi]

/-- The location an offset names, by its bits [11:10]. -/
theorem locate_cases (off : BitVec 12) :
    ((off.extractLsb' 10 2).toNat = 0 ∧ locate off = controlAt (off.extractLsb' 2 8).toNat) ∨
    ((off.extractLsb' 10 2).toNat = 1 ∧ locate off = .hist (off.extractLsb' 2 8)) ∨
    ((off.extractLsb' 10 2).toNat = 2 ∧ locate off = .cdf (off.extractLsb' 2 8)) ∨
    ((off.extractLsb' 10 2).toNat = 3 ∧ locate off = .lut (off.extractLsb' 2 8)) := by
  have hlt := (off.extractLsb' 10 2).isLt
  have hk : (off.extractLsb' 10 2).toNat = 0 ∨ (off.extractLsb' 10 2).toNat = 1 ∨
      (off.extractLsb' 10 2).toNat = 2 ∨ (off.extractLsb' 10 2).toNat = 3 := by omega
  rcases hk with hk | hk | hk | hk <;> simp [locate, hk]

/-- No control register is a window word. -/
theorem controlAt_not_window (w : Nat) (i : Byte) : controlAt w ≠ .hist i ∧ controlAt w ≠ .lut i := by
  unfold controlAt
  split <;> simp

theorem offset_of_locate_hist {off : BitVec 12} {i : Byte} (h0 : off.extractLsb' 0 2 = 0)
    (h : locate off = .hist i) : off = BitVec.ofNat 12 (0x400 + 4 * i.toNat) := by
  obtain ⟨-, e⟩ | ⟨hk, e⟩ | ⟨-, e⟩ | ⟨-, e⟩ := locate_cases off <;> rw [e] at h
  · exact absurd h (controlAt_not_window _ i).1
  · cases h; exact offset_eq_ofNat h0 hk
  · cases h
  · cases h

theorem offset_of_locate_lut {off : BitVec 12} {i : Byte} (h0 : off.extractLsb' 0 2 = 0)
    (h : locate off = .lut i) : off = BitVec.ofNat 12 (0xC00 + 4 * i.toNat) := by
  obtain ⟨-, e⟩ | ⟨-, e⟩ | ⟨-, e⟩ | ⟨hk, e⟩ := locate_cases off <;> rw [e] at h
  · exact absurd h (controlAt_not_window _ i).2
  · cases h
  · cases h
  · cases h; exact offset_eq_ofNat h0 hk

/-- The words past SAT_OUT and below the windows (R35). -/
theorem controlAt_reserved {w : Nat} (h : 13 ≤ w) : controlAt w = .reserved := by
  obtain ⟨j, rfl⟩ := Nat.exists_eq_add_of_le' h
  rfl

theorem locate_reserved {off : BitVec 12} (h0 : off.extractLsb' 0 2 = 0) (hlo : 0x034 ≤ off.toNat)
    (hhi : off.toNat ≤ 0x3FC) : locate off = .reserved := by
  have hoff := offset_eq_of_fields h0
  have hk : (off.extractLsb' 10 2).toNat = 0 := by omega
  simp only [locate, hk]
  exact controlAt_reserved (by omega)

/-! ## Which steps write the arrays (R40, R41, R42) -/

/-- Of the host's writes only those of the LUT window, while no command runs, reach LUT (R97). -/
theorem writeAt_lut_ne {l : Location} {v : Word} {s : State} (h : (State.writeAt l v s).lut ≠ s.lut) :
    s.status.busy = false ∧ ∃ i, l = .lut i := by
  cases hb : s.status.busy with
  | true => rw [writeAt_busy hb] at h; exact absurd rfl h
  | false =>
    cases l with
    | lut i => exact ⟨rfl, i, rfl⟩
    | _ => exact absurd (by simp [State.writeAt, State.rwi, hb]) h

/-- Of the host's writes only those of the HIST window, while no command runs, reach HIST (R97). -/
theorem writeAt_hist_ne {l : Location} {v : Word} {s : State} (h : (State.writeAt l v s).hist ≠ s.hist) :
    s.status.busy = false ∧ ∃ i, l = .hist i := by
  cases hb : s.status.busy with
  | true => rw [writeAt_busy hb] at h; exact absurd rfl h
  | false =>
    cases l with
    | hist i => exact ⟨rfl, i, rfl⟩
    | _ => exact absurd (by simp [State.writeAt, State.rwi, hb]) h

@[simp] theorem writeAt_cdf (l : Location) (v : Word) (s : State) : (State.writeAt l v s).cdf = s.cdf := by
  rw [writeAt_keeps]

/-- The arrays at the state the engine's step is taken at. -/
theorem EngineMoves.arrays_eq {s u : State} (h : EngineMoves s u) :
    u.lut = s.lut ∧ u.hist = s.hist ∧ u.cdf = s.cdf := by
  rw [h.eq]
  exact ⟨rfl, rfl, rfl⟩

/-- ACC = 0 of a HIST command is what clears the counters at acceptance (R78, R94). -/
theorem clearsHist_iff (i : Instr) : clearsHist i = true ↔ i.opc = 4#4 ∧ i.acc = false := by
  cases i <;> simp [clearsHist, Instr.opc, Instr.acc]

theorem StepTo.lut_writers {s t : State} (h : StepTo s t) (hne : t.lut ≠ s.lut) :
    ResetComes s ∨
    (s.status.busy = false ∧ ∃ i : Byte, HostWritesTo (BitVec.ofNat 12 (0xC00 + 4 * i.toNat)) s) ∨
    (s.status.busy = true ∧ (s.cur.cmd.opc = 1#4 ∨ s.cur.cmd.opc = 2#4) ∧ ∃ u, EngineMoves s u) := by
  cases h with
  | engine u t hm hb hx he =>
    obtain ⟨hlut, -, -⟩ := he.arrays
    obtain ⟨hu, -, -⟩ := hm.arrays_eq
    exact .inr (.inr ⟨hb, hlut.resolve_left (by rwa [hu]), u, hm⟩)
  | written off v rest ha h0 hc =>
    obtain ⟨hb, i, hl⟩ := writeAt_lut_ne (s := s.taken rest) hne
    rw [offset_of_locate_lut h0 hl] at ha h0
    exact .inr (.inl ⟨hb, i, v, h0, rest, ha⟩)
  | reset p rest ha => exact .inl ⟨p, rest, ha⟩
  | stored => exact absurd (markHost_lut ..) hne
  | idle | idleEngine | answered | rejected | accepted | loaded | maintained => exact absurd rfl hne

theorem StepTo.hist_writers {s t : State} (h : StepTo s t) (hne : t.hist ≠ s.hist) :
    ResetComes s ∨
    (s.status.busy = false ∧ ∃ i : Byte, HostWritesTo (BitVec.ofNat 12 (0x400 + 4 * i.toNat)) s) ∨
    (∃ i : Instr, AcceptanceComes i s ∧ i.opc = 4#4 ∧ i.acc = false) ∨
    (s.status.busy = true ∧ (s.cur.cmd.opc = 4#4 ∨ s.cur.cmd.opc = 6#4) ∧ ∃ u, EngineMoves s u) := by
  cases h with
  | engine u t hm hb hx he =>
    obtain ⟨-, hhist, -⟩ := he.arrays
    obtain ⟨-, hu, -⟩ := hm.arrays_eq
    exact .inr (.inr (.inr ⟨hb, hhist.resolve_left (by rwa [hu]), u, hm⟩))
  | written off v rest ha h0 hc =>
    obtain ⟨hb, i, hl⟩ := writeAt_hist_ne (s := s.taken rest) hne
    rw [offset_of_locate_hist h0 hl] at ha h0
    exact .inr (.inl ⟨hb, i, v, h0, rest, ha⟩)
  | accepted w rest i ha hb hd hi =>
    have hclears : clearsHist i = true := by
      by_contra hkeep
      exact hne (if_neg hkeep)
    exact .inr (.inr (.inl ⟨i, ⟨hb, hi, w, ⟨rfl, rest, ha⟩, hd⟩, (clearsHist_iff i).1 hclears⟩))
  | reset p rest ha => exact .inl ⟨p, rest, ha⟩
  | stored => exact absurd (markHost_hist ..) hne
  | idle | idleEngine | answered | rejected | loaded | maintained => exact absurd rfl hne

theorem StepTo.cdf_writers {s t : State} (h : StepTo s t) (hne : t.cdf ≠ s.cdf) :
    ResetComes s ∨ (s.status.busy = true ∧ s.cur.cmd.opc = 5#4 ∧ ∃ u, EngineMoves s u) := by
  cases h with
  | engine u t hm hb hx he =>
    obtain ⟨-, -, hcdf⟩ := he.arrays
    obtain ⟨-, -, hu⟩ := hm.arrays_eq
    exact .inr ⟨hb, hcdf.resolve_left (by rwa [hu]), u, hm⟩
  | written off v rest => exact absurd (writeAt_cdf _ v (s.taken rest)) hne
  | reset p rest ha => exact .inl ⟨p, rest, ha⟩
  | stored => exact absurd (markHost_cdf ..) hne
  | idle | idleEngine | answered | rejected | accepted | loaded | maintained => exact absurd rfl hne

/-- Settles O53: each array's writers, by the cases of what a step can come to. -/
theorem arraysHaveOnlyTheirWriters : Obligations.ArraysHaveOnlyTheirWriters := by
  intro s t hstep
  have h := stepTo_of_step hstep
  exact ⟨h.lut_writers, h.hist_writers, h.cdf_writers⟩

/-! ## Which steps raise HOVF (R45) -/

/-- Of the engine's steps only those of HIST and CDF touch HOVF (R144, R145). -/
theorem EngineStep.hovf_eq_or {i : Instr} {s t : State} (h : EngineStep i s t) :
    t.status.hovf = s.status.hovf ∨ i.opc = 4#4 ∨ i.opc = 5#4 := by
  have elem {u : State} (hf : ElemFrame i s.element s.dropPick u) :
      u.status = s.status ∨ i.opc = 4#4 := by
    by_cases ho : i.opc = 4#4
    · exact .inr ho
    · obtain ⟨-, hstatus⟩ := hf.hist ho
      exact .inl (by rw [hstatus, dropPick_status])
  cases h with
  | completed | ident | cleared => exact .inl rfl
  | summed vs ho => exact .inr (.inr ho)
  | element u _ _ _ hf =>
    refine (elem hf).imp (fun hu => ?_) .inl
    rw [settle_status, finish_status, hu]
    split <;> rfl
  | aborted u _ _ _ hf =>
    refine (elem hf).imp (fun hu => ?_) .inl
    rw [abort_status, hu]
    rfl

/-- A host write to a location other than CMD never sets HOVF: it can only clear it (R23). -/
theorem writeAt_hovf {l : Location} {v : Word} {s : State} (h : (State.writeAt l v s).status.hovf = true) :
    s.status.hovf = true := by
  obtain e | ⟨-, e⟩ | ⟨-, e⟩ := writeAt_status l v s <;> rw [e] at h
  · exact h
  · exact ((Bool.and_eq_true _ _).mp h).1
  · exact h

theorem StepTo.hovf_setters {s t : State} (h : StepTo s t) (hs : s.status.hovf = false)
    (ht : t.status.hovf = true) :
    s.status.busy = true ∧ (s.cur.cmd.opc = 4#4 ∨ s.cur.cmd.opc = 5#4) ∧ ∃ u, EngineMoves s u := by
  cases h with
  | engine u t hm hb hx he =>
    have hchanged : t.status.hovf ≠ u.status.hovf := by rw [hm.eq, ht]; simp [hs]
    exact ⟨hb, he.hovf_eq_or.resolve_left hchanged, u, hm⟩
  | written off v rest =>
    have hset : s.status.hovf = true := writeAt_hovf (s := s.taken rest) ht
    rw [hs] at hset; cases hset
  | stored => rw [markHost_status] at ht; exact absurd (hs.symm.trans ht) (by decide)
  | reset => cases ht
  | idle | idleEngine | answered | rejected | accepted | loaded | maintained =>
    exact absurd (hs.symm.trans ht) (by decide)

/-- Settles O54: no other step raises HOVF, and irq reads DONE, ERROR and their enables only. -/
theorem hovfSetOnlyByHistAndCdf : Obligations.HovfSetOnlyByHistAndCdf :=
  ⟨fun _ _ hstep => (stepTo_of_step hstep).hovf_setters, fun _ _ => rfl⟩

/-! ## The register map (R22 to R38) -/

theorem readAt_hist {s : State} {i : Byte} {v : Word} (h : s.hist.get i = .val v) : s.readAt (.hist i) = .ok v := by
  simp only [State.readAt, h, readCell]

theorem readAt_cdf {s : State} {i : Byte} {v : Word} (h : s.cdf.get i = .val v) : s.readAt (.cdf i) = .ok v := by
  simp only [State.readAt, h, readCell]

theorem readAt_lut {s : State} {i : Byte} {w : Word} (h : (s.lut.get i).toWord? = some w) :
    s.readAt (.lut i) = .ok w := by
  simp only [State.readAt, h]

/-- An entry with a value in every lane, as a window word: lane R in bits [7:0] (R38). -/
theorem toWord_of_lanes {e : LutEntry} {r g b a : Byte} (hr : e.lane .r = .val r) (hg : e.lane .g = .val g)
    (hb : e.lane .b = .val b) (ha : e.lane .a = .val a) : e.toWord? = some (a ++ b ++ g ++ r) := by
  simp only [LutEntry.lane] at hr hg hb ha
  simp only [LutEntry.toWord?, hr, hg, hb, ha, packLanes]

/-- Settles O15: the control registers by their offsets, the reserved words, and the three windows. -/
theorem registerMapReads : Obligations.RegisterMapReads := by
  intro s
  refine ⟨rfl, rfl, rfl, rfl, rfl, rfl, rfl, rfl, rfl, rfl, rfl, rfl, rfl, fun off h0 hlo hhi => ?_,
    fun i => ⟨locate_hist i, locate_cdf i, locate_lut i⟩, fun i v h => ?_, fun i v h => ?_,
    fun i r g b a hr hg hb ha => ?_⟩
  · rw [locate_reserved h0 hlo hhi]; rfl
  · rw [locate_hist]; exact readAt_hist h
  · rw [locate_cdf]; exact readAt_cdf h
  · rw [locate_lut]; exact readAt_lut (toWord_of_lanes hr hg hb ha)

/-! ## The words of STATUS and IRQ_EN (R23, R24) -/

/-- The STATUS word from bit 4 on holds ERRCODE, then zeros. -/
theorem status_word_getLsbD_errcode (st : Status) (j : Nat) :
    st.word.getLsbD (4 + j) = (errNumber st.errcode).getLsbD j := by
  have hplace : 4 + j - 1 - 1 - 1 - 1 = j := by omega
  have hfield : j < 4 ∨ (errNumber st.errcode).getLsbD j = false := by
    by_cases hj : j < 4
    · exact .inl hj
    · exact .inr (BitVec.getLsbD_of_ge _ _ (by omega))
  simp only [Status.word, BitVec.getLsbD_append, hplace]
  rcases hfield with hj | hj <;> simp [hj]

theorem status_word_fields (st : Status) :
    st.word.getLsbD 0 = st.busy ∧ st.word.getLsbD 1 = st.done ∧ st.word.getLsbD 2 = st.error ∧
      st.word.getLsbD 3 = st.hovf ∧ st.word.extractLsb' 4 4 = errNumber st.errcode ∧
      st.word.extractLsb' 8 24 = 0#24 := by
  refine ⟨?busy, ?done, ?error, ?hovf, BitVec.eq_of_getLsbD_eq fun j hj => ?errcode,
    BitVec.eq_of_getLsbD_eq fun j hj => ?zeros⟩
  case errcode =>
    rw [BitVec.getLsbD_extractLsb', status_word_getLsbD_errcode]
    simp [hj]
  case zeros =>
    rw [BitVec.getLsbD_extractLsb', show 8 + j = 4 + (4 + j) by omega, status_word_getLsbD_errcode]
    simp
  all_goals
    simp only [Status.word, BitVec.getLsbD_append]
    simp

theorem irqEn_word_fields (en : IrqEn) :
    en.word.getLsbD 0 = en.doneIe ∧ en.word.getLsbD 1 = en.errorIe ∧ en.word.extractLsb' 2 30 = 0#30 := by
  refine ⟨?doneIe, ?errorIe, BitVec.eq_of_getLsbD_eq fun j hj => ?zeros⟩
  case zeros =>
    simp only [IrqEn.word, BitVec.getLsbD_extractLsb', BitVec.getLsbD_append]
    simp
  all_goals
    simp only [IrqEn.word, BitVec.getLsbD_append]
    simp

/-- Settles O16: the two words field by field, and the values of ERRCODE. -/
theorem statusAndIrqEnFields : Obligations.StatusAndIrqEnFields :=
  ⟨status_word_fields, ⟨rfl, rfl, rfl, rfl, rfl, rfl, rfl, rfl⟩, irqEn_word_fields⟩

/-! ## Host writes of STATUS and of the window words (R23, R97) -/

/-- The step that takes a well-formed host write to a location other than CMD (R96). -/
theorem step_write {off : BitVec 12} (h0 : off.extractLsb' 0 2 = 0) (hc : locate off ≠ .cmd) (v : Word) (s : State) :
    step (s.facing (wr off v)) = .next (State.writeAt (locate off) v (s.taken s.agenda)) := by
  rw [step_facing, wr_event_wf h0]
  unfold hostWrite
  split
  · next hl => exact absurd hl hc
  · rfl

/-- Settles O17: the write-1-to-clear reaches STATUS alone (R23), and a bit that is not written 1 is kept. -/
theorem statusWriteOneToClear : Obligations.StatusWriteOneToClear := by
  intro s v
  have hclear (b bit : Bool) : (b && !bit) = if bit then false else b := by cases bit <;> simp
  rw [step_write (by decide) (by decide)]
  change Host.Outcome.next (State.clearStatus v (s.taken s.agenda)) = _
  simp only [State.clearStatus, Status.cleared, hclear]
  rfl

/-- Settles O21: while BUSY = 0 the write reaches its cell, and the read gives the cell's word. -/
theorem windowWriteReadsBack : Obligations.WindowWriteReadsBack := by
  intro s v i hb
  constructor
  · apply readAt_hist
    simp only [State.writeAt, State.rwi, hb, Bool.false_eq_true, if_false, Table.get_set_self]
  · apply readAt_lut
    simp only [State.writeAt, State.rwi, hb, Bool.false_eq_true, if_false, Table.get_set_self, toWord_ofWord]

end Sys2Proof.Machine
end

section
/-! PROOFS. The memory family: which element can be next (R65), the operand checks (R92), what an element that writes does to
memory when its port write completes or errs (R57, R58, R107), that the engine writes its destination only (R129), whole images
through APPLY_LUT (R130), maintenance on a non-coherent platform (R67, R218), and reset during a command (R211). -/

namespace Sys2Proof.Machine

/-! ## Any permutation of the elements (R65) -/

/-- A rising list between two bounds has no more members than there are places between them. -/
theorem add_length_le_of_rising {done : List Nat} {lo n : Nat} (hs : done.Pairwise (· < ·)) (hlo : ∀ j ∈ done, lo ≤ j)
    (hb : ∀ j ∈ done, j < n) (hn : lo ≤ n) : lo + done.length ≤ n := by
  induction done generalizing lo with
  | nil => exact hn
  | cons d ds ih =>
    obtain ⟨hd, hds⟩ := List.pairwise_cons.1 hs
    have hle := hlo d List.mem_cons_self
    have htail := ih hds hd (fun j hj => hb j (List.mem_cons_of_mem _ hj)) (hb d List.mem_cons_self)
    rw [List.length_cons]
    omega

/-- Every unfinished index has a place among the unfinished ones. -/
theorem exists_nthLeft {done : List Nat} {lo n k : Nat} (hs : done.Pairwise (· < ·)) (hlo : ∀ j ∈ done, lo ≤ j)
    (hb : ∀ j ∈ done, j < n) (hk : lo ≤ k) (hkn : k < n) (hfresh : k ∉ done) :
    ∃ p, lo ≤ p ∧ p + done.length < n ∧ nthLeft done p = k := by
  induction done generalizing lo with
  | nil => exact ⟨k, hk, hkn, rfl⟩
  | cons d ds ih =>
    obtain ⟨hd, hds⟩ := List.pairwise_cons.1 hs
    have hle := hlo d List.mem_cons_self
    simp only [List.mem_cons, not_or] at hfresh
    by_cases hkd : k < d
    · have hlen : d + (d :: ds).length ≤ n := by
        refine add_length_le_of_rising hs (fun j hj => ?_) hb (hb d List.mem_cons_self).le
        exact (List.mem_cons.1 hj).elim (fun e => e.ge) (fun hj => (hd j hj).le)
      exact ⟨k, hk, by omega, if_neg (by omega)⟩
    · obtain ⟨q, hq, hlen, hnth⟩ :=
        ih hds hd (fun j hj => hb j (List.mem_cons_of_mem _ hj)) (by omega) hfresh.2
      refine ⟨q - 1, by omega, by rw [List.length_cons]; omega, ?_⟩
      rw [nthLeft, if_pos (by omega), Nat.sub_add_cancel (by omega), hnth]

/-- A choice number below the count of what is left is the choice itself. -/
theorem choiceOf_of_lt {p left : Nat} (h : p < left) : choiceOf p left = p := by
  unfold choiceOf
  split
  · omega
  · exact Nat.mod_eq_of_lt h

/-- Every unfinished element is the choice of some number below the count of what is left. -/
theorem exists_choose {c : Cur} {k : Nat} (hs : c.done.Pairwise (· < ·)) (hb : ∀ j ∈ c.done, j < c.n) (hk : k < c.n)
    (hfresh : k ∉ c.done) : ∃ p, p + c.done.length < c.n ∧ c.choose p = k := by
  obtain ⟨p, -, hp, hnth⟩ := exists_nthLeft hs (fun _ _ => Nat.zero_le _) hb (Nat.zero_le k) hk hfresh
  exact ⟨p, hp, by rw [Cur.choose, choiceOf_of_lt (by omega), hnth]⟩

/-- Settles O40. -/
theorem anyUnfinishedElementCanBeNext : Obligations.AnyUnfinishedElementCanBeNext := by
  intro s k hinv _ hk hfresh
  obtain ⟨p, -, hp⟩ := exists_choose hinv.done_rising hinv.done_below hk hfresh
  exact ⟨p, hp⟩

/-- A command with as many finished elements as it has elements has finished each. -/
theorem mem_done_of_full {s : State} (h : Inv s) (hfull : s.cur.done.length = s.cur.n) {k : Nat} (hk : k < s.cur.n) :
    k ∈ s.cur.done := by
  by_contra hfresh
  obtain ⟨p, hp, -⟩ := exists_choose h.done_rising h.done_below hk hfresh
  omega

/-- The next element is an unfinished one of the command. -/
theorem Inv.element_unfinished {s : State} (h : Inv s) (hl : s.elementLeft) :
    s.element < s.cur.n ∧ s.element ∉ s.cur.done :=
  choose_unfinished h.done_rising h.done_below hl.2 s.nextPick

/-! ## The operand checks (R92) -/

/-- When two regions intersect (R63). -/
theorem meets_iff {p q : Region} : p.meets q = true ↔
    p.size ≠ 0 ∧ q.size ≠ 0 ∧ p.base < q.base + q.size ∧ q.base < p.base + p.size := by
  simp [Region.meets, and_assoc]

/-- When the regions of a command intersect as R63 forbids. -/
theorem badOverlap_iff {i : Instr} {src dst lut : Word} {n : Nat} : badOverlap i src dst lut n = true ↔
    (i.srcRegion src lut n).meets (i.dstRegion dst n) = true ∧ ¬ (i.mayBeInPlace = true ∧ src = dst) := by
  cases h : i.mayBeInPlace <;> simp [badOverlap, h]

/-- When a base breaks its alignment (R56). -/
theorem misaligned_iff {i : Instr} {src dst lut : Word} : misaligned i src dst lut = true ↔
    (i.readBase src lut).toNat % i.srcAlign ≠ 0 ∨ dst.toNat % i.dstAlign ≠ 0 := by
  simp [misaligned]

/-- When a region that is not empty passes the top of memory (R62). -/
theorem outOfRange_iff {i : Instr} {src dst lut : Word} {n : Nat} : outOfRange i src dst lut n = true ↔
    (i.srcBytes * n ≠ 0 ∧ (i.readBase src lut).toNat + i.srcBytes * n > 2 ^ 32) ∨
    (i.dstBytes * n ≠ 0 ∧ dst.toNat + i.dstBytes * n > 2 ^ 32) := by
  simp only [outOfRange, Bool.or_eq_true, Bool.not_eq_true', ← Bool.not_eq_true, inRange_iff, Instr.srcRegion,
    Instr.dstRegion, not_or, Nat.not_le, gt_iff_lt, ne_eq]

/-- The operand checks in arithmetic, in the order of R92. -/
theorem operandError_eq (i : Instr) (src dst lut : Word) (n : Nat) : operandError i src dst lut n =
    let base := (i.readBase src lut).toNat
    if i.isImage = true ∧ n = 0 then none
    else if base % i.srcAlign ≠ 0 ∨ dst.toNat % i.dstAlign ≠ 0 then some .align
    else if (i.srcBytes * n ≠ 0 ∧ base + i.srcBytes * n > 2 ^ 32) ∨
      (i.dstBytes * n ≠ 0 ∧ dst.toNat + i.dstBytes * n > 2 ^ 32) then some .range
    else if (i.srcBytes * n ≠ 0 ∧ i.dstBytes * n ≠ 0 ∧ base < dst.toNat + i.dstBytes * n ∧
        dst.toNat < base + i.srcBytes * n) ∧ ¬ (i.mayBeInPlace = true ∧ src.toNat = dst.toNat) then some .overlap
    else none := by
  have hempty : (i.isImage && n == 0) = true ↔ i.isImage = true ∧ n = 0 := by simp
  simp only [operandError, hempty, misaligned_iff, outOfRange_iff, badOverlap_iff, meets_iff, Instr.srcRegion,
    Instr.dstRegion, BitVec.toNat_inj]

/-- Settles O25: the checks of each command, from the sizes and alignments of R56 and R57. -/
theorem operandChecksInOrder : Obligations.OperandChecksInOrder := by
  intro s fmt ch m par acc n src dst lut
  have hn : pixels s.width s.height = n := rfl
  clear_value n
  refine ⟨?nop, ?lutIdent, ?cdf, ?histClear, ?lutLoad, ?applyLutU8, ?applyLutRgba, ?histU8, ?histRgba, ?sat⟩ <;>
    rw [State.issueError, operandError_eq]
  case nop | lutIdent | cdf | histClear | lutLoad =>
    simp [lut, Instr.count, Instr.isImage, Instr.readBase, Instr.srcAlign, Instr.dstAlign, Instr.srcBytes, Instr.dstBytes,
      Nat.mod_one]
  case applyLutU8 | applyLutRgba | histU8 | histRgba | sat =>
    simp only [Instr.count, hn, Instr.isImage, Instr.readBase, Instr.srcAlign, Instr.dstAlign, Instr.srcBytes,
      Instr.dstBytes, Instr.mayBeInPlace]
    by_cases hn0 : n = 0
    · simp [hn0]
    · simp [src, dst, hn0, Nat.mod_one]

/-! ## An element that writes (R57, R123, R124, R164) -/

/-- The place of the next element in the destination of `i` (R57). -/
def State.elementPlace (i : Instr) (s : State) : Nat := s.cur.dst.toNat + i.dstBytes * s.element

/-- The next element of `i` comes to one port write, of the bytes `bs`, at the element's place of the destination, after the
draws of its read. -/
def State.WritesElement (i : Instr) (bs : List Byte) (s : State) : Prop :=
  ∃ v, leBytes i.dstBytes v = bs ∧ elemOf i s.element s.dropPick =
    State.portWrite (s.elementPlace i) i.dstBytes v { s.dropPick with draws := s.dropPick.draws + i.srcBytes }

/-- The value of a one-byte read of the next element is the byte seen. -/
theorem ofNat_leNat_seen (s : State) (a : Nat) : BitVec.ofNat 8 (leNat (s.seen a 1)) = (s.seen a 1).getD 0 0#8 :=
  ofNat_leNat_load_one ..

/-- Channel `c` of the pixel that the next element reads is byte `c` of the four seen (R12, R53). -/
theorem chanByte_leNat_seen (s : State) (a : Nat) (c : Channel) :
    chanByte (BitVec.ofNat 32 (leNat (s.seen a 4))) c = byteOf (s.seen a 4) c :=
  chanByte_leNat_load ..

/-- The sample that APPLY_LUT.U8 reads is looked up in lane CHSEL (R123). -/
theorem applyU8_writesElement {s : State} {ch : Channel} {m : BitVec 4} {par acc : Bool} {o : Byte}
    (hr : s.memOk (s.cur.src.toNat + s.element) 1 .read = true)
    (ho : (s.lut.get ((s.seen (s.cur.src.toNat + s.element) 1).getD 0 0#8)).lane ch = .val o) :
    s.WritesElement (.applyLutU8 ch m par acc) [o] := by
  refine ⟨o.toNat, by simp [leBytes, Instr.dstBytes], ?_⟩
  simp only [State.elementPlace, elemOf, applyU8Elem, dropPick_cur, portRead_dropPick hr, dropPick_lut, ofNat_leNat_seen,
    ho, Instr.dstBytes, Instr.srcBytes, Nat.one_mul]

/-- The output pixel of APPLY_LUT.RGBA, where every selected lane holds a value (R124). -/
theorem applyPixel_eq {lut : Table LutEntry} {m : BitVec 4} {pixel : Word} {o : Channel → Byte}
    (hon : ∀ c, m.getLsbD c.lane = true → (lut.get (chanByte pixel c)).lane c = .val (o c))
    (hoff : ∀ c, m.getLsbD c.lane = false → o c = chanByte pixel c) :
    applyPixel lut m pixel = some (packLanes (o .r) (o .g) (o .b) (o .a)) := by
  have hchannel (c : Channel) : applyChannel lut m pixel c = .val (o c) := by
    unfold applyChannel laneOn
    split
    · next h => exact hon c h
    · next h => rw [hoff c (by simpa using h)]
  simp only [applyPixel, hchannel]

/-- The pixel that APPLY_LUT.RGBA reads is looked up channel by channel (R124). -/
theorem applyRgba_writesElement {s : State} {ch : Channel} {m : BitVec 4} {par acc : Bool} {o : Channel → Byte}
    (hr : s.memOk (s.cur.src.toNat + 4 * s.element) 4 .read = true)
    (hon : ∀ c, m.getLsbD c.lane = true →
      (s.lut.get (byteOf (s.seen (s.cur.src.toNat + 4 * s.element) 4) c)).lane c = .val (o c))
    (hoff : ∀ c, m.getLsbD c.lane = false → o c = byteOf (s.seen (s.cur.src.toNat + 4 * s.element) 4) c) :
    s.WritesElement (.applyLutRgba ch m par acc) [o .r, o .g, o .b, o .a] := by
  refine ⟨(packLanes (o .r) (o .g) (o .b) (o .a)).toNat, getD_leBytes_packLanes .., ?_⟩
  simp only [← chanByte_leNat_seen] at hon hoff
  simp only [State.elementPlace, elemOf, applyRgbaElem, dropPick_cur, portRead_dropPick hr, dropPick_lut,
    applyPixel_eq hon hoff, Instr.dstBytes, Instr.srcBytes]

/-- The sample that SAT reads is cast (R164). -/
theorem sat_writesElement {s : State} {fmt : BitVec 2} {ch : Channel} {m : BitVec 4} {par acc : Bool}
    (hr : s.memOk (s.cur.src.toNat + 8 * s.element) 8 .read = true) :
    s.WritesElement (.sat fmt ch m par acc)
      [sat (f64 (BitVec.ofNat 64 (leNat (s.seen (s.cur.src.toNat + 8 * s.element) 8))))] := by
  refine ⟨(sat (f64 (BitVec.ofNat 64 (leNat (s.seen (s.cur.src.toNat + 8 * s.element) 8))))).toNat,
    by simp [leBytes, Instr.dstBytes], ?_⟩
  simp only [State.elementPlace, elemOf, satElem, dropPick_cur, portRead_dropPick hr, Instr.dstBytes, Instr.srcBytes,
    Nat.one_mul]

/-- Whether an access completes is the platform's (R7). -/
theorem memOk_of_platform_eq {s t : State} (h : t.platform = s.platform) (a len : Nat) (dir : Dir) :
    t.memOk a len dir = s.memOk a len dir := by
  rw [State.memOk, State.memOk, h]

/-- An element whose port write completes: its bytes stand at its place, it is finished, and all else is kept (R104). -/
theorem State.WritesElement.exec_ok {i : Instr} {bs : List Byte} {s : State} (h : s.WritesElement i bs)
    (hi : hasElements i = true) (hl : s.elementLeft)
    (hw : s.memOk (s.elementPlace i) i.dstBytes .write = true) :
    ∃ t, exec i s = .next t ∧
      t = { s with
        mem := t.mem, cur := s.curAfterElement, status := s.statusAfterElement, progress := s.progress + 1#32
        picks := s.picks.tail, draws := t.draws
        portDirty := if s.platform.coherent then s.portDirty else s.portDirty ++ span (s.elementPlace i) i.dstBytes } ∧
      ∀ x : Nat, t.mem.byte x =
        if s.elementPlace i ≤ x ∧ x < s.elementPlace i + i.dstBytes
        then some (bs.getD (x - s.elementPlace i) 0#8) else s.mem.byte x := by
  obtain ⟨v, rfl, helem⟩ := h
  rw [State.portWrite, memOk_of_platform_eq (s := s) (by simp), if_pos hw] at helem
  refine ⟨_, exec_element_ok hl hi helem, ?_, fun x => ?_⟩
  · have hovf : ({ s.statusAfterElement with hovf := s.status.hovf } : Status) = s.statusAfterElement := by
      unfold State.statusAfterElement; split <;> rfl
    rw [dropPick_eq]
    simp only [markPort_status, hovf]
    unfold State.markPort
    split <;> rfl
  · simp only [markPort_mem, dropPick_mem, Memory.byte_putBytes, leBytes_length]

/-- An element whose port write errs: the command aborts, no value is known at its place, and all else is kept (R58, R107). -/
theorem State.WritesElement.exec_abort {i : Instr} {bs : List Byte} {s : State} (h : s.WritesElement i bs)
    (hi : hasElements i = true) (hl : s.elementLeft)
    (hw : s.memOk (s.elementPlace i) i.dstBytes .write = false) :
    ∃ t, exec i s = .next t ∧
      t = { s with
        status := { s.status with busy := false, error := true, errcode := .bus }
        mem := t.mem, picks := s.picks.tail, draws := t.draws
        portDirty := if s.platform.coherent then s.portDirty else s.portDirty ++ span (s.elementPlace i) i.dstBytes } ∧
      ∀ x : Nat, t.mem.byte x =
        if s.elementPlace i ≤ x ∧ x < s.elementPlace i + i.dstBytes then none else s.mem.byte x := by
  obtain ⟨v, -, helem⟩ := h
  rw [State.portWrite, memOk_of_platform_eq (s := s) (by simp), if_neg (by simp [hw])] at helem
  refine ⟨_, exec_element_abort hl hi helem, ?_, fun x => ?_⟩
  · rw [dropPick_eq]
    unfold State.markPort
    split <;> rfl
  · simp only [abort_mem, markPort_mem, dropPick_mem, Memory.byte_forgetBytes]

/-- A cell that is not UNSPEC holds a value. -/
theorem ArrayCell.eq_val_of_ne {α : Type} {c : ArrayCell α} (h : c ≠ .unspec) : ∃ v, c = .val v := by
  cases c with
  | unspec => exact absurd rfl h
  | val v => exact ⟨v, rfl⟩

/-- Settles O42: each of the three commands comes to one port write, and that write errs. -/
theorem writeBusErrorAborts : Obligations.WriteBusErrorAborts := by
  rintro fmt ch m par acc s i d len hl (⟨rfl, rfl, rfl, hr, ho⟩ | ⟨rfl, rfl, rfl, hr, ho⟩ | ⟨rfl, rfl, rfl, hr⟩) hw
  · obtain ⟨o, ho⟩ := ArrayCell.eq_val_of_ne ho
    have habort := (applyU8_writesElement (m := m) (par := par) (acc := acc) hr ho).exec_abort rfl hl
    simp only [State.elementPlace, Instr.dstBytes, Nat.one_mul] at habort
    exact habort hw
  · have hout (c : Channel) : ∃ o, (m.getLsbD c.lane = true →
        (s.lut.get (byteOf (s.seen (s.cur.src.toNat + 4 * s.element) 4) c)).lane c = .val o) ∧
        (m.getLsbD c.lane = false → o = byteOf (s.seen (s.cur.src.toNat + 4 * s.element) 4) c) := by
      cases hc : m.getLsbD c.lane with
      | true => simpa using ArrayCell.eq_val_of_ne (ho c hc)
      | false => simp
    choose o hon hoff using hout
    exact (applyRgba_writesElement (ch := ch) (par := par) (acc := acc) hr hon hoff).exec_abort rfl hl hw
  · have habort := (sat_writesElement (fmt := fmt) (ch := ch) (m := m) (par := par) (acc := acc) hr).exec_abort rfl hl
    simp only [State.elementPlace, Instr.dstBytes, Nat.one_mul] at habort
    exact habort hw

/-! ## The engine writes its destination only (R57, R62, R129) -/

/-- While no command runs, the engine's turn changes nothing but the agenda (R103). -/
theorem step_of_engineMoves_idle {s u : State} (h : EngineMoves s u) (hb : s.status.busy = false) : step s = .next u := by
  rcases h with ⟨ha, e⟩ | ⟨rest, ha, e⟩ | ⟨rest, -, hbusy, -⟩
  · rw [e]; simp [step, takeStep, ha, engineTurn, hb]
  · rw [step_of_agenda ha, e]; simp [handle, engineTurn, hb]
  · rw [hb] at hbusy; cases hbusy

/-- A byte that an engine step changes lies at the next element's place of the destination. -/
theorem EngineStep.changed_byte {i : Instr} {s t : State} {x : Nat} (h : EngineStep i s t)
    (hx : t.mem.byte x ≠ s.mem.byte x) :
    s.cur.done.length < s.cur.n ∧ s.elementPlace i ≤ x ∧
      x < s.elementPlace i + i.dstBytes := by
  have place {u : State} (hf : ElemFrame i s.element s.dropPick u) (hu : u.mem.byte x ≠ s.mem.byte x) :
      s.elementPlace i ≤ x ∧ x < s.elementPlace i + i.dstBytes := by
    by_contra hout
    exact hu (by simpa using hf.mem x (by simpa [State.elementPlace] using hout))
  cases h with
  | element u _ hl _ hf => exact ⟨hl, place hf (by simpa using hx)⟩
  | aborted u _ hl _ hf => exact ⟨hl, place hf (by simpa using hx)⟩
  | completed | ident | cleared | summed => exact absurd rfl hx

/-- Settles O51: a changed byte lies at the place of an unfinished element, which the operand checks put below 2^32. -/
theorem engineWritesOnlyDestination : Obligations.EngineWritesOnlyDestination := by
  intro s u t x hs hm hstep hx
  cases hb : s.status.busy with
  | false =>
    rw [step_of_engineMoves_idle hm hb] at hstep
    cases hstep
    rw [hm.eq] at hx
    exact absurd rfl hx
  | true =>
    rw [step_of_engineMoves hm hb] at hstep
    obtain ⟨t', hexec, he⟩ | hfault := exec_busy_cases (i := s.cur.cmd) (s := u) (by rw [hm.status_eq, hb])
    · rw [hexec] at hstep
      cases hstep
      obtain ⟨hleft, hlo, hhi⟩ := he.changed_byte (by rwa [show u.mem = s.mem by rw [hm.eq]])
      obtain ⟨hlt, -⟩ := (hm.inv hs).element_unfinished ⟨by rw [hm.status_eq, hb], hleft⟩
      simp only [State.elementPlace, hm.cur_eq] at hlo hhi hlt
      have htop := element_below_top (hs.busy_checked hb) hlt
      have hplace : s.cur.cmd.dstBytes * u.element + s.cur.cmd.dstBytes ≤ s.cur.cmd.dstBytes * s.cur.n :=
        Nat.mul_le_mul_left _ hlt
      exact ⟨rfl, by omega, by omega, by omega⟩
    · rw [hfault] at hstep
      cases hstep

/-! ## A whole image through APPLY_LUT (R130) -/

/-- A run whose every step counts down ends where the count is 0. -/
theorem runsTo_of_countdown {P : Nat → State → Prop}
    (hstep : ∀ left t, P (left + 1) t → ∃ u, step t = .next u ∧ P left u) {n : Nat} {s : State} (h : P n s) :
    ∃ t, RunsTo n s t ∧ P 0 t := by
  induction n generalizing s with
  | zero => exact ⟨s, rfl, h⟩
  | succ n ih =>
    obtain ⟨u, hu, hP⟩ := hstep n s h
    obtain ⟨t, hrun, ht⟩ := ih hP
    exact ⟨t, by rwa [RunsTo, run_next hu], ht⟩

/-- Of two elements of a size, one ends where or before the other begins. -/
theorem element_spans_apart {k j : Nat} (w : Nat) (h : k ≠ j) : w * k + w ≤ w * j ∨ w * j + w ≤ w * k := by
  rcases Nat.lt_or_gt_of_ne h with h | h
  · exact .inl (Nat.mul_le_mul_left w h)
  · exact .inr (Nat.mul_le_mul_left w h)

/-- No byte that element `k` of a checked APPLY_LUT reads is one that another element writes, in place or not (R63). -/
theorem read_apart_from_other_writes {i : Instr} {src dst lut : Word} {n k l x : Nat}
    (hi : i.mayBeInPlace = true) (hcheck : operandError i src dst lut n = none) (hk : k < n) (hl : l < n) (hne : k ≠ l)
    (hx : src.toNat + i.srcBytes * k ≤ x ∧ x < src.toNat + i.srcBytes * k + i.srcBytes) :
    ¬ (dst.toNat + i.dstBytes * l ≤ x ∧ x < dst.toNat + i.dstBytes * l + i.dstBytes) := by
  have hsize : i.srcBytes = i.dstBytes ∧ i.readBase src lut = src := by
    cases i with
    | applyLutU8 | applyLutRgba => exact ⟨rfl, rfl⟩
    | _ => simp [Instr.mayBeInPlace] at hi
  obtain ⟨hw, hbase⟩ := hsize
  rw [hw] at hx
  have hkn : i.dstBytes * k + i.dstBytes ≤ i.dstBytes * n := Nat.mul_le_mul_left _ hk
  have hln : i.dstBytes * l + i.dstBytes ≤ i.dstBytes * n := Nat.mul_le_mul_left _ hl
  obtain ⟨-, hn⟩ | ⟨-, -, hoverlap⟩ := operandError_none hcheck
  · omega
  · by_cases hplace : src = dst
    · subst hplace
      have := element_spans_apart i.dstBytes hne
      omega
    · have hmeets : ¬ (i.srcRegion src lut n).meets (i.dstRegion dst n) = true := fun hm =>
        absurd (badOverlap_iff.2 ⟨hm, fun h => hplace h.2⟩) (by simp [hoverlap])
      simp only [meets_iff, Instr.srcRegion, Instr.dstRegion, hw, hbase] at hmeets
      omega

/-- `t` is a state of the run from `s` on, with `left` elements of the command still to do: the bytes `o k` stand at the place
of each finished element `k`, and all else is as at `s`. -/
structure ImagePart (o : Nat → List Byte) (s : State) (left : Nat) (t : State) : Prop where
  inv : Inv t
  frame : t = { s with
    mem := t.mem, cur := { s.cur with done := t.cur.done }, progress := t.progress
    status := if left = 0 then { s.status with busy := false, done := true } else s.status
    picks := t.picks, draws := t.draws, portDirty := t.portDirty }
  count : t.cur.done.length + left = s.cur.n
  result : ∀ k ∈ t.cur.done, ∀ j < s.cur.cmd.dstBytes,
    t.mem.byte (s.cur.dst.toNat + s.cur.cmd.dstBytes * k + j) = some ((o k).getD j 0#8)
  kept : ∀ x, (∀ k ∈ t.cur.done, ¬ (s.cur.dst.toNat + s.cur.cmd.dstBytes * k ≤ x ∧
    x < s.cur.dst.toNat + s.cur.cmd.dstBytes * k + s.cur.cmd.dstBytes)) → t.mem.byte x = s.mem.byte x

section
variable {o : Nat → List Byte} {s t : State} {left : Nat}

/-- Before the first element. -/
theorem ImagePart.start (h : Inv s) (hdone : s.cur.done = []) (hn : 0 < s.cur.n) : ImagePart o s s.cur.n s where
  inv := h
  frame := by rw [if_neg (by omega)]
  count := by simp [hdone]
  result := by simp [hdone]
  kept _ _ := rfl

theorem ImagePart.cur_eq (h : ImagePart o s left t) : t.cur = { s.cur with done := t.cur.done } :=
  congrArg State.cur h.frame

theorem ImagePart.cmd_eq (h : ImagePart o s left t) : t.cur.cmd = s.cur.cmd := by rw [h.cur_eq]

theorem ImagePart.src_eq (h : ImagePart o s left t) : t.cur.src = s.cur.src := by rw [h.cur_eq]

theorem ImagePart.dst_eq (h : ImagePart o s left t) : t.cur.dst = s.cur.dst := by rw [h.cur_eq]

theorem ImagePart.n_eq (h : ImagePart o s left t) : t.cur.n = s.cur.n := by rw [h.cur_eq]

theorem ImagePart.lut_eq (h : ImagePart o s left t) : t.lut = s.lut := by rw [h.frame]

theorem ImagePart.platform_eq (h : ImagePart o s left t) : t.platform = s.platform := by rw [h.frame]

theorem ImagePart.agenda_eq (h : ImagePart o s left t) : t.agenda = s.agenda := by rw [h.frame]

theorem ImagePart.status_running (h : ImagePart o s (left + 1) t) : t.status = s.status :=
  (congrArg State.status h.frame :)

theorem ImagePart.elementLeft (h : ImagePart o s (left + 1) t) (hb : s.status.busy = true) : t.elementLeft := by
  have hcount := h.count
  exact ⟨by rw [h.status_running, hb], by rw [h.n_eq]; omega⟩

theorem ImagePart.memOk (h : ImagePart o s left t) (hok : s.memAllOk) (a len : Nat) (dir : Dir) :
    t.memOk a len dir = true := by
  simp only [State.memOk, h.platform_eq, show s.platform.memErr = [] from hok, List.contains_nil, Bool.not_false]

/-- The next element has its source as it was at the start (R63, R65). -/
theorem ImagePart.source_kept (h : ImagePart o s (left + 1) t) (hs : Inv s) (hb : s.status.busy = true)
    (hi : s.cur.cmd.mayBeInPlace = true) {j : Nat} (hj : j < s.cur.cmd.srcBytes) :
    t.mem.byte (s.cur.src.toNat + s.cur.cmd.srcBytes * t.element + j) =
      s.mem.byte (s.cur.src.toNat + s.cur.cmd.srcBytes * t.element + j) := by
  obtain ⟨hlt, hfresh⟩ := h.inv.element_unfinished (h.elementLeft hb)
  refine h.kept _ fun k hk => ?_
  have hkn := h.inv.done_below k hk
  rw [h.n_eq] at hlt hkn
  exact read_apart_from_other_writes hi (hs.busy_checked hb) hlt hkn (fun e => hfresh (e ▸ hk)) (by omega)

/-- One element on: the place it writes is no other's, so every finished element keeps its bytes. -/
theorem ImagePart.step (h : ImagePart o s (left + 1) t) (hb : s.status.busy = true) (hagenda : s.agenda = [])
    (hok : s.memAllOk) (hi : hasElements s.cur.cmd = true) (hwrites : t.WritesElement s.cur.cmd (o t.element)) :
    ∃ u, step t = .next u ∧ ImagePart o s left u := by
  have hl := h.elementLeft hb
  obtain ⟨-, hfresh⟩ := h.inv.element_unfinished hl
  obtain ⟨u, hexec, hu, hmem⟩ := hwrites.exec_ok hi hl (h.memOk hok ..)
  have hstep : Machine.step t = .next u := by
    rw [step_of_engineMoves (.inl ⟨h.agenda_eq.trans hagenda, rfl⟩) hl.1, h.cmd_eq, hexec]
  have hdone : u.cur.done = insertDone t.element t.cur.done := by rw [hu]; rfl
  have hlen : u.cur.done.length = t.cur.done.length + 1 := by rw [hdone, insertDone_length hfresh]
  have hcount := h.count
  simp only [State.elementPlace, h.dst_eq] at hmem
  refine ⟨u, hstep, stepKeepsInvariant t u h.inv hstep, ?_, by omega, fun k hk j hj => ?_, fun x hx => ?_⟩
  · have hstatus : t.statusAfterElement =
        if left = 0 then { s.status with busy := false, done := true } else s.status := by
      have hlast : t.curAfterElement.done.length = t.cur.n ↔ left = 0 := by
        rw [show t.curAfterElement.done = u.cur.done from hdone.symm, h.n_eq]
        omega
      rw [State.statusAfterElement, h.status_running]
      simp only [hlast]
    rw [hstatus, State.curAfterElement, ← hdone, h.cur_eq] at hu
    rw [hu, h.frame]
  · rw [hmem]
    by_cases hkt : k = t.element
    · rw [hkt, if_pos (by omega), Nat.add_sub_cancel_left]
    · have hapart := element_spans_apart s.cur.cmd.dstBytes hkt
      rw [if_neg (by omega)]
      exact h.result k ((mem_insertDone.1 (hdone ▸ hk)).resolve_left hkt) j hj
  · rw [hmem, if_neg (hx t.element (hdone ▸ mem_insertDone.2 (.inl rfl)))]
    exact h.kept x fun k hk => hx k (hdone ▸ mem_insertDone.2 (.inr hk))

/-- The run from the first element to the last, where each comes to one port write. -/
theorem ImagePart.run (hs : Inv s) (hb : s.status.busy = true) (hdone : s.cur.done = []) (hn : 0 < s.cur.n)
    (hagenda : s.agenda = []) (hok : s.memAllOk) (hi : hasElements s.cur.cmd = true)
    (hwrites : ∀ left t, ImagePart o s (left + 1) t → t.WritesElement s.cur.cmd (o t.element)) :
    ∃ t, RunsTo s.cur.n s t ∧ ImagePart o s 0 t :=
  runsTo_of_countdown (fun left t h => h.step hb hagenda hok hi (hwrites left t h)) (.start hs hdone hn)

/-- After the last element. -/
theorem ImagePart.finished (h : ImagePart o s 0 t) :
    t.status.busy = false ∧ t.status.done = true ∧ t.progress.toNat = s.cur.n ∧
    t = { s with
      mem := t.mem, cur := { s.cur with done := t.cur.done }, progress := t.progress
      status := { s.status with busy := false, done := true }
      picks := t.picks, draws := t.draws, portDirty := t.portDirty } ∧
    (∀ k < s.cur.n, ∀ j < s.cur.cmd.dstBytes,
      t.mem.byte (s.cur.dst.toNat + s.cur.cmd.dstBytes * k + j) = some ((o k).getD j 0#8)) ∧
    (∀ x, x < s.cur.dst.toNat ∨ s.cur.dst.toNat + s.cur.cmd.dstBytes * s.cur.n ≤ x → t.mem.byte x = s.mem.byte x) := by
  have hstatus : t.status = { s.status with busy := false, done := true } := congrArg State.status h.frame
  have hfull : t.cur.done.length = t.cur.n := by rw [h.n_eq]; exact h.count
  refine ⟨by rw [hstatus], by rw [hstatus], by rw [h.inv.progress_eq, hfull, h.n_eq], h.frame, fun k hk => ?_,
    fun x hx => h.kept x fun k hk => ?_⟩
  · exact h.result k (mem_done_of_full h.inv hfull (by rwa [h.n_eq]))
  · have hkn := h.inv.done_below k hk
    rw [h.n_eq] at hkn
    have hplace : s.cur.cmd.dstBytes * k + s.cur.cmd.dstBytes ≤ s.cur.cmd.dstBytes * s.cur.n := Nat.mul_le_mul_left _ hkn
    omega

end

/-- A byte of known value is seen as it is. -/
theorem seen_getD {s : State} {a len j : Nat} {b : Byte} (hj : j < len) (h : s.mem.byte (a + j) = some b) :
    (s.seen a len).getD j 0#8 = b :=
  load_getD _ hj h

/-- Settles O58: at each element the sample is still the one at acceptance, so its lookup is `o`. -/
theorem applyU8TransformsImage : Obligations.ApplyU8TransformsImage := by
  intro ch m par acc s v o hs hb hcmd hdone hn hagenda hok hv ho
  have hwrites (left : Nat) (t : State) (h : ImagePart (fun k => [o k]) s (left + 1) t) :
      t.WritesElement s.cur.cmd [o t.element] := by
    obtain ⟨hlt, -⟩ := h.inv.element_unfinished (h.elementLeft hb)
    rw [h.n_eq] at hlt
    have hbyte := h.source_kept hs hb (by rw [hcmd]; rfl) (j := 0) (by rw [hcmd]; exact Nat.one_pos)
    simp only [hcmd, Instr.srcBytes, Nat.one_mul, Nat.add_zero, hv _ hlt] at hbyte
    rw [hcmd]
    refine applyU8_writesElement (h.memOk hok ..) ?_
    rw [h.src_eq, h.lut_eq, seen_getD (a := s.cur.src.toNat + t.element) Nat.one_pos hbyte, ho _ hlt]
  obtain ⟨t, hrun, h⟩ := ImagePart.run hs hb hdone hn hagenda hok (by rw [hcmd]; rfl) hwrites
  obtain ⟨hbusy, hdone', hprogress, hframe, hresult, hkept⟩ := h.finished
  simp only [hcmd, Instr.dstBytes, Nat.one_mul] at hresult hkept
  exact ⟨t, hrun, hbusy, hdone', hprogress, hframe, fun k hk => hresult k hk 0 Nat.one_pos, hkept⟩

/-- The lanes of the channels are the places of the four bytes of a pixel (R53). -/
theorem lane_lt (c : Channel) : c.lane < 4 := c.code.isLt

/-- Settles O59: at each element the pixel is still the one at acceptance, so its output is `o`. -/
theorem applyRgbaTransformsImage : Obligations.ApplyRgbaTransformsImage := by
  intro ch m par acc s v o hs hb hcmd hdone hn hagenda hok hv hon hoff
  have hwrites (left : Nat) (t : State) (h : ImagePart (fun k => [o k .r, o k .g, o k .b, o k .a]) s (left + 1) t) :
      t.WritesElement s.cur.cmd [o t.element .r, o t.element .g, o t.element .b, o t.element .a] := by
    obtain ⟨hlt, -⟩ := h.inv.element_unfinished (h.elementLeft hb)
    rw [h.n_eq] at hlt
    have hpixel (c : Channel) : byteOf (t.seen (t.cur.src.toNat + 4 * t.element) 4) c = v t.element c := by
      have hbyte := h.source_kept hs hb (by rw [hcmd]; rfl) (j := c.lane) (by rw [hcmd]; exact lane_lt c)
      simp only [hcmd, Instr.srcBytes, hv _ hlt c] at hbyte
      rw [h.src_eq]
      exact seen_getD (lane_lt c) hbyte
    rw [hcmd]
    refine applyRgba_writesElement (h.memOk hok ..) (fun c hc => ?_) (fun c hc => ?_)
    · rw [hpixel, h.lut_eq, hon _ hlt c hc]
    · rw [hpixel, hoff _ hlt c hc]
  obtain ⟨t, hrun, h⟩ := ImagePart.run hs hb hdone hn hagenda hok (by rw [hcmd]; rfl) hwrites
  obtain ⟨hbusy, hdone', hprogress, hframe, hresult, hkept⟩ := h.finished
  simp only [hcmd, Instr.dstBytes] at hresult hkept
  refine ⟨t, hrun, hbusy, hdone', hprogress, hframe, fun k hk c => ?_, hkept⟩
  rw [hresult k hk c.lane (lane_lt c)]
  cases c <;> rfl

/-! ## Maintenance on a non-coherent platform (R67, R218) -/

/-- The address lies in the region. -/
theorem holds_iff {r : Region} {a : Nat} : r.holds a = true ↔ r.base ≤ a ∧ a < r.base + r.size := by
  simp [Region.holds]

/-- When a command waits for the host's maintenance (R67). -/
theorem needsMaintenance_iff {i : Instr} {s : State} : s.needsMaintenance i = true ↔
    s.platform.coherent = false ∧ ∃ a ∈ s.hostDirty,
      (i.srcRegion s.srcAddr s.lutAddr (i.count s.width s.height)).holds a = true ∨
      (i.dstRegion s.dstAddr (i.count s.width s.height)).holds a = true := by
  simp [State.needsMaintenance]

/-- A command that the checks accept and that waits for maintenance is refused (93 item S8). -/
theorem issue_refused {i : Instr} {s : State} (he : s.issueError i = none) (hd : s.dutyBroken i = false)
    (hm : s.needsMaintenance i = true) : issue i s = .refused .maintenanceOmitted := by
  simp [issue, he, hd, hm]

/-- A command that the checks accept, breaking no duty, is accepted after the maintenance. -/
theorem issue_maintained {i : Instr} {s : State} (he : s.issueError i = none) (hd : s.dutyBroken i = false) :
    issue i s.maintained = .next (s.maintained.accept i) := by
  have he' : s.maintained.issueError i = none := he
  have hd' : s.maintained.dutyBroken i = false := hd
  have hm' : s.maintained.needsMaintenance i = false := by simp [← Bool.not_eq_true, needsMaintenance_iff]
  simp [issue, he', hd', hm']

/-- A load of bytes that exist is refused, or answered with the bytes seen. -/
theorem step_memLoad_eq {addr : Word} {len : Nat} {s : State} (hs : addr.toNat + len ≤ 2 ^ 32) :
    step (s.facing (.memLoad addr len)) =
      if s.staleForHost addr.toNat len then .refused .maintenanceOmitted
      else .next (State.answer (.bytes (s.hostLoad addr.toNat len)) { s with draws := s.draws + len }) := by
  have hspan : spanExists addr len = true := decide_eq_true hs
  simp [step_facing, handle, memLoad, hspan]

/-- A load inside the destination of the running command waits for no maintenance (R218). -/
theorem staleForHost_inside {s : State} {a len : Nat} (hb : s.status.busy = true) (hlo : s.cur.dst.toNat ≤ a)
    (hhi : a + len ≤ s.cur.dst.toNat + s.cur.cmd.dstBytes * s.cur.n) : s.staleForHost a len = false := by
  rw [← Bool.not_eq_true, staleForHost_iff]
  rintro ⟨-, x, -, hx, hout⟩
  exact hout ((inRunningDst_iff x s).2 ⟨hb, by omega, by omega⟩)

/-- Whether a load from `addr` sees the old contents of element `k` of the running command, once it is done (log 10). -/
def State.elementSeenOld (addr : Nat) (s : State) (k : Nat) : Bool :=
  Config.freePick (s.draws + (s.cur.writeAddr k - addr)) % 2 == 0

/-- A byte of the running command's destination as a load sees it: old by the choice of its element (R58, R218). -/
theorem hostByte_inside {s : State} {addr x : Nat} (hx : s.inRunningDst x = true) : s.hostByte addr x =
    if s.platform.coherent = false ∧ x ∈ s.portDirty ∧
      s.elementSeenOld addr ((x - s.cur.dst.toNat) / s.cur.cmd.dstBytes) = true
    then s.hostView.byte x else s.mem.byte x := by
  have hold : s.seesOld addr x = true ↔ s.platform.coherent = false ∧ x ∈ s.portDirty ∧
      s.elementSeenOld addr ((x - s.cur.dst.toNat) / s.cur.cmd.dstBytes) = true := by
    simp [State.seesOld, State.elementSeenOld, Cur.elementStart, hx, and_assoc]
  simp only [State.hostByte, hold]

/-- Settles O29: both refusals, each gone after maintenance, and the load inside the running destination. -/
theorem omittedMaintenanceRefused : Obligations.OmittedMaintenanceRefused := by
  refine ⟨fun i s a hb he hd hc ha hin => ⟨?_, step_facing .maintain s, ?_⟩,
    fun s addr len a hc hs ha hlo hhi hout => ⟨?_, ?_⟩, fun s addr len hb hs hlo hhi => ?_⟩
  · rw [exec_idle hb]
    exact issue_refused he hd (needsMaintenance_iff.2 ⟨hc, a, ha, hin.imp holds_iff.2 holds_iff.2⟩)
  · rw [exec_idle (s := s.maintained) hb]
    exact issue_maintained he hd
  · have hstale : s.staleForHost addr.toNat len = true := by
      refine (staleForHost_iff ..).2 ⟨hc, a, ha, ⟨hlo, hhi⟩, fun hdst => ?_⟩
      obtain ⟨hbusy, hdlo, hdhi⟩ := (inRunningDst_iff a s).1 hdst
      rcases hout with hidle | hbelow | habove
      · simp [hidle] at hbusy
      · omega
      · omega
    rw [step_memLoad_eq hs, if_pos hstale]
  · have hfresh : s.maintained.staleForHost addr.toNat len = false := by
      simp [← Bool.not_eq_true, staleForHost_iff]
    exact ⟨_, by rw [step_memLoad_eq hs, if_neg (by simp [hfresh])]⟩
  · refine ⟨s.hostLoad addr.toNat len, s.elementSeenOld addr.toNat, ?_, hostLoad_length .., fun j b hj hbyte => ?_⟩
    · rw [step_memLoad_eq hs, if_neg (by simp [staleForHost_inside hb hlo hhi])]
      rfl
    · have hdst : s.inRunningDst (addr.toNat + j) = true := (inRunningDst_iff _ s).2 ⟨hb, by omega, by omega⟩
      exact hostLoad_getD hj (by rw [hostByte_inside hdst, hbyte])

/-! ## Reset during a command (R211) -/

/-- After a reset during a command the bytes of the access in flight hold no known value, and every other byte is kept. -/
theorem byte_memAtReset {s : State} (hl : s.elementLeft) (f : InFlight) (x : Nat) :
    (s.memAtReset (some f)).byte x =
      if (s.cur.access f.dir (s.cur.choose f.pick)).base ≤ x ∧
        x < (s.cur.access f.dir (s.cur.choose f.pick)).base + (s.cur.access f.dir (s.cur.choose f.pick)).size
      then none else s.mem.byte x := by
  obtain ⟨hb, hlt⟩ := hl
  simp [State.memAtReset, hb, hlt, Memory.byte_forgetBytes]

/-- Settles O11. -/
theorem resetDuringCommand : Obligations.ResetDuringCommand :=
  fun s _ hl =>
    ⟨⟨_, step_facing _ s, rfl, rfl⟩,
     ⟨_, step_facing _ s, rfl, byte_memAtReset hl _⟩,
     ⟨_, step_facing _ s, rfl, byte_memAtReset hl _⟩⟩

end Sys2Proof.Machine
end

section
/-! PROOFS. The encoding family: decoding inverts encoding (R72, R81, R86), which words are rejected and with which code (R81),
the engine's turn (R103), ill-formed register transactions (R71), and the fields a running command ignores (R77, R80). -/

namespace Sys2Proof.Machine

/-! ## The fields of an assembled word (R72) -/

/-- A field put at its place is read back there. -/
theorem extractLsb'_placed {n : Nat} (x : BitVec n) {k : Nat} (h : k + n ≤ 32) :
    (x.setWidth 32 <<< k).extractLsb' k n = x := by
  refine BitVec.eq_of_getLsbD_eq fun j hj => ?_
  simp [hj, show k + j < 32 by omega]

/-- A field put at its place leaves every other place 0. -/
theorem extractLsb'_placed_elsewhere {n : Nat} (x : BitVec n) {k a len : Nat} (h : k + n ≤ a ∨ a + len ≤ k) :
    (x.setWidth 32 <<< k).extractLsb' a len = 0#len := by
  refine BitVec.eq_of_getLsbD_eq fun j hj => ?_
  obtain hbelow | habove := h
  · simp [x.getLsbD_of_ge (a + j - k) (by omega)]
  · simp [show a + j < k by omega]

/-- PAR and ACC are fields of one bit. -/
theorem bitOf_eq_setWidth (b : Bool) : bitOf b = (BitVec.ofBool b).setWidth 32 := by
  cases b <;> rfl

/-- A word assembled from fields, each at its place. -/
theorem assemble_eq_placed (opc : BitVec 4) (fmt : BitVec 2) (ch : Channel) (lmask : BitVec 4) (par acc : Bool) :
    assemble opc fmt ch lmask par acc =
      opc.setWidth 32 <<< 0 ||| fmt.setWidth 32 <<< 4 ||| ch.code.setWidth 32 <<< 6 ||| lmask.setWidth 32 <<< 8
        ||| (BitVec.ofBool par).setWidth 32 <<< 12 ||| (BitVec.ofBool acc).setWidth 32 <<< 13 := by
  rw [assemble, bitOf_eq_setWidth, bitOf_eq_setWidth, BitVec.shiftLeft_zero]

theorem bitOf_inj {a b : Bool} : bitOf a = bitOf b ↔ a = b := by
  revert a b
  decide

/-- The fields of an assembled word are those it was assembled from, and its reserved bits are 0. -/
theorem fields_assemble (opc : BitVec 4) (fmt : BitVec 2) (ch : Channel) (lmask : BitVec 4) (par acc : Bool) :
    (assemble opc fmt ch lmask par acc).extractLsb' 14 18 = 0 ∧
    (assemble opc fmt ch lmask par acc).extractLsb' 0 4 = opc ∧
    (assemble opc fmt ch lmask par acc).extractLsb' 4 2 = fmt ∧
    (assemble opc fmt ch lmask par acc).extractLsb' 6 2 = ch.code ∧
    (assemble opc fmt ch lmask par acc).extractLsb' 8 4 = lmask ∧
    (assemble opc fmt ch lmask par acc).getLsbD 12 = par ∧
    (assemble opc fmt ch lmask par acc).getLsbD 13 = acc := by
  rw [← bitOf_inj (b := par), ← bitOf_inj (b := acc), bitOf_getLsbD, bitOf_getLsbD, assemble_eq_placed]
  simp (disch := omega) only [BitVec.extractLsb'_or, extractLsb'_placed, extractLsb'_placed_elsewhere,
    BitVec.zero_or, BitVec.or_zero, bitOf_eq_setWidth, BitVec.ofNat_eq_ofNat, and_self]

/-! ## Decoding an encoded command (R72, R81, R86) -/

/-- A channel's CHSEL value selects the channel (R75). -/
theorem channelOf_code (c : Channel) : channelOf c.code = c := by
  cases c <;> rfl

/-- Settles O1: `decode` reads back the fields that `encode` placed, and OPC and FMT name the command again. -/
theorem decodeEncodeRoundTrip : Obligations.DecodeEncodeRoundTrip := by
  intro i
  obtain ⟨hres, hopc, hfmt, hchsel, hlmask, hpar, hacc⟩ := fields_assemble i.opc i.fmt i.chsel i.lmask i.par i.acc
  unfold decode encode
  rw [hres, hopc, hfmt, hchsel, hlmask, hpar, hacc, channelOf_code]
  cases i <;> rfl

/-! ## Words that spell no command (R81) -/

/-- Decoding, by the three kinds of word: a reserved bit or an unassigned OPC, an unassigned FMT of a command that reads it, and
the words that spell a command. -/
theorem decode_cases (w : Word) :
    ((w.extractLsb' 14 18 ≠ 0 ∨ 8 ≤ (w.extractLsb' 0 4).toNat) ∧ decode w = .error .badOpc) ∨
    ((w.extractLsb' 14 18 = 0 ∧ ((w.extractLsb' 0 4).toNat = 3 ∨ (w.extractLsb' 0 4).toNat = 4) ∧
      2 ≤ (w.extractLsb' 4 2).toNat) ∧ decode w = .error .badFmt) ∨
    ((w.extractLsb' 14 18 = 0 ∧ (w.extractLsb' 0 4).toNat < 8 ∧
      (((w.extractLsb' 0 4).toNat = 3 ∨ (w.extractLsb' 0 4).toNat = 4) → (w.extractLsb' 4 2).toNat < 2)) ∧
      ∃ i, decode w = .ok i) := by
  unfold decode
  split
  · next hres => exact .inl ⟨.inl hres, rfl⟩
  · next hres =>
    have hres0 : w.extractLsb' 14 18 = 0 := not_not.1 hres
    dsimp only
    split
    case h_4 hopc | h_5 hopc =>
      split
      case h_3 h0 h1 => exact .inr (.inl ⟨⟨hres0, by omega, (Nat.two_le_iff _).2 ⟨h0, h1⟩⟩, rfl⟩)
      all_goals exact .inr (.inr ⟨⟨hres0, by omega, by omega⟩, _, rfl⟩)
    case h_9 => exact .inl ⟨.inr (by grind), rfl⟩
    all_goals exact .inr (.inr ⟨⟨hres0, by omega, by omega⟩, _, rfl⟩)

/-- Settles O3: the three kinds of word exclude each other, and a word that decodes gives its fields to the command. -/
theorem decodeRejectsAndReadsFields : Obligations.DecodeRejectsAndReadsFields := by
  intro w
  refine ⟨?badOpc, ?badFmt, fun e he => ?codes, fun i hi => ?fields⟩
  case badOpc =>
    obtain ⟨hw, h⟩ | ⟨⟨hres, hopc, -⟩, h⟩ | ⟨⟨hres, hopc, -⟩, i, h⟩ := decode_cases w
    · exact iff_of_true h hw
    all_goals exact iff_of_false (by simp [h]) fun hw => hw.elim (absurd hres) (by omega)
  case badFmt =>
    obtain ⟨hw, h⟩ | ⟨hw, h⟩ | ⟨⟨-, -, hassigned⟩, i, h⟩ := decode_cases w
    · exact iff_of_false (by simp [h]) fun ⟨hres, hopc, _⟩ => hw.elim (absurd hres) (by omega)
    · exact iff_of_true h hw
    · exact iff_of_false (by simp [h]) fun ⟨_, hopc, hfmt⟩ => absurd (hassigned hopc) (by omega)
  case codes =>
    obtain ⟨-, h⟩ | ⟨-, h⟩ | ⟨-, i, h⟩ := decode_cases w <;> rw [h] at he <;> cases he
    · exact .inl rfl
    · exact .inr rfl
  case fields =>
    obtain ⟨-, hopc, hfmt, hchsel, hlmask, hpar, hacc⟩ := decode_fields hi
    refine ⟨hopc, hfmt, hchsel, hlmask, hpar, hacc, ?_⟩
    cases i <;> simp [Instr.opc, Instr.fmt, Instr.mnemonic]

/-- Settles O4: the words are closed, so decoding computes. -/
theorem sampleWordsDecode : Obligations.SampleWordsDecode := by
  unfold Obligations.SampleWordsDecode
  decide

/-! ## The engine's turn (R103) -/

/-- While no command runs the engine takes no step. -/
theorem engineTurn_idle {s : State} (h : s.status.busy = false) : engineTurn s = .next s := by
  simp [engineTurn, h]

/-- Settles O6: the three schedules that give a running command its step are the engine's moves. -/
theorem engineTurnRunsLatchedCommand : Obligations.EngineTurnRunsLatchedCommand := by
  intro s
  refine ⟨fun hb ha => ?_, fun hb => ?_, fun hb => ?_, fun hb ha => ?_, fun hb => ?_, fun hb => ?_⟩
  · exact step_of_engineMoves (.inl ⟨ha, rfl⟩) hb
  · exact step_of_engineMoves (s := s.facing .engine) (.inr (.inl ⟨s.agenda, rfl, rfl⟩)) hb
  · exact step_of_engineMoves (s := s.facing .wait) (.inr (.inr ⟨s.agenda, rfl, hb, rfl⟩)) hb
  · simp only [step, takeStep, ha, engineTurn_idle hb]
  · rw [step_facing, handle, engineTurn_idle hb]
  · simp [step_facing, handle, hb]

/-! ## Ill-formed register transactions (R71) -/

/-- The transactions that R71 answers with a bus error are those that are not well-formed. -/
theorem transaction_not_wf_iff (x : Transaction) :
    x.wf = false ↔ x.width ≠ .w32 ∨ x.off.extractLsb' 0 2 ≠ 0 := by
  rw [Transaction.wf, Bool.and_eq_false_iff, decide_eq_false_iff_not, decide_eq_false_iff_not]

/-- Settles O13: the port answers such a transaction itself, before the block sees it. -/
theorem illFormedTransactionChangesNothing : Obligations.IllFormedTransactionChangesNothing := by
  intro s x hx
  simp only [step_facing, handle, transact, (transaction_not_wf_iff x).2 hx, Bool.false_eq_true, if_false]

/-! ## Fields that a running command ignores (R77, R80, R125) -/

/-- While a command runs it is the engine's operation of it (R103): the word counts no more. -/
theorem command_busy {s : State} (hb : s.status.busy = true) (i : Instr)
    (engine : State → Host.Outcome State Fault Refusal) : command i engine s = engine s :=
  if_pos hb

/-- While a command runs, element commands with the same operation on an element take the same step (R104). -/
theorem exec_busy_congr {i j : Instr} {s : State} (hb : s.status.busy = true) (hi : hasElements i = true)
    (hj : hasElements j = true) (h : elemOf i = elemOf j) : exec i s = exec j s := by
  rw [exec_busy_element hb hi, exec_busy_element hb hj, h]

/-- Settles O44: the engine's operation of a command is made of the fields that the command reads. -/
theorem ignoredFieldsDoNotMatter : Obligations.IgnoredFieldsDoNotMatter := by
  intro f f' c c' m m' p p' a a' s hb
  have element {i j : Instr} := exec_busy_congr (i := i) (j := j) hb
  refine ⟨?nop, ?lutIdent, element rfl rfl rfl, element rfl rfl rfl, element rfl rfl rfl, element rfl rfl rfl,
    element rfl rfl rfl, ?cdf, ?histClear, element rfl rfl rfl⟩
  all_goals simp only [exec, execNop, execLutIdent, execCdf, execHistClear, command_busy hb]

end Sys2Proof.Machine
end

section
/-! PROOFS. The command family: how a running command ends (R104, R106, R107, R110), what starts one (R90), the host's
reads and gated writes (R95, R97 to R99, R111), acceptance (R94, R108, R109), what each command's engine step does (R105,
R121 to R124, R141 to R145, R164), and its bus errors and UNSPEC cells (R107, R214). -/

namespace Sys2Proof.Machine

/-! ## How a running command ends (R104, R106, R107, R110) -/

/-- No command runs any more: it has completed (R106), or a bus error has aborted it (R107). -/
def State.Ended (s : State) : Prop :=
  s.status.busy = false ∧ (s.status.done = true ∨ (s.status.error = true ∧ s.status.errcode = .bus))

/-- An engine step ends the command, or BUSY stays. -/
theorem EngineStep.ended_or_busy_eq {i : Instr} {s t : State} (h : EngineStep i s t) :
    t.Ended ∨ t.status.busy = s.status.busy := by
  obtain e | e | e := h.status
  · exact .inr (congrArg Status.busy e :)
  · exact .inl ⟨congrArg Status.busy e, .inl (congrArg Status.done e)⟩
  · exact .inl ⟨congrArg Status.busy e, .inr ⟨congrArg Status.error e, congrArg Status.errcode e⟩⟩

/-- An engine step ends the command, or finishes one more of its elements (R104). -/
theorem EngineStep.ended_or_counted {i : Instr} {s t : State} (h : EngineStep i s t) (hinv : Inv s)
    (hb : s.status.busy = true) :
    t.Ended ∨ (s.cur.done.length < s.cur.n ∧ t.cur.done.length = s.cur.done.length + 1) := by
  cases h with
  | element u _ hl _ hf =>
    obtain ⟨-, hfresh⟩ := hinv.element_unfinished ⟨hb, hl⟩
    have hu : u.cur = s.cur := by rw [hf.rest, dropPick_cur]
    exact .inr ⟨hl, by rw [settle_cur, finish_cur, hu]; exact insertDone_length hfresh⟩
  | aborted => exact .inl ⟨rfl, .inr ⟨rfl, rfl⟩⟩
  | completed | ident | cleared | summed => exact .inl ⟨rfl, .inl rfl⟩

/-- Within `m` steps the command ends, or the run ends at an UNSPEC cell (R214). -/
def State.EndsWithin (m : Nat) (s : State) : Prop :=
  ∃ k ≤ m, (∃ t, RunsTo k s t ∧ t.Ended) ∨ Sys2Proof.core.run k s = .fault Fault.unwrittenRead

theorem State.Ended.endsWithin {s : State} (h : s.Ended) : s.EndsWithin 0 := ⟨0, le_rfl, .inl ⟨s, rfl, h⟩⟩

theorem State.EndsWithin.mono {s : State} {m m' : Nat} (h : s.EndsWithin m) (hm : m ≤ m') : s.EndsWithin m' := by
  obtain ⟨k, hk, hrun⟩ := h
  exact ⟨k, hk.trans hm, hrun⟩

/-- One step more, before a run that ends. -/
theorem State.EndsWithin.of_step {s t : State} {m : Nat} (h : t.EndsWithin m) (hstep : step s = .next t) :
    s.EndsWithin (m + 1) := by
  obtain ⟨k, hk, hrun⟩ := h
  exact ⟨k + 1, Nat.succ_le_succ hk, by simpa only [RunsTo, run_next hstep] using hrun⟩

/-- With no event to come, a running command ends within one step for each unfinished element, and one more. -/
theorem Inv.endsWithin {s : State} (h : Inv s) (hb : s.status.busy = true) (ha : s.agenda = []) :
    s.EndsWithin (s.cur.n - s.cur.done.length + 1) := by
  induction hleft : s.cur.n - s.cur.done.length using Nat.strong_induction_on generalizing s with
  | _ left ih =>
    have hturn : step s = exec s.cur.cmd s := step_of_engineMoves (.inl ⟨ha, rfl⟩) hb
    obtain ⟨t, hexec, he⟩ | hfault := exec_busy_cases (i := s.cur.cmd) hb
    · have hstep : step s = .next t := hturn.trans hexec
      have hrest : t.EndsWithin left := by
        obtain hended | hbusy := he.ended_or_busy_eq
        · exact hended.endsWithin.mono (Nat.zero_le left)
        obtain hended | ⟨hlt, hcount⟩ := he.ended_or_counted h hb
        · exact hended.endsWithin.mono (Nat.zero_le left)
        have hn : t.cur.n = s.cur.n := congrArg (·.cur.n) he.keeps
        have hagenda : t.agenda = [] := (congrArg State.agenda he.keeps).trans ha
        exact (ih (left - 1) (by omega) (stepKeepsInvariant s t h hstep) (hbusy.trans hb) hagenda (by omega)).mono
          (by omega)
      exact hrest.of_step hstep
    · exact ⟨1, by omega, .inr (run_fault (hturn.trans hfault) 0)⟩

/-- Settles O57: every step that does not end the command leaves one element less. -/
theorem commandsEnd : Obligations.CommandsEnd :=
  fun _ h hb ha => h.endsWithin hb ha

/-! ## What raises and lowers BUSY (R90, R110) -/

/-- A host write to a location other than CMD leaves BUSY as it is. -/
theorem writeAt_status_busy (l : Location) (v : Word) (s : State) :
    (State.writeAt l v s).status.busy = s.status.busy := by
  obtain e | ⟨-, e⟩ | ⟨-, e⟩ := writeAt_status l v s <;> rw [e] <;> rfl

/-- What a step does to BUSY: only the engine, an acceptance and a reset change it. -/
theorem StepTo.busy_cases {s t : State} (h : StepTo s t) :
    (s.status.busy = true ∧ t.Ended ∧ ∃ u, EngineMoves s u) ∨
    (∃ w rest i, s.agenda = wr 0x00C#12 w :: rest ∧ decode w = .ok i ∧ s.issueError i = none ∧
      t = (s.taken rest).accept i) ∨
    (ResetComes s ∧ t.status.busy = false) ∨
    t.status.busy = s.status.busy := by
  cases h with
  | engine u t hm hb _ he =>
    obtain hended | hbusy := he.ended_or_busy_eq
    · exact .inl ⟨hb, hended, u, hm⟩
    · exact .inr (.inr (.inr (hbusy.trans (congrArg Status.busy hm.status_eq))))
  | accepted w rest i ha _ hd hi => exact .inr (.inl ⟨w, rest, i, ha, hd, hi, rfl⟩)
  | reset p rest ha => exact .inr (.inr (.inl ⟨⟨p, rest, ha⟩, rfl⟩))
  | written off v rest => exact .inr (.inr (.inr (writeAt_status_busy ..)))
  | stored => exact .inr (.inr (.inr (by rw [markHost_status])))
  | idle | idleEngine | answered | rejected | loaded | maintained => exact .inr (.inr (.inr rfl))

/-- Settles O7: of the steps that change BUSY, only the acceptance of a CMD write raises it. -/
theorem onlyCmdWriteStartsWork : Obligations.OnlyCmdWriteStartsWork := by
  intro s t hs hstep ht
  obtain ⟨-, ⟨hidle, -⟩, -⟩ | haccepted | ⟨-, hidle⟩ | hsame := (stepTo_of_step hstep).busy_cases
  · simp [hidle] at ht
  · exact haccepted
  · simp [hidle] at ht
  · simp [hsame, hs] at ht

/-- Settles O8: of the steps that change BUSY, only the engine's and reset lower it. -/
theorem runningCommandEndsOnlyBy : Obligations.RunningCommandEndsOnlyBy := by
  intro s t hs hstep ht
  obtain ⟨-, ⟨-, hended⟩, u, hm⟩ | ⟨w, rest, i, -, -, -, rfl⟩ | ⟨hreset, -⟩ | hsame :=
    (stepTo_of_step hstep).busy_cases
  · exact .inr ⟨u, hm, hended⟩
  · cases ht
  · exact .inl hreset
  · simp [hsame, hs] at ht

/-! ## Host reads and host writes (R90, R95, R97 to R99, R111) -/

@[simp] theorem taken_status (rest : List Event) (s : State) : (s.taken rest).status = s.status := rfl

/-- The step that takes a host write to CMD (R90). -/
theorem step_cmdWrite (w : Word) (s : State) :
    step (s.facing (wr 0x00C#12 w)) = writeCmd w (s.taken s.agenda) := by
  rw [step_facing, wr_event_wf (by decide)]
  rfl

/-- Settles O5: a word that decodes, written while no command runs, goes to exec. -/
theorem cmdWriteRunsDecodedCommand : Obligations.CmdWriteRunsDecodedCommand := by
  intro s w i hb hd
  simp only [step_cmdWrite, writeCmd, taken_status, hb, Bool.false_eq_true, if_false, hd]

/-- Settles O23: the word is not decoded. -/
theorem cmdWriteWhileBusyRejected : Obligations.CmdWriteWhileBusyRejected := by
  intro s w hb
  rw [step_cmdWrite, writeCmd, taken_status, if_pos hb]
  rfl

/-- The step that takes a well-formed host read (R95). -/
theorem step_read {x : Transaction} (hd : x.dir = .read) (hw : x.width = .w32) (h0 : x.off.extractLsb' 0 2 = 0)
    (s : State) : step (s.facing (.reg x)) = hostRead x.off s := by
  have hwf : x.wf = true := by simp [Transaction.wf, hw, h0]
  rw [step_facing]
  simp only [handle, transact, hwf, if_true, hd]

/-- The step that takes `RD off` (R84, R95). -/
theorem step_rd {off : BitVec 12} (h0 : off.extractLsb' 0 2 = 0) (s : State) :
    step (s.facing (rd off)) = hostRead off s :=
  step_read rfl rfl h0 s

/-- A host read fails only at an UNSPEC cell (R100, R214). -/
theorem readAt_error {l : Location} {s : State} {f : Fault} (h : s.readAt l = .error f) : f = .unwrittenRead := by
  cases l with
  | hist i | cdf i =>
    simp only [State.readAt, readCell] at h
    split at h <;> cases h
    rfl
  | lut i =>
    simp only [State.readAt] at h
    split at h <;> cases h
    rfl
  | _ => cases h

theorem hostRead_error {off : BitVec 12} {s : State} {f : Fault} (h : s.readAt (locate off) = .error f) :
    hostRead off s = .fault f := by
  simp only [hostRead, h]

/-- Settles O14: the read changes nothing but the answers, and its one failure is an UNSPEC cell. -/
theorem hostReadHasNoSideEffect : Obligations.HostReadHasNoSideEffect := by
  intro s x hd hw h0
  rw [step_read hd hw h0]
  refine ⟨fun v hv => by simp only [hostRead, hv], fun f hf => ?_⟩
  obtain rfl := readAt_error hf
  exact ⟨rfl, hostRead_error hf⟩

/-- The locations a host may write while no command runs only (R97). -/
def Location.isRwi : Location → Bool
  | .srcAddr | .dstAddr | .width | .height | .lutAddr | .hist _ | .lut _ => true
  | _ => false

/-- While a command runs a write of an RWI location is dropped with error BUSY (R97). -/
theorem writeAt_rwi_busy {l : Location} (hl : l.isRwi = true) {s : State} (hb : s.status.busy = true) (v : Word) :
    State.writeAt l v s = s.recordError .busy := by
  cases l with
  | srcAddr | dstAddr | width | height | lutAddr | hist | lut => exact if_pos hb
  | _ => cases hl

/-- While no command runs a gated write is done (R97). -/
theorem rwi_idle {s : State} (hb : s.status.busy = false) (t : State) : s.rwi t = t := by
  simp [State.rwi, hb]

/-- The words of the windows are 4-aligned (R36 to R38). -/
theorem window_offset_aligned {base : Nat} (hbase : base % 4 = 0) (i : Byte) :
    (BitVec.ofNat 12 (base + 4 * i.toNat)).extractLsb' 0 2 = 0 := by
  apply BitVec.eq_of_toNat_eq
  simp only [BitVec.extractLsb'_toNat, Nat.shiftRight_zero, BitVec.toNat_ofNat, BitVec.ofNat_eq_ofNat]
  omega

/-- The offsets of the RWI locations (R26 to R30, R36, R38). -/
theorem locate_isRwi {off : BitVec 12} {i : Byte}
    (h : off ∈ [0x010#12, 0x014#12, 0x018#12, 0x01C#12, 0x020#12, BitVec.ofNat 12 (0x400 + 4 * i.toNat),
      BitVec.ofNat 12 (0xC00 + 4 * i.toNat)]) : off.extractLsb' 0 2 = 0 ∧ (locate off).isRwi = true := by
  simp only [List.mem_cons, List.not_mem_nil, or_false] at h
  obtain rfl | rfl | rfl | rfl | rfl | rfl | rfl := h
  iterate 5 exact ⟨rfl, rfl⟩
  · exact ⟨window_offset_aligned rfl i, by rw [locate_hist]; rfl⟩
  · exact ⟨window_offset_aligned rfl i, by rw [locate_lut]; rfl⟩

theorem Location.ne_cmd_of_isRwi {l : Location} (h : l.isRwi = true) : l ≠ .cmd := by
  rintro rfl
  cases h

/-- The step that takes a write of an RWI location while no command runs (R97). -/
theorem step_write_rwi {off : BitVec 12} {l : Location} {v : Word} {s t : State} (h0 : off.extractLsb' 0 2 = 0)
    (hl : locate off = l) (hrwi : l.isRwi = true) (hb : s.status.busy = false)
    (ht : State.writeAt l v (s.taken s.agenda) = (s.taken s.agenda).rwi t) : step (s.facing (wr off v)) = .next t := by
  rw [step_write h0 (by rw [hl]; exact Location.ne_cmd_of_isRwi hrwi), hl, ht, rwi_idle (by rwa [taken_status])]

/-- Settles O18: the gate of R97 at each of the seven kinds of RWI location. -/
theorem rwiWritesGatedByBusy : Obligations.RwiWritesGatedByBusy := by
  intro s v i
  refine ⟨fun hb => ⟨?src, ?dst, ?width, ?height, ?lutAddr, ?hist, ?lut⟩, fun hb off hoff => ?busy⟩
  case src | dst | width | height | lutAddr => exact step_write_rwi rfl rfl rfl hb rfl
  case hist =>
    exact ⟨_, step_write_rwi (window_offset_aligned rfl i) (locate_hist i) rfl hb rfl, rfl,
      fun j => Table.get_set ..⟩
  case lut =>
    refine ⟨_, step_write_rwi (window_offset_aligned rfl i) (locate_lut i) rfl hb rfl, rfl, fun j c => ?_⟩
    rw [Table.get_set]
    split
    · exact lane_ofWord v c
    · rfl
  case busy =>
    obtain ⟨h0, hrwi⟩ := locate_isRwi hoff
    rw [step_write h0 (Location.ne_cmd_of_isRwi hrwi), writeAt_rwi_busy hrwi (by rwa [taken_status])]
    rfl

/-- IRQ_EN as written reads back with its reserved bits 0 (R98). -/
theorem irqEn_word_ofWord (v : Word) : (IrqEn.ofWord v).word = v &&& 0x00000003#32 := by
  refine BitVec.eq_of_getLsbD_eq fun j hj => ?_
  simp only [IrqEn.word, IrqEn.ofWord, BitVec.getLsbD_and, BitVec.getLsbD_append]
  match j with
  | 0 | 1 => simp
  | j + 2 => simp [BitVec.getLsbD_ofNat, Nat.testBit_succ]

/-- Settles O19: the write reaches its register with no gate. -/
theorem alwaysWritableRegisters : Obligations.AlwaysWritableRegisters :=
  fun s v => ⟨⟨_, step_write (by decide) (by decide) v s, rfl, irqEn_word_ofWord v⟩,
    step_write (by decide) (by decide) v s, step_write (by decide) (by decide) v s⟩

/-- Settles O20: each of these offsets names a location whose write does nothing. -/
theorem readOnlyWritesIgnored : Obligations.ReadOnlyWritesIgnored := by
  intro s v i off hoff
  have ignored {l : Location} (h0 : off.extractLsb' 0 2 = 0) (hl : locate off = l) (hc : l ≠ .cmd)
      (hkeep : ∀ t, State.writeAt l v t = t) : step (s.facing (wr off v)) = .next (s.taken s.agenda) := by
    rw [step_write h0 (by rwa [hl]), hl, hkeep]
  obtain rfl | rfl | rfl | rfl | ⟨h0, hlo, hhi⟩ := hoff
  · exact ignored rfl rfl (by decide) fun _ => rfl
  · exact ignored rfl rfl (by decide) fun _ => rfl
  · exact ignored rfl rfl (by decide) fun _ => rfl
  · exact ignored (window_offset_aligned rfl i) (locate_cdf i) (by simp) fun _ => rfl
  · exact ignored h0 (locate_reserved h0 hlo hhi) (by decide) fun _ => rfl

/-! ## Acceptance (R92, R94, R108, R109) -/

/-- A counter after the acceptance of `i` (R78, R94). -/
theorem accept_hist_get (i : Instr) (s : State) (v : Byte) :
    (s.accept i).hist.get v = if i.opc = 4#4 ∧ i.acc = false then .val 0#32 else s.hist.get v := by
  simp only [accept_hist, clearsHist_iff]
  split
  · exact get_zeroHist v
  · rfl

/-- A command that the checks accept, breaking no duty and waiting for no maintenance, is accepted (R92). -/
theorem issue_accepted {i : Instr} {s : State} (he : s.issueError i = none) (hd : s.dutyBroken i = false)
    (hm : s.needsMaintenance i = false) : issue i s = .next (s.accept i) := by
  simp [issue, he, hd, hm]

/-- Settles O26: the checks, the duties and the maintenance leave acceptance as the one outcome. -/
theorem acceptanceLatchesCommand : Obligations.AcceptanceLatchesCommand := by
  intro i s hb he hd hm
  have hexec : exec i s = .next (s.accept i) := (exec_idle hb).trans (issue_accepted he hd hm)
  exact ⟨_, hexec, rfl, fun w hw => encodeDecodeRoundTrip w i hw, accept_hist_get i s⟩

/-- A region with no byte meets nothing (R63). -/
theorem not_meets_of_empty {p : Region} (h : p.size = 0) (q : Region) : p.meets q = false := by
  simp [Region.meets, h]

/-- A region with no byte holds no address. -/
theorem not_holds_of_empty {r : Region} (h : r.size = 0) (a : Nat) : r.holds a = false := by
  rw [← Bool.not_eq_true, holds_iff]
  omega

/-- A command that reaches no byte of memory breaks no duty and waits for no maintenance (R67, R221). -/
theorem issue_of_no_bytes {i : Instr} {s : State} (hsrc : i.srcBytes * i.count s.width s.height = 0)
    (hdst : i.dstBytes * i.count s.width s.height = 0) (he : s.issueError i = none) :
    issue i s = .next (s.accept i) := by
  have hsrc' : (i.srcRegion s.srcAddr s.lutAddr (i.count s.width s.height)).size = 0 := hsrc
  have hdst' : (i.dstRegion s.dstAddr (i.count s.width s.height)).size = 0 := hdst
  have hd : s.dutyBroken i = false := by
    simp [State.dutyBroken, not_meets_of_empty hsrc', not_meets_of_empty hdst']
  have hm : s.needsMaintenance i = false := by
    simp [State.needsMaintenance, not_holds_of_empty hsrc', not_holds_of_empty hdst']
  exact issue_accepted he hd hm

/-- The commands of R109: their OPC says that they go over the image, element by element. -/
theorem image_of_opc {i : Instr} (h : i.opc = 3#4 ∨ i.opc = 4#4 ∨ i.opc = 7#4) :
    i.isImage = true ∧ hasElements i = true ∧ ∀ width height, i.count width height = pixels width height := by
  cases i with
  | applyLutU8 | applyLutRgba | histU8 | histRgba | sat => exact ⟨rfl, rfl, fun _ _ => rfl⟩
  | nop | lutIdent | lutLoad | cdf | histClear => simp [Instr.opc] at h

/-- An element command with no element left completes at its next engine step (R104, R109). -/
theorem exec_nothing_left {i : Instr} {s : State} (hb : s.status.busy = true) (hi : hasElements i = true)
    (hn : s.cur.n ≤ s.cur.done.length) : exec i s = .next s.complete := by
  rw [exec_busy_element hb hi, elementStep, if_neg (Nat.not_lt.2 hn)]

/-- Settles O27: with N = 0 there is nothing to check, no byte to reach and no element to do. -/
theorem emptyImageIsNoOp : Obligations.EmptyImageIsNoOp := by
  intro i s hopc hempty hb
  obtain ⟨himage, helements, hcount⟩ := image_of_opc hopc
  have hn : i.count s.width s.height = 0 := by
    rw [hcount, pixels, Nat.mul_eq_zero]
    exact hempty.imp (fun h => by rw [h]; rfl) (fun h => by rw [h]; rfl)
  have he : s.issueError i = none := by
    rw [State.issueError, operandError_eq, hn]
    exact if_pos ⟨himage, rfl⟩
  refine ⟨?_, ?_, rfl, rfl, rfl, accept_hist_get i s⟩
  · rw [exec_idle hb]
    exact issue_of_no_bytes (by rw [hn, Nat.mul_zero]) (by rw [hn, Nat.mul_zero]) he
  · exact exec_nothing_left rfl helements (by rw [accept_cur, hn]; exact Nat.zero_le _)

/-- A word with OPC 0 and its reserved bits 0 is NOP (R81). -/
theorem decode_nop {w : Word} (hres : w.extractLsb' 14 18 = 0) (hopc : w.extractLsb' 0 4 = 0) :
    ∃ fmt ch m par acc, decode w = .ok (.nop fmt ch m par acc) := by
  simp [decode, hres, hopc]

/-! ## Commands of one engine step (R105, R108, R121, R141, R145) -/

section
variable {s : State} (hb : s.status.busy = true) (fmt : BitVec 2) (ch : Channel) (m : BitVec 4) (par acc : Bool)
include hb

theorem exec_nop_busy : exec (.nop fmt ch m par acc) s = .next s.complete := by
  simp only [exec, execNop, command_busy hb]

theorem exec_lutIdent_busy :
    exec (.lutIdent fmt ch m par acc) s = .next (State.wholeDone { s with lut := identTable m s.lut }) := by
  simp only [exec, execLutIdent, command_busy hb]

theorem exec_histClear_busy :
    exec (.histClear fmt ch m par acc) s = .next (State.wholeDone { s with hist := zeroHist }) := by
  simp only [exec, execHistClear, command_busy hb]

theorem exec_cdf_busy : exec (.cdf fmt ch m par acc) s = cdfStep s := by
  simp only [exec, execCdf, command_busy hb]

end

/-- Settles O30: NOP has no operand to check and no byte to reach. -/
theorem nopCompletes : Obligations.NopCompletes := by
  refine ⟨fun fmt ch m par acc s hb => ⟨?_, rfl⟩, fun fmt ch m par acc _ hb => exec_nop_busy hb fmt ch m par acc,
    fun _ => decode_nop⟩
  rw [exec_idle hb]
  exact issue_of_no_bytes rfl rfl (operandChecksInOrder s fmt ch m par acc).1

/-- A command that does all 256 entries in one step (R105). -/
theorem wholeDone_eq (s : State) : s.wholeDone = { s with
    cur := { s.cur with done := List.range 256 }, progress := 256#32
    status := { s.status with busy := false, done := true } } := by
  rw [← span_zero_eq_range]
  rfl

/-- Settles O31: the merged table, lane by lane. -/
theorem lutIdentFillsSelectedLanes : Obligations.LutIdentFillsSelectedLanes := by
  intro fmt ch m par acc s hb
  refine ⟨_, exec_lutIdent_busy hb .., wholeDone_eq _, fun i c => ?_⟩
  simp only [wholeDone_lut, identTable, Table.get_fill, lane_merge, lane_splat, laneOn]

/-- Settles O32: every cell of the cleared table is 0. -/
theorem histClearZeroesCounters : Obligations.HistClearZeroesCounters := by
  intro fmt ch m par acc s hb
  exact ⟨_, exec_histClear_busy hb .., wholeDone_eq _, get_zeroHist⟩

/-- The cells of a table in order, by the index of each. -/
theorem Table.toList_eq_map {α : Type} (t : Table α) :
    t.toList = (List.range 256).map fun k => t.get (BitVec.ofNat 8 k) := by
  refine List.ext_getElem (by simp) fun k hk _ => ?_
  have hk' : k < 256 := by simpa using hk
  simp [Table.get, Nat.mod_eq_of_lt hk']

/-- Counters that all hold values (R145). -/
theorem counters_map_val (f : Nat → Word) (ks : List Nat) :
    counters (ks.map fun k => .val (f k)) = some (ks.map fun k => (f k).toNat) := by
  induction ks with
  | nil => rfl
  | cons k ks ih => simp only [List.map_cons, counters, ih]

/-- The running sum at place `j` adds up the values as far as `j`. -/
theorem runningSums_getD (vs : List Nat) (sum j : Nat) (h : j < vs.length) :
    (runningSums sum vs).getD j 0 = sum + (vs.take (j + 1)).sum := by
  induction vs generalizing sum j with
  | nil => cases h
  | cons v vs ih =>
    cases j with
    | zero => simp [runningSums]
    | succ j =>
      have htail := ih (sum + v) j (Nat.lt_of_succ_lt_succ h)
      simp only [runningSums, List.getD_cons_succ, htail, List.take_succ_cons, List.sum_cons, Nat.add_assoc]

/-- A sum over indices is the sum of the list of values. -/
theorem sum_map_range (f : Nat → Nat) (n : Nat) : ((List.range n).map f).sum = ∑ k ∈ Finset.range n, f k := rfl

/-- Settles O33: place `i` of the running sums adds up the counters as far as `i`. -/
theorem cdfStoresPrefixSums : Obligations.CdfStoresPrefixSums := by
  intro fmt ch m par acc s h hb hval
  have hcounters : counters s.hist.toList = some ((List.range 256).map fun k => (h (BitVec.ofNat 8 k)).toNat) := by
    rw [Table.toList_eq_map]
    simp only [hval, counters_map_val]
  refine ⟨_, (exec_cdf_busy hb ..).trans (by rw [cdfStep, hcounters]), wholeDone_eq _, fun i => ?_⟩
  have hi : i.toNat + 1 ≤ 256 := i.isLt
  rw [wholeDone_cdf]
  simp only [cdfTable, Table.get_fill]
  rw [runningSums_getD _ _ _ (by simpa using hi), ← List.map_take, List.take_range, Nat.min_eq_left hi, sum_map_range,
    Nat.zero_add]

/-! ## Elements that finish (R104, R122 to R124, R142 to R144, R164) -/

/-- Settles O39: under the invariant the choice is among the unfinished elements. -/
theorem chosenElementIsUnfinished : Obligations.ChosenElementIsUnfinished :=
  fun _ h hl => h.element_unfinished hl

/-- Counting an element leaves HOVF as it is. -/
theorem statusAfterElement_hovf (s : State) :
    ({ s.statusAfterElement with hovf := s.status.hovf } : Status) = s.statusAfterElement := by
  unfold State.statusAfterElement
  split <;> rfl

/-- LUT_LOAD merges the entry that it reads into the one of the element (R122). -/
theorem elemOf_lutLoad {s : State} {fmt : BitVec 2} {ch : Channel} {m : BitVec 4} {par acc : Bool}
    (hr : s.memOk (s.cur.lut.toNat + 4 * s.element) 4 .read = true) :
    elemOf (.lutLoad fmt ch m par acc) s.element s.dropPick = .ok { s.dropPick with
      draws := s.dropPick.draws + 4
      lut := s.lut.set (BitVec.ofNat 8 s.element) ((s.lut.get (BitVec.ofNat 8 s.element)).merge m
        (LutEntry.ofWord (BitVec.ofNat 32 (leNat (s.seen (s.cur.lut.toNat + 4 * s.element) 4))))) } := by
  simp only [elemOf, lutLoadElem, dropPick_cur, portRead_dropPick hr, dropPick_lut]

/-- Settles O34: of the one entry set, the lanes that LMASK selects come from the word read. -/
theorem lutLoadElementLoadsLanes : Obligations.LutLoadElementLoadsLanes := by
  intro fmt ch m par acc s hl a hr
  refine ⟨_, exec_element_ok hl rfl (elemOf_lutLoad hr), ?frame, fun i c => ?lanes⟩
  case frame =>
    rw [dropPick_eq]
    dsimp only
    rw [statusAfterElement_hovf]
  case lanes =>
    dsimp only
    rw [Table.get_set, ite_and]
    split
    · next hi =>
      rw [lane_merge, lane_ofWord, chanByte_leNat_seen, hi]
      rfl
    · rfl

/-- An element that writes one byte, to a port access that completes (R104, R123, R164). -/
theorem State.WritesElement.exec_ok_byte {i : Instr} {b : Byte} {s : State} (h : s.WritesElement i [b])
    (hi : hasElements i = true) (hl : s.elementLeft) (hone : i.dstBytes = 1)
    (hw : s.memOk (s.cur.dst.toNat + s.element) 1 .write = true) :
    ∃ t, exec i s = .next t ∧
      t = { s with
        mem := t.mem, cur := s.curAfterElement, status := s.statusAfterElement, progress := s.progress + 1#32
        picks := s.picks.tail, draws := t.draws
        portDirty :=
          if s.platform.coherent then s.portDirty else s.portDirty ++ span (s.cur.dst.toNat + s.element) 1 } ∧
      ∀ x : Nat, t.mem.byte x = if x = s.cur.dst.toNat + s.element then some b else s.mem.byte x := by
  have hplace : s.elementPlace i = s.cur.dst.toNat + s.element := by rw [State.elementPlace, hone, Nat.one_mul]
  have hok := h.exec_ok hi hl
  rw [hplace, hone] at hok
  obtain ⟨t, hexec, hframe, hmem⟩ := hok hw
  refine ⟨t, hexec, hframe, fun x => ?_⟩
  rw [hmem]
  by_cases hx : x = s.cur.dst.toNat + s.element
  · rw [if_pos hx, if_pos (by omega), hx, Nat.sub_self]
    rfl
  · rw [if_neg hx, if_neg (by omega)]

/-- Settles O35: the element comes to one write of the byte looked up. -/
theorem applyU8ElementLooksUpLane : Obligations.ApplyU8ElementLooksUpLane :=
  fun _ _ _ _ _ _ hl hr hw ho => (applyU8_writesElement hr ho).exec_ok_byte rfl hl rfl hw

/-- Settles O38: the element comes to one write of the cast. -/
theorem satElementCastsSample : Obligations.SatElementCastsSample :=
  fun _ _ _ _ _ _ hl hr hw => (sat_writesElement hr).exec_ok_byte rfl hl rfl hw

/-- Settles O36: the four bytes of the pixel stand in the order of the lanes. -/
theorem applyRgbaElementLooksUpChannels : Obligations.ApplyRgbaElementLooksUpChannels := by
  intro ch m par acc s o hl a d p hr hw hon hoff
  obtain ⟨t, hexec, hframe, hmem⟩ :=
    (applyRgba_writesElement (ch := ch) (par := par) (acc := acc) hr hon hoff).exec_ok rfl hl hw
  have hbyte (x : Nat) : t.mem.byte x =
      if d ≤ x ∧ x < d + 4 then some ([o .r, o .g, o .b, o .a].getD (x - d) 0#8) else s.mem.byte x := hmem x
  refine ⟨t, hexec, hframe, fun c => ?_, fun x hx => ?_⟩
  · have hc : c.lane < 4 := lane_lt c
    rw [hbyte, if_pos (by omega), Nat.add_sub_cancel_left]
    cases c <;> rfl
  · rw [hbyte, if_neg (by omega)]

/-- HIST.U8 counts the sample seen (R142). -/
theorem elemOf_histU8 {s : State} {ch : Channel} {m : BitVec 4} {par acc : Bool}
    (hr : s.memOk (s.cur.src.toNat + s.element) 1 .read = true) :
    elemOf (.histU8 ch m par acc) s.element s.dropPick =
      countByte ((s.seen (s.cur.src.toNat + s.element) 1).getD 0 0#8)
        { s.dropPick with draws := s.dropPick.draws + 1 } := by
  simp only [elemOf, histU8Elem, dropPick_cur, portRead_dropPick hr, ofNat_leNat_seen]

/-- HIST.RGBA counts channel CHSEL of the pixel seen (R143). -/
theorem elemOf_histRgba {s : State} {ch : Channel} {m : BitVec 4} {par acc : Bool}
    (hr : s.memOk (s.cur.src.toNat + 4 * s.element) 4 .read = true) :
    elemOf (.histRgba ch m par acc) s.element s.dropPick =
      countByte (byteOf (s.seen (s.cur.src.toNat + 4 * s.element) 4) ch)
        { s.dropPick with draws := s.dropPick.draws + 4 } := by
  simp only [elemOf, histRgbaElem, dropPick_cur, portRead_dropPick hr, chanByte_leNat_seen]

/-- A counter passes 2^32 - 1 exactly from its largest value (R144). -/
theorem counter_passes_iff (c : Word) : decide (2 ^ 32 ≤ c.toNat + 1) = (c == 0xFFFFFFFF#32) := by
  have hc := c.isLt
  rw [Bool.eq_iff_iff, decide_eq_true_iff, beq_iff_eq, ← BitVec.toNat_inj, BitVec.toNat_ofNat]
  omega

/-- `count(v)` of a counter that holds a value (R144). -/
theorem countByte_val {v : Byte} {s : State} {c : Word} (hc : s.hist.get v = .val c) :
    countByte v s = .ok { s with
      hist := s.hist.set v (.val (c + 1#32))
      status := { s.status with hovf := s.status.hovf || c == 0xFFFFFFFF#32 } } := by
  simp only [countByte, hc, Status.overflow, counter_passes_iff, BitVec.ofNat_add, BitVec.ofNat_toNat,
    BitVec.setWidth_eq]

/-- An element that counts `v`, after its read, is finished with that counter one higher (R104, R144). -/
theorem exec_count_ok {i : Instr} {v : Byte} {s : State} {d : Nat} {c : Word} (hi : hasElements i = true)
    (hl : s.elementLeft) (helem : elemOf i s.element s.dropPick = countByte v { s.dropPick with draws := d })
    (hc : s.hist.get v = .val c) :
    ∃ t, exec i s = .next t ∧
      t = { s with
        hist := t.hist, cur := s.curAfterElement, progress := s.progress + 1#32
        status := { s.statusAfterElement with hovf := s.status.hovf || c == 0xFFFFFFFF#32 }
        picks := s.picks.tail, draws := t.draws } ∧
      ∀ j : Byte, t.hist.get j = if j = v then .val (c + 1#32) else s.hist.get j := by
  rw [countByte_val (c := c) (by simpa using hc)] at helem
  refine ⟨_, exec_element_ok hl hi helem, ?_, fun j => ?_⟩
  · rw [dropPick_eq]
  · dsimp only
    rw [Table.get_set, dropPick_hist]

/-- Settles O37: both commands come to one count, of the value that each reads. -/
theorem histElementCountsOnce : Obligations.HistElementCountsOnce := by
  intro ch m par acc s c hl
  exact ⟨fun hr hc => exec_count_ok rfl hl (elemOf_histU8 hr) hc,
    fun hr hc => exec_count_ok rfl hl (elemOf_histRgba hr) hc⟩

/-! ## Elements that err or read an UNSPEC cell (R107, R214) -/

/-- The place of the next element in what `i` reads (R57). -/
def State.elementSource (i : Instr) (s : State) : Nat :=
  (i.readBase s.cur.src s.cur.lut).toNat + i.srcBytes * s.element

/-- An element whose read errs comes to nothing (R107). -/
theorem elemOf_read_error {i : Instr} {s : State} (hi : hasElements i = true)
    (hr : s.memOk (s.elementSource i) i.srcBytes .read = false) :
    elemOf i s.element s.dropPick = .busError s.dropPick := by
  have hnone := portRead_dropPick_error hr
  cases i with
  | nop | lutIdent | cdf | histClear => cases hi
  | lutLoad =>
    simp only [State.elementSource, Instr.readBase, Instr.srcBytes] at hnone
    simp only [elemOf, lutLoadElem, dropPick_cur, hnone]
  | applyLutU8 | applyLutRgba | histU8 | histRgba | sat =>
    simp only [State.elementSource, Instr.readBase, Instr.srcBytes, Nat.one_mul] at hnone
    simp only [elemOf, applyU8Elem, applyRgbaElem, histU8Elem, histRgbaElem, satElem, dropPick_cur, hnone]

/-- An element whose read errs aborts the command and has no effect (R107). -/
theorem exec_read_error {i : Instr} {s : State} (hi : hasElements i = true) (hl : s.elementLeft)
    (hr : s.memOk (s.elementSource i) i.srcBytes .read = false) :
    ∃ t, exec i s = .next t ∧
      t = { s with
        status := { s.status with busy := false, error := true, errcode := .bus }
        picks := s.picks.tail, draws := t.draws } := by
  refine ⟨_, exec_element_abort hl hi (elemOf_read_error hi hr), ?_⟩
  rw [dropPick_eq]
  rfl

/-- Settles O41: the six commands that read, each at its element's place. -/
theorem readBusErrorAborts : Obligations.ReadBusErrorAborts := by
  intro fmt ch m par acc s hl p hp hr
  simp only [List.mem_cons, List.not_mem_nil, or_false] at hp
  obtain rfl | rfl | rfl | rfl | rfl | rfl := hp
  all_goals
    refine exec_read_error rfl hl ?_
    simpa only [State.elementSource, Instr.readBase, Instr.srcBytes, Nat.one_mul] using hr

/-- An entry with an UNSPEC lane has no window word (R100). -/
theorem toWord_none {e : LutEntry} {c : Channel} (h : e.lane c = .unspec) : e.toWord? = none := by
  unfold LutEntry.toWord?
  split
  · next hr hg hb ha =>
    cases c with
    | r => cases h.symm.trans hr
    | g => cases h.symm.trans hg
    | b => cases h.symm.trans hb
    | a => cases h.symm.trans ha
  · rfl

/-- The output pixel is packed from its four channels as a window word is from its lanes (R53, R126). -/
theorem applyPixel_eq_toWord (lut : Table LutEntry) (m : BitVec 4) (pixel : Word) :
    applyPixel lut m pixel = LutEntry.toWord?
      { r := applyChannel lut m pixel .r, g := applyChannel lut m pixel .g
        b := applyChannel lut m pixel .b, a := applyChannel lut m pixel .a } := rfl

/-- A selected lane that is UNSPEC leaves APPLY_LUT.RGBA without an output pixel (R214). -/
theorem applyPixel_none {lut : Table LutEntry} {m : BitVec 4} {pixel : Word} {c : Channel}
    (hon : m.getLsbD c.lane = true) (hc : (lut.get (chanByte pixel c)).lane c = .unspec) :
    applyPixel lut m pixel = none := by
  have hchannel : applyChannel lut m pixel c = .unspec := (if_pos hon).trans hc
  rw [applyPixel_eq_toWord]
  exact toWord_none (c := c) (by cases c <;> exact hchannel)

theorem elemOf_applyU8_stop {s : State} {ch : Channel} {m : BitVec 4} {par acc : Bool}
    (hr : s.memOk (s.cur.src.toNat + s.element) 1 .read = true)
    (hc : (s.lut.get ((s.seen (s.cur.src.toNat + s.element) 1).getD 0 0#8)).lane ch = .unspec) :
    elemOf (.applyLutU8 ch m par acc) s.element s.dropPick = .stop .unwrittenRead := by
  simp only [elemOf, applyU8Elem, dropPick_cur, portRead_dropPick hr, dropPick_lut, ofNat_leNat_seen, hc]

theorem elemOf_applyRgba_stop {s : State} {ch c : Channel} {m : BitVec 4} {par acc : Bool}
    (hr : s.memOk (s.cur.src.toNat + 4 * s.element) 4 .read = true) (hon : m.getLsbD c.lane = true)
    (hc : (s.lut.get (byteOf (s.seen (s.cur.src.toNat + 4 * s.element) 4) c)).lane c = .unspec) :
    elemOf (.applyLutRgba ch m par acc) s.element s.dropPick = .stop .unwrittenRead := by
  rw [← chanByte_leNat_seen] at hc
  simp only [elemOf, applyRgbaElem, dropPick_cur, portRead_dropPick hr, dropPick_lut, applyPixel_none hon hc]

/-- An UNSPEC counter leaves CDF without its sums (R214). -/
theorem counters_none {cs : List (ArrayCell Word)} (h : .unspec ∈ cs) : counters cs = none := by
  induction cs with
  | nil => cases h
  | cons c cs ih =>
    cases c with
    | unspec => rfl
    | val v =>
      have htail : counters cs = none := ih (by simpa using h)
      simp only [counters, htail]

/-- `count(v)` of an UNSPEC counter (R214). -/
theorem countByte_unspec {v : Byte} {s : State} (hc : s.hist.get v = .unspec) :
    countByte v s = .stop .unwrittenRead := by
  simp only [countByte, hc]

/-- An element that counts an UNSPEC counter ends the run (R214). -/
theorem exec_count_stop {i : Instr} {v : Byte} {s : State} {d : Nat} (hi : hasElements i = true) (hl : s.elementLeft)
    (helem : elemOf i s.element s.dropPick = countByte v { s.dropPick with draws := d })
    (hc : s.hist.get v = .unspec) : exec i s = .fault .unwrittenRead :=
  exec_element_stop hl hi (helem.trans (countByte_unspec (by simpa using hc)))

/-- Settles O43: the five commands that look a cell up, and the three windows. -/
theorem unspecCellFaults : Obligations.UnspecCellFaults := by
  intro fmt ch m par acc s
  refine ⟨fun hl hr hc => ?applyU8, fun c hl hr hon hc => ?applyRgba, fun hl hr hc => ?histU8,
    fun hl hr hc => ?histRgba, fun i hb hc => ?cdf, fun i hc => ?histWindow, fun i hc => ?cdfWindow,
    fun i c hc => ?lutWindow⟩
  case applyU8 => exact exec_element_stop hl rfl (elemOf_applyU8_stop hr hc)
  case applyRgba => exact exec_element_stop hl rfl (elemOf_applyRgba_stop hr hon hc)
  case histU8 => exact exec_count_stop rfl hl (elemOf_histU8 hr) hc
  case histRgba => exact exec_count_stop rfl hl (elemOf_histRgba hr) hc
  case cdf =>
    have hmem : .unspec ∈ s.hist.toList := by
      rw [Table.toList_eq_map]
      exact List.mem_map.2 ⟨i.toNat, List.mem_range.2 i.isLt, by simpa using hc⟩
    rw [exec_cdf_busy hb, cdfStep, counters_none hmem]
  case histWindow =>
    rw [step_rd (window_offset_aligned rfl i)]
    exact hostRead_error (by rw [locate_hist, State.readAt, hc, readCell])
  case cdfWindow =>
    rw [step_rd (window_offset_aligned rfl i)]
    exact hostRead_error (by rw [locate_cdf, State.readAt, hc, readCell])
  case lutWindow =>
    rw [step_rd (window_offset_aligned rfl i)]
    exact hostRead_error (by rw [locate_lut, State.readAt, toWord_none hc])

end Sys2Proof.Machine
end

section
/-! PROOFS. The histogram family: a whole HIST.U8 leaves in every counter the number of samples of its value (R142, R144,
R148). -/

namespace Sys2Proof.Machine

/-- How many of the samples `v k`, `k ∈ ks`, equal `b` (R148). -/
def occurrences (v : Nat → Byte) (b : Byte) (ks : Finset Nat) : Nat := (ks.filter fun k => v k = b).card

/-- A new sample raises the number of its own value only. -/
theorem occurrences_insert {k : Nat} {ks : Finset Nat} (h : k ∉ ks) (v : Nat → Byte) (b : Byte) :
    occurrences v b (insert k ks) = if b = v k then occurrences v b ks + 1 else occurrences v b ks := by
  unfold occurrences
  rw [Finset.filter_insert]
  by_cases hb : v k = b
  · rw [if_pos hb, if_pos hb.symm, Finset.card_insert_of_notMem fun hk => h (Finset.mem_filter.1 hk).1]
  · rw [if_neg hb, if_neg (Ne.symm hb)]

/-- A value occurs at most once per finished element. -/
theorem occurrences_done_le (v : Nat → Byte) (b : Byte) (done : List Nat) :
    occurrences v b done.toFinset ≤ done.length :=
  (Finset.card_filter_le ..).trans done.toFinset_card_le

theorem toFinset_insertDone (k : Nat) (done : List Nat) :
    (insertDone k done).toFinset = insert k done.toFinset := by
  ext j
  simp only [List.mem_toFinset, Finset.mem_insert, mem_insertDone]

/-- The finished elements of a command that has finished each are all of its elements. -/
theorem done_toFinset_of_full {s : State} (h : Inv s) (hfull : s.cur.done.length = s.cur.n) :
    s.cur.done.toFinset = Finset.range s.cur.n := by
  ext k
  rw [List.mem_toFinset, Finset.mem_range]
  exact ⟨h.done_below k, mem_done_of_full h hfull⟩

/-- The next element completes the command exactly when it is the last one left (R104). -/
theorem statusAfterElement_of_left {s : State} {left : Nat} (hfresh : s.element ∉ s.cur.done)
    (hcount : s.cur.done.length + (left + 1) = s.cur.n) : s.statusAfterElement =
      if left = 0 then { s.status with busy := false, done := true } else s.status := by
  have hlen : s.curAfterElement.done.length = s.cur.done.length + 1 := insertDone_length hfresh
  by_cases hlast : left = 0
  · rw [if_pos hlast, statusAfterElement_last (by omega)]
  · rw [if_neg hlast, statusAfterElement_more (by omega)]

/-- With no access listed as erring, the port completes each (R7). -/
theorem memOk_of_memAllOk {s : State} (h : s.memAllOk) (a len : Nat) (dir : Dir) : s.memOk a len dir = true := by
  rw [State.memOk, show s.platform.memErr = [] from h, List.contains_nil, Bool.not_false]

/-- `t` is a state of the run of HIST.U8 from `s` on, with `left` samples of `v` still to do: the counters hold the number of
finished samples of each value, and all else is as at `s`. -/
structure CountPart (v : Nat → Byte) (s : State) (left : Nat) (t : State) : Prop where
  inv : Inv t
  frame : t = { s with
    hist := t.hist, cur := { s.cur with done := t.cur.done }, progress := t.progress
    status := if left = 0 then { s.status with busy := false, done := true } else s.status
    picks := t.picks, draws := t.draws }
  count : t.cur.done.length + left = t.cur.n
  counted : ∀ b, t.hist.get b = .val (BitVec.ofNat 32 (occurrences v b t.cur.done.toFinset))

section
variable {v : Nat → Byte} {s t : State} {left : Nat}

/-- Before the first sample. -/
theorem CountPart.start (h : Inv s) (hdone : s.cur.done = []) (hn : 0 < s.cur.n)
    (hzero : ∀ b, s.hist.get b = .val 0#32) : CountPart v s s.cur.n s where
  inv := h
  frame := by rw [if_neg (by omega)]
  count := by simp [hdone]
  counted b := by simp [hdone, hzero, occurrences]

theorem CountPart.cur_eq (h : CountPart v s left t) : t.cur = { s.cur with done := t.cur.done } :=
  congrArg State.cur h.frame

theorem CountPart.n_eq (h : CountPart v s left t) : t.cur.n = s.cur.n := by rw [h.cur_eq]

theorem CountPart.mem_eq (h : CountPart v s left t) : t.mem = s.mem := by rw [h.frame]

theorem CountPart.platform_eq (h : CountPart v s left t) : t.platform = s.platform := by rw [h.frame]

theorem CountPart.agenda_eq (h : CountPart v s left t) : t.agenda = s.agenda := by rw [h.frame]

theorem CountPart.status_running (h : CountPart v s (left + 1) t) : t.status = s.status :=
  (congrArg State.status h.frame :)

/-- While a sample is left to count, no counter stands at its largest value: N is at most 65535 × 65535 (R21, R144). -/
theorem CountPart.no_overflow (h : CountPart v s (left + 1) t) (b : Byte) :
    (BitVec.ofNat 32 (occurrences v b t.cur.done.toFinset) == 0xFFFFFFFF#32) = false := by
  have hle := occurrences_done_le v b t.cur.done
  have hmax := h.inv.count_le
  have hcount := h.count
  rw [beq_eq_false_iff_ne, ne_eq, ← BitVec.toNat_inj, BitVec.toNat_ofNat, BitVec.toNat_ofNat]
  omega

/-- One sample on: its counter is one higher, and HOVF is as it was. -/
theorem CountPart.step (h : CountPart v s (left + 1) t) (hb : s.status.busy = true) {ch : Channel} {m : BitVec 4}
    {par acc : Bool} (hcmd : s.cur.cmd = .histU8 ch m par acc) (hagenda : s.agenda = []) (hok : s.memAllOk)
    (hv : ∀ k < s.cur.n, s.mem.byte (s.cur.src.toNat + k) = some (v k)) :
    ∃ u, step t = .next u ∧ CountPart v s left u := by
  have hl : t.elementLeft := ⟨by rw [h.status_running, hb], by have := h.count; omega⟩
  obtain ⟨hlt, hfresh⟩ := h.inv.element_unfinished hl
  have hread : t.memOk (t.cur.src.toNat + t.element) 1 .read = true := by
    rw [memOk_of_platform_eq h.platform_eq, memOk_of_memAllOk hok]
  have hseen : (t.seen (t.cur.src.toNat + t.element) 1).getD 0 0#8 = v t.element := by
    refine seen_getD Nat.one_pos ?_
    rw [h.mem_eq, h.cur_eq]
    exact hv _ (h.n_eq ▸ hlt)
  have helem := elemOf_histU8 (ch := ch) (m := m) (par := par) (acc := acc) hread
  rw [hseen] at helem
  obtain ⟨u, hexec, hu, hhist⟩ := exec_count_ok rfl hl helem (h.counted _)
  have hstep : Machine.step t = .next u := by
    rw [step_of_engineMoves (.inl ⟨h.agenda_eq.trans hagenda, rfl⟩) hl.1, ← hexec, h.cur_eq, hcmd]
  have hdone : u.cur.done = insertDone t.element t.cur.done := by rw [hu]; rfl
  refine ⟨u, hstep, stepKeepsInvariant t u h.inv hstep, ?frame, ?count, fun b => ?counted⟩
  case frame =>
    rw [h.no_overflow, Bool.or_false, statusAfterElement_hovf, statusAfterElement_of_left hfresh h.count,
      h.status_running, State.curAfterElement, ← hdone, h.cur_eq] at hu
    rw [hu, h.frame]
  case count =>
    have hn : u.cur.n = t.cur.n := by rw [hu]; rfl
    have hcount := h.count
    rw [hdone, insertDone_length hfresh, hn]
    omega
  case counted =>
    rw [hhist, hdone, toFinset_insertDone, occurrences_insert (by rwa [List.mem_toFinset])]
    split
    · next hbv => rw [hbv, BitVec.ofNat_add]
    · exact h.counted b

end

/-- Settles O60: each step counts one sample, and after the last the finished samples are all of them. -/
theorem histU8CountsImage : Obligations.HistU8CountsImage := by
  intro ch m par s v hs hb hcmd hdone hn hagenda hok hzero hv
  obtain ⟨t, hrun, h⟩ := runsTo_of_countdown (P := CountPart v s) (fun _ _ h => h.step hb hcmd hagenda hok hv)
    (.start hs hdone hn hzero)
  have hstatus : t.status = { s.status with busy := false, done := true } := congrArg State.status h.frame
  have hall : t.cur.done.toFinset = Finset.range s.cur.n := by rw [done_toFinset_of_full h.inv h.count, h.n_eq]
  refine ⟨t, hrun, by rw [hstatus], by rw [hstatus], by rw [hstatus], h.frame, fun b => ?_, h.mem_eq⟩
  rw [h.counted, hall, occurrences]

end Sys2Proof.Machine
end

section
/-! PROOFS. The saturating cast family: the rounding and the clamp on the exact value (R160), the threshold form (R162), what a
pattern denotes (R161), and SAT_OUT (R163). -/

namespace Sys2Proof.Machine

/-! ## Rounding and clamping the exact value (R160) -/

/-- A half above a whole number rounds down to it. -/
theorem floor_natCast_add_half (n : ℕ) : ⌊(n : ℚ) + 1 / 2⌋ = n := by
  rw [Int.floor_natCast_add, show ⌊(1 / 2 : ℚ)⌋ = 0 by norm_num, add_zero]

theorem floor_add_half_nonpos {q : ℚ} (hq : q ≤ 0) : ⌊q + 1 / 2⌋ ≤ 0 := by
  rw [Int.floor_le_iff]
  push_cast
  linarith

theorem floor_add_half_nonneg {q : ℚ} (hq : 0 ≤ q) : 0 ≤ ⌊q + 1 / 2⌋ := by
  rw [Int.floor_nonneg]
  linarith

/-- The model's shift and division round the exact value: no bit is dropped before the half is added. -/
theorem roundHalfUp_eq_floor (m : Nat) (exp : Int) :
    ((roundHalfUp m exp : ℕ) : ℤ) = ⌊(m : ℚ) * 2 ^ exp + 1 / 2⌋ := by
  cases exp with
  | ofNat k =>
    have hvalue : (m : ℚ) * 2 ^ Int.ofNat k = ((m * 2 ^ k : ℕ) : ℚ) := by simp
    rw [hvalue, floor_natCast_add_half]
    rfl
  | negSucc k =>
    have hvalue : (m : ℚ) * 2 ^ Int.negSucc k + 1 / 2 = ((m + 2 ^ k : ℕ) : ℚ) / ((2 ^ (k + 1) : ℕ) : ℚ) := by
      rw [zpow_negSucc]
      push_cast
      field_simp
      ring
    rw [hvalue, Rat.floor_natCast_div_natCast]
    exact Int.natCast_div ..

/-- A finite pattern rounds its magnitude, takes its sign, and clamps (R160). -/
theorem sat_finite_toNat (neg : Bool) (m : Nat) (exp : Int) :
    ((sat (.finite neg m exp)).toNat : ℤ) =
      max 0 (min 255 (if neg then -(roundHalfUp m exp : ℤ) else (roundHalfUp m exp : ℤ))) := by
  simp only [sat, Int.ofNat_eq_natCast]
  generalize (if neg then -(roundHalfUp m exp : ℤ) else (roundHalfUp m exp : ℤ)) = r
  split_ifs <;> rw [BitVec.toNat_ofNat] <;> omega

/-- The cast by its value alone: below 0 the clamp hides which way a half is rounded, so rounding up serves both signs. -/
theorem sat_toNat_of_value {x : Real64} {q : ℚ} (h : x.value = some q) :
    ((sat x).toNat : ℤ) = max 0 (min 255 ⌊q + 1 / 2⌋) := by
  cases x with
  | nan | inf => cases h
  | finite neg m exp =>
    obtain rfl := Option.some.inj h
    have hmag : (0 : ℚ) ≤ (m : ℚ) * 2 ^ exp := by positivity
    rw [sat_finite_toNat, mul_assoc, roundHalfUp_eq_floor]
    cases neg with
    | false => simp only [Bool.false_eq_true, if_false, one_mul]
    | true =>
      have hround := floor_add_half_nonneg hmag
      have hneg : ⌊-1 * ((m : ℚ) * 2 ^ exp) + 1 / 2⌋ ≤ 0 := floor_add_half_nonpos (by linarith)
      rw [if_pos rfl, if_pos rfl]
      omega

/-- Settles O45: at and above 0 the rounding is the same; below, both roundings are at most 0, which the clamp makes 0. -/
theorem satRoundsHalfAwayAndClamps : Obligations.SatRoundsHalfAwayAndClamps := by
  refine ⟨rfl, rfl, rfl, fun x q h => ?_⟩
  rw [sat_toNat_of_value h]
  split
  · next hq =>
    have hup := floor_add_half_nonpos hq.le
    have haway := floor_add_half_nonneg (abs_nonneg q)
    omega
  · next hq => rw [one_mul, abs_of_nonneg (not_lt.mp hq)]

/-! ## The threshold form (R162) -/

/-- What the clamp leaves is the result. -/
theorem sat_eq_of_clamp {x : Real64} {q : ℚ} (h : x.value = some q) {i : Byte}
    (hq : max 0 (min 255 ⌊q + 1 / 2⌋) = (i.toNat : ℤ)) : sat x = i := by
  have hsat := (sat_toNat_of_value h).trans hq
  exact BitVec.eq_of_toNat_eq (by exact_mod_cast hsat)

/-- Settles O46: each clause bounds floor(q + 1/2), and so says where the clamp takes it. -/
theorem satThresholds : Obligations.SatThresholds := by
  intro x q h
  refine ⟨fun hq => ?below, fun hlo hhi => ?between, fun hq => ?above, fun i hq => ?integer, fun i hi hq => ?half⟩
  case below =>
    have hround : ⌊q + 1 / 2⌋ < 1 := Int.floor_lt.mpr (by push_cast; linarith)
    exact sat_eq_of_clamp h (by rw [BitVec.toNat_ofNat]; omega)
  case between =>
    have hround : ⌊q + 1 / 2⌋ < 255 := Int.floor_lt.mpr (by push_cast; linarith)
    have hnonneg := floor_add_half_nonneg (q := q) (by linarith)
    rw [sat_toNat_of_value h]
    omega
  case above =>
    have hround : 255 ≤ ⌊q + 1 / 2⌋ := Int.le_floor.mpr (by push_cast; linarith)
    exact sat_eq_of_clamp h (by rw [BitVec.toNat_ofNat]; omega)
  case integer =>
    have hround : ⌊q + 1 / 2⌋ = i.toNat := by rw [hq, floor_natCast_add_half]
    exact sat_eq_of_clamp h (by omega)
  case half =>
    have hround : ⌊q + 1 / 2⌋ = i.toNat + 1 := by
      rw [hq, add_assoc, add_halves, Int.floor_natCast_add, Int.floor_one]
    exact sat_eq_of_clamp h (by rw [BitVec.toNat_add, BitVec.toNat_ofNat]; omega)

/-! ## Patterns (R161) -/

section
variable {b : BitVec 64}

theorem f64_nan (he : (b.extractLsb' 52 11).toNat = 0x7FF) (hf : (b.extractLsb' 0 52).toNat ≠ 0) : f64 b = .nan := by
  simp only [f64, he, hf, if_true, if_false]

theorem f64_inf (he : (b.extractLsb' 52 11).toNat = 0x7FF) (hf : (b.extractLsb' 0 52).toNat = 0) :
    f64 b = .inf (b.getLsbD 63) := by
  simp only [f64, he, hf, if_true]

/-- Exponent field 0: zero and the subnormals. -/
theorem f64_subnormal (he : (b.extractLsb' 52 11).toNat = 0) :
    f64 b = .finite (b.getLsbD 63) (b.extractLsb' 0 52).toNat (-1074) := by
  simp [f64, he]

/-- The normal numbers have the implicit leading bit. -/
theorem f64_normal (h0 : (b.extractLsb' 52 11).toNat ≠ 0) (hmax : (b.extractLsb' 52 11).toNat ≠ 0x7FF) :
    f64 b = .finite (b.getLsbD 63) (2 ^ 52 + (b.extractLsb' 0 52).toNat) ((b.extractLsb' 52 11).toNat - 1075) := by
  simp only [f64, h0, hmax, if_false, Int.ofNat_eq_natCast]

end

/-- Settles O47: one lemma for each of the four kinds of pattern. -/
theorem patternDenotesValue : Obligations.PatternDenotesValue := by
  intro b
  refine ⟨f64_nan, f64_inf, fun he => ?subnormal, fun h0 hmax => ?normal⟩
  case subnormal => rw [f64_subnormal he, Real64.value]
  case normal =>
    rw [f64_normal h0 hmax, Real64.value]
    push_cast
    rfl

/-! ## The register path (R163) -/

theorem step_rd_satOut (s : State) :
    step (s.facing (rd 0x030#12)) = .next (s.answer (.data ((sat (f64 (s.satInHi ++ s.satInLo))).setWidth 32))) :=
  step_rd (by decide) s

/-- Settles O22: the read casts the pair as it stands, and either half is written with no gate (R98). -/
theorem satOutFollowsInputs : Obligations.SatOutFollowsInputs := by
  intro s
  refine ⟨step_rd_satOut s, fun v => ?_⟩
  obtain ⟨-, hlo, hhi⟩ := alwaysWritableRegisters s v
  exact ⟨hlo, hhi, step_rd_satOut { s with satInLo := v }⟩

end Sys2Proof.Machine
end

section
/-! PROOFS. The exceptions family: a rejected word (R182), the host duties that end a run (R218, R221), and the events at which
the level of irq rises and falls (R187). -/

namespace Sys2Proof.Machine

/-! ## A rejected word (R182) -/

/-- A command whose operand check fails is rejected with that check's code (R92). -/
theorem issue_rejected {i : Instr} {s : State} {e : ErrCode} (he : s.issueError i = some e) :
    issue i s = .next (s.reject e) := by
  simp [issue, he]

/-- Each check of R92 that fails makes the CMD write a rejection, with the code of that check. -/
theorem writeCmd_rejected {w : Word} {s : State} {e : ErrCode}
    (h : (s.status.busy = true ∧ e = .busy) ∨
      (s.status.busy = false ∧ (decode w = .error e ∨ ∃ i, decode w = .ok i ∧ s.issueError i = some e))) :
    writeCmd w s = .next (s.reject e) := by
  obtain ⟨hb, rfl⟩ | ⟨hb, hd | ⟨i, hd, he⟩⟩ := h
  · simp [writeCmd, hb]
  · simp [writeCmd, hb, hd]
  · simp [writeCmd, hb, hd, exec_idle hb, issue_rejected he]

/-- Settles O24: the port's taking of the write touches nothing that the checks read. -/
theorem rejectedWordChangesOnlyError : Obligations.RejectedWordChangesOnlyError := by
  intro s w e h
  rw [step_cmdWrite, writeCmd_rejected (s := s.taken s.agenda) h]
  rfl

/-! ## Broken host duties (R199, R218, R221) -/

/-- Two regions that hold one address in common intersect. -/
theorem meets_of_common_address {p q : Region} {a : Nat} (hp : p.base ≤ a ∧ a < p.base + p.size)
    (hq : q.base ≤ a ∧ a < q.base + q.size) : p.meets q = true := by
  rw [meets_iff]
  omega

/-- A command that the checks accept and that breaks the duty of R221 ends the run. -/
theorem issue_dutyBroken {i : Instr} {s : State} (he : s.issueError i = none) (hd : s.dutyBroken i = true) :
    issue i s = .fault .hostDutyBroken := by
  simp [issue, he, hd]

/-- Settles O28: a byte common to the command's region and a forbidden one breaks the duty. -/
theorem deviceRegionBreaksDuty : Obligations.DeviceRegionBreaksDuty := by
  intro i s a d hb he hd had hregion
  have hforbidden : d ∈ s.platform.forbidden := List.mem_cons.2 hd.symm
  have hduty : s.dutyBroken i = true := by
    refine List.any_eq_true.2 ⟨d, hforbidden, Bool.or_eq_true_iff.2 ?_⟩
    exact hregion.imp (meets_of_common_address · had) (meets_of_common_address · had)
  exact (exec_idle hb).trans (issue_dutyBroken he hduty)

/-- A store of bytes that exist, some of them in a region of the running command, ends the run (R218). -/
theorem step_memStore_owned {addr : Word} {bytes : List Byte} {s : State} (hs : addr.toNat + bytes.length ≤ 2 ^ 32)
    (ho : s.ownedByEngine addr.toNat bytes.length = true) :
    step (s.facing (.memStore addr bytes)) = .fault .hostDutyBroken := by
  have hspan : spanExists addr bytes.length = true := decide_eq_true hs
  simp [step_facing, handle, memStore, hspan, ho]

/-- Settles O50: a byte common to the store and a region of the running command is the engine's. -/
theorem storeIntoLiveRegionFaults : Obligations.StoreIntoLiveRegionFaults := by
  intro s addr bytes x hb hs hlo hhi hregion
  have howned : s.ownedByEngine addr.toNat bytes.length = true := by
    refine Bool.and_eq_true_iff.2 ⟨hb, Bool.or_eq_true_iff.2 ?_⟩
    exact hregion.imp (meets_of_common_address · ⟨hlo, hhi⟩) (meets_of_common_address · ⟨hlo, hhi⟩)
  exact step_memStore_owned hs howned

/-! ## The offsets of the control registers (R22 to R34) -/

/-- The thirteen words from 0x000 on hold different registers. -/
theorem controlAt_inj {w w' : Nat} (hw : w < 13) (h : controlAt w' = controlAt w) : w' = w := by
  have hnamed : ∀ w < 13, controlAt w ≠ .reserved := by decide
  have hdistinct : ∀ w < 13, ∀ w' < 13, controlAt w' = controlAt w → w' = w := by decide
  by_cases hw' : w' < 13
  · exact hdistinct w hw w' hw' h
  · exact absurd (h.symm.trans (controlAt_reserved (Nat.not_lt.1 hw'))) (hnamed w hw)

/-- No control register is a CDF word. -/
theorem controlAt_not_cdf (w : Nat) (i : Byte) : controlAt w ≠ .cdf i := by
  unfold controlAt
  split <;> simp

/-- The only offset that names the control register at word `w`. -/
theorem offset_of_locate_control {off : BitVec 12} {w : Nat} (h0 : off.extractLsb' 0 2 = 0) (hw : w < 13)
    (h : locate off = controlAt w) : off = BitVec.ofNat 12 (4 * w) := by
  obtain ⟨hk, e⟩ | ⟨-, e⟩ | ⟨-, e⟩ | ⟨-, e⟩ := locate_cases off <;> rw [e] at h
  · rw [← controlAt_inj hw h]
    simpa using offset_eq_ofNat h0 hk
  · exact absurd h.symm (controlAt_not_window w _).1
  · exact absurd h.symm (controlAt_not_cdf w _)
  · exact absurd h.symm (controlAt_not_window w _).2

/-- A host write of an RWI location while a command runs is a dropped write (R97). -/
theorem droppedWriteComes {s : State} {off : BitVec 12} (hb : s.status.busy = true) (hw : HostWritesTo off s)
    (hl : (locate off).isRwi = true) : DroppedWriteComes s := by
  refine ⟨hb, ?_⟩
  have ⟨_, h0, _⟩ := hw
  have word (w : Nat) (hw13 : w < 13) (h : locate off = controlAt w) : HostWritesTo (BitVec.ofNat 12 (4 * w)) s :=
    offset_of_locate_control h0 hw13 h ▸ hw
  cases h : locate off with
  | srcAddr => exact .inl ⟨_, by decide, word 4 (by decide) h⟩
  | dstAddr => exact .inl ⟨_, by decide, word 5 (by decide) h⟩
  | width => exact .inl ⟨_, by decide, word 6 (by decide) h⟩
  | height => exact .inl ⟨_, by decide, word 7 (by decide) h⟩
  | lutAddr => exact .inl ⟨_, by decide, word 8 (by decide) h⟩
  | hist i => exact .inr ⟨i, .inl (offset_of_locate_hist h0 h ▸ hw)⟩
  | lut i => exact .inr ⟨i, .inr (offset_of_locate_lut h0 h ▸ hw)⟩
  | _ => rw [h] at hl; cases hl

/-! ## The level of irq (R187) -/

/-- What a host write to a location other than CMD does to the flags and their enables: a write of STATUS clears flags, a
write of IRQ_EN sets the enables, a dropped write records BUSY, and the others touch none of them (R23, R97, R98). -/
theorem writeAt_irq_cases (l : Location) (v : Word) (s : State) :
    ((State.writeAt l v s).status = s.status ∧ (State.writeAt l v s).irqEn = s.irqEn) ∨
    (l = .status ∧ State.writeAt l v s = s.clearStatus v) ∨
    (l = .irqEn ∧ State.writeAt l v s = { s with irqEn := IrqEn.ofWord v }) ∨
    (l.isRwi = true ∧ s.status.busy = true ∧ State.writeAt l v s = s.recordError .busy) := by
  cases l with
  | status => exact .inr (.inl ⟨rfl, rfl⟩)
  | irqEn => exact .inr (.inr (.inl ⟨rfl, rfl⟩))
  | srcAddr | dstAddr | width | height | lutAddr | hist | lut =>
    cases hb : s.status.busy with
    | true => exact .inr (.inr (.inr ⟨rfl, rfl, if_pos hb⟩))
    | false => exact .inl ⟨by simp only [State.writeAt, rwi_idle hb], by simp only [State.writeAt, rwi_idle hb]⟩
  | _ => exact .inl ⟨rfl, rfl⟩

/-- What a step does to the level of irq, by its cause. -/
inductive IrqStep (s t : State) : Prop where
  /-- No event of R187. -/
  | kept (hirq : t.irq = s.irq)
  /-- The command completes (R106). -/
  | completed (u : State) (hm : EngineMoves s u) (hb : s.status.busy = true) (hend : t.status.busy = false)
      (hdone : t.status.done = true) (hirq : t.irq = (s.irqEn.doneIe || (s.status.error && s.irqEn.errorIe)))
  /-- The command aborts (R107). -/
  | aborted (u : State) (hm : EngineMoves s u) (hb : s.status.busy = true) (hend : t.status.busy = false)
      (herror : t.status.error = true) (hcode : t.status.errcode = .bus)
      (hirq : t.irq = ((s.status.done && s.irqEn.doneIe) || s.irqEn.errorIe))
  /-- A rejected CMD write or a dropped RWI write records its error (R181). -/
  | recorded (hc : RejectionComes s ∨ DroppedWriteComes s) (herror : t.status.error = true)
      (hirq : t.irq = ((s.status.done && s.irqEn.doneIe) || s.irqEn.errorIe))
  /-- The host clears bits of STATUS (R23). -/
  | cleared (v : Word) (hw : HostWrites 0x004#12 v s)
      (hirq : t.irq = ((s.status.done && !v.getLsbD 1 && s.irqEn.doneIe) ||
        (s.status.error && !v.getLsbD 2 && s.irqEn.errorIe)))
  /-- The host writes the enables (R98). -/
  | enabled (v : Word) (hw : HostWrites 0x008#12 v s)
      (hirq : t.irq = ((s.status.done && v.getLsbD 0) || (s.status.error && v.getLsbD 1)))
  /-- A command is accepted, which clears DONE (R94). -/
  | accepted (i : Instr) (hc : AcceptanceComes i s) (hirq : t.irq = (s.status.error && s.irqEn.errorIe))
  /-- Reset (R210). -/
  | reset (hc : ResetComes s) (hirq : t.irq = false)

/-- An engine step keeps the enables. -/
theorem EngineStep.irqEn_eq {i : Instr} {s t : State} (h : EngineStep i s t) : t.irqEn = s.irqEn := by
  rw [h.keeps]

/-- The engine's step as a cause of irq: the command goes on, completes, or aborts. -/
theorem EngineStep.irqStep {i : Instr} {s u t : State} (he : EngineStep i u t) (hm : EngineMoves s u)
    (hb : s.status.busy = true) : IrqStep s t := by
  have hen : t.irqEn = s.irqEn := by rw [he.irqEn_eq, hm.eq]
  have hst := he.status
  rw [hm.status_eq] at hst
  obtain e | e | e := hst
  · refine .kept ?_
    rw [State.irq, hen, e]
    rfl
  · refine .completed u hm hb (by rw [e]) (by rw [e]) ?_
    rw [State.irq, hen, e]
    rfl
  · refine .aborted u hm hb (by rw [e]) (by rw [e]) (by rw [e]) ?_
    rw [State.irq, hen, e]
    simp

/-- Recording an error sets ERROR, and touches neither DONE nor the enables (R181). -/
theorem irq_recordError (e : ErrCode) (s : State) :
    (s.recordError e).irq = ((s.status.done && s.irqEn.doneIe) || s.irqEn.errorIe) := by
  simp [State.irq, Status.withError]

/-- A host write to a location other than CMD as a cause of irq. -/
theorem irqStep_writeAt {s : State} {off : BitVec 12} {v : Word} {rest : List Event} (ha : s.agenda = wr off v :: rest)
    (h0 : off.extractLsb' 0 2 = 0) : IrqStep s (State.writeAt (locate off) v (s.taken rest)) := by
  have hw : HostWrites off v s := ⟨h0, rest, ha⟩
  obtain ⟨hst, hen⟩ | ⟨hl, e⟩ | ⟨hl, e⟩ | ⟨hl, hb, e⟩ := writeAt_irq_cases (locate off) v (s.taken rest)
  · refine .kept ?_
    rw [State.irq, hst, hen]
    rfl
  · refine .cleared v (offset_of_locate_control (w := 1) h0 (by decide) hl ▸ hw) ?_
    rw [e]
    rfl
  · refine .enabled v (offset_of_locate_control (w := 2) h0 (by decide) hl ▸ hw) ?_
    rw [e]
    rfl
  · rw [e]
    exact .recorded (.inr (droppedWriteComes hb ⟨v, hw⟩ hl)) rfl (irq_recordError .busy (s.taken rest))

/-- Every step has one of the causes. -/
theorem StepTo.irqStep {s t : State} (h : StepTo s t) : IrqStep s t := by
  cases h with
  | engine u t hm hb _ he => exact he.irqStep hm hb
  | written off v rest ha h0 => exact irqStep_writeAt ha h0
  | rejected w rest e ha _ hr =>
    have hc : RejectionComes s := by
      refine ⟨w, ⟨rfl, rest, ha⟩, ?_⟩
      obtain ⟨hb, -⟩ | ⟨-, hd | ⟨i, hd, he⟩⟩ := hr
      · exact .inl hb
      · exact .inr (.inl ⟨e, hd⟩)
      · exact .inr (.inr ⟨i, e, hd, he⟩)
    exact .recorded (.inl hc) rfl (irq_recordError e (s.taken rest))
  | accepted w rest i ha hb hd hi => exact .accepted i ⟨hb, hi, w, ⟨rfl, rest, ha⟩, hd⟩ rfl
  | reset p rest ha => exact .reset ⟨p, rest, ha⟩ rfl
  | stored => exact .kept (by rw [State.irq, markHost_status, markHost_irqEn]; rfl)
  | idle | idleEngine | answered | loaded | maintained => exact .kept rfl

/-- The level of irq (R187). -/
theorem irq_iff {s : State} : s.irq = true ↔
    (s.status.done = true ∧ s.irqEn.doneIe = true) ∨ (s.status.error = true ∧ s.irqEn.errorIe = true) := by
  simp [State.irq]

/-- The causes that raise irq. -/
theorem IrqStep.of_rise {s t : State} (h : IrqStep s t) (hs : s.irq = false) (ht : t.irq = true) :
    (s.status.busy = true ∧ t.status.busy = false ∧ (∃ u, EngineMoves s u) ∧
      ((t.status.done = true ∧ s.irqEn.doneIe = true) ∨
       (t.status.error = true ∧ t.status.errcode = .bus ∧ s.irqEn.errorIe = true))) ∨
    ((RejectionComes s ∨ DroppedWriteComes s) ∧ s.irqEn.errorIe = true ∧ s.status.error = false ∧
      t.status.error = true) ∨
    (∃ v, HostWrites 0x008#12 v s ∧
      ((s.status.done = true ∧ v.getLsbD 0 = true) ∨ (s.status.error = true ∧ v.getLsbD 1 = true))) := by
  obtain ⟨hdone, herror⟩ : (s.status.done && s.irqEn.doneIe) = false ∧ (s.status.error && s.irqEn.errorIe) = false :=
    Bool.or_eq_false_iff.1 hs
  cases h with
  | kept hirq => simp [hirq, hs] at ht
  | completed u hm hb hend hdone' hirq =>
    rw [hirq, herror, Bool.or_false] at ht
    exact .inl ⟨hb, hend, ⟨u, hm⟩, .inl ⟨hdone', ht⟩⟩
  | aborted u hm hb hend herror' hcode hirq =>
    rw [hirq, hdone, Bool.false_or] at ht
    exact .inl ⟨hb, hend, ⟨u, hm⟩, .inr ⟨herror', hcode, ht⟩⟩
  | recorded hc herror' hirq =>
    rw [hirq, hdone, Bool.false_or] at ht
    rw [ht, Bool.and_true] at herror
    exact .inr (.inl ⟨hc, ht, herror, herror'⟩)
  | enabled v hw hirq => exact .inr (.inr ⟨v, hw, by simpa [hirq] using ht⟩)
  | cleared v hw hirq => rw [hirq, Bool.and_right_comm, hdone, Bool.and_right_comm, herror] at ht; cases ht
  | accepted i hc hirq => rw [hirq, herror] at ht; cases ht
  | reset hc hirq => rw [hirq] at ht; cases ht

/-- The causes that lower irq. -/
theorem IrqStep.of_fall {s t : State} (h : IrqStep s t) (hs : s.irq = true) (ht : t.irq = false) :
    ResetComes s ∨
    (∃ v, HostWrites 0x004#12 v s ∧
      ((s.status.done = true ∧ v.getLsbD 1 = true) ∨ (s.status.error = true ∧ v.getLsbD 2 = true))) ∨
    (∃ v, HostWrites 0x008#12 v s ∧
      ((s.irqEn.doneIe = true ∧ v.getLsbD 0 = false) ∨ (s.irqEn.errorIe = true ∧ v.getLsbD 1 = false))) ∨
    (s.status.done = true ∧ s.irqEn.doneIe = true ∧ ∃ i : Instr, AcceptanceComes i s) := by
  have hlevel := irq_iff.1 hs
  cases h with
  | kept hirq => simp [hirq, hs] at ht
  | completed _ _ _ _ _ hirq | aborted _ _ _ _ _ _ hirq | recorded _ _ hirq =>
    -- these set a flag and clear none, so what held irq up still does
    rw [hirq] at ht
    obtain ⟨hflag, hen⟩ | ⟨hflag, hen⟩ := hlevel <;> simp [hflag, hen] at ht
  | cleared v hw hirq =>
    obtain ⟨hd, he⟩ := Bool.or_eq_false_iff.1 (hirq.symm.trans ht)
    exact .inr (.inl ⟨v, hw, hlevel.imp (fun ⟨hdone, hen⟩ => ⟨hdone, by simpa [hdone, hen] using hd⟩)
      (fun ⟨herror, hen⟩ => ⟨herror, by simpa [herror, hen] using he⟩)⟩)
  | enabled v hw hirq =>
    obtain ⟨hd, he⟩ := Bool.or_eq_false_iff.1 (hirq.symm.trans ht)
    exact .inr (.inr (.inl ⟨v, hw, hlevel.imp (fun ⟨hdone, hen⟩ => ⟨hen, by simpa [hdone] using hd⟩)
      (fun ⟨herror, hen⟩ => ⟨hen, by simpa [herror] using he⟩)⟩))
  | accepted i hc hirq =>
    obtain ⟨hdone, hen⟩ := hlevel.resolve_right (by simpa [hirq] using ht)
    exact .inr (.inr (.inr ⟨hdone, hen, i, hc⟩))
  | reset hc hirq => exact .inl hc

/-- Settles O55: every step has one of the causes, and each sets the level from the flags and the enables. -/
theorem irqLevelRisesAndFalls : Obligations.IrqLevelRisesAndFalls :=
  ⟨fun _ => irq_iff, fun _ _ hstep => (stepTo_of_step hstep).irqStep.of_rise,
    fun _ _ hstep => (stepTo_of_step hstep).irqStep.of_fall⟩

end Sys2Proof.Machine
end

section
/-! PROOFS. The reset and hazards family: what the registers and the arrays hold after reset, that the block then waits for a
CMD write (R210, R212), and the invariant at reset. -/

namespace Sys2Proof.Machine

/-! ## The reset event (R210) -/

/-- Reset is one step, whatever the block was doing. -/
theorem step_reset (p : Option InFlight) (s : State) : step (s.facing (.reset p)) = .next (s.afterReset p) :=
  step_facing _ s

/-! ## What the host reads after reset (R163, R187, R210) -/

/-- STATUS reads 0 (R23). -/
theorem word_statusReset : Status.reset.word = 0#32 := by decide

/-- IRQ_EN reads 0 (R24). -/
theorem word_irqEnReset : IrqEn.reset.word = 0#32 := by decide

/-- The pattern of all zero bits denotes 0 (R161). -/
theorem f64_zero_value : (f64 0#64).value = some 0 := by
  simp [f64_subnormal, Real64.value]

/-- Zero casts to 0 (R162). -/
theorem sat_f64_zero : sat (f64 0#64) = 0#8 :=
  sat_eq_of_clamp f64_zero_value (by norm_num)

/-- SAT_OUT casts the two input registers, and both are 0 (R163). -/
theorem afterReset_satOut (p : Option InFlight) (s : State) : (s.afterReset p).satOut = 0#32 := by
  have hpattern : State.reset.satInHi ++ State.reset.satInLo = 0#64 := rfl
  rw [State.satOut, afterReset_satInHi, afterReset_satInLo, hpattern, sat_f64_zero]
  rfl

/-- No flag is set and no interrupt is enabled, so irq is down (R187). -/
theorem afterReset_irq (p : Option InFlight) (s : State) : (s.afterReset p).irq = false := rfl

/-! ## An idle block waits for a CMD write (R90, R103) -/

/-- The event that raises BUSY is a host write to CMD. -/
theorem cmdWrite_of_busy_rise {e : Event} {t u : State} (ht : t.status.busy = false)
    (hstep : step (t.facing e) = .next u) (hu : u.status.busy = true) : ∃ w : Word, e = wr 0x00C#12 w := by
  obtain ⟨w, _, _, hagenda, -⟩ := onlyCmdWriteStartsWork (t.facing e) u ht hstep hu
  exact ⟨w, (List.cons.inj hagenda).1⟩

/-- Settles O9: the registers are those of `State.reset`, and a block with BUSY = 0 is moved by nothing but a CMD write. -/
theorem resetSetsRegisters : Obligations.ResetSetsRegisters := by
  intro s p
  have hidle : (s.afterReset p).status.busy = false := rfl
  obtain ⟨-, -, -, hempty, hengine, -⟩ := engineTurnRunsLatchedCommand (s.afterReset p)
  exact ⟨s.afterReset p, step_reset p s, word_statusReset, word_irqEnReset,
    rfl, rfl, rfl, rfl, rfl, rfl, rfl, rfl, rfl, congrArg Except.ok (afterReset_satOut p s), rfl, afterReset_irq p s, hempty hidle, hengine hidle,
    fun _ _ hstep hbusy => cmdWrite_of_busy_rise hidle hstep hbusy⟩

/-! ## The arrays after reset (R212) -/

@[simp] theorem get_reset_lut (i : Byte) : State.reset.lut.get i = LutEntry.reset := by
  simp [State.reset, Table.get]

@[simp] theorem get_reset_hist (i : Byte) : State.reset.hist.get i = .unspec := by
  simp [State.reset, Table.get]

@[simp] theorem get_reset_cdf (i : Byte) : State.reset.cdf.get i = .unspec := by
  simp [State.reset, Table.get]

@[simp] theorem lane_reset (c : Channel) : LutEntry.reset.lane c = .unspec := by
  cases c <;> rfl

/-- Settles O10: the three arrays are those of `State.reset`, whatever they held. -/
theorem resetLeavesArraysUnspec : Obligations.ResetLeavesArraysUnspec := by
  refine fun s p => ⟨s.afterReset p, step_reset p s, fun i => ⟨fun c => ?lut, ?hist, ?cdf⟩⟩
  case lut => rw [afterReset_lut, get_reset_lut, lane_reset]
  case hist => rw [afterReset_hist, get_reset_hist]
  case cdf => rw [afterReset_cdf, get_reset_cdf]

/-! ## The invariant at reset -/

/-- Settles O12: memory is empty, no element is finished, and the clauses on a running command ask nothing at BUSY = 0. -/
theorem resetMeetsInvariant : Obligations.ResetMeetsInvariant where
  mem_wf := Memory.wf_reset
  view_wf := Memory.wf_reset
  done_rising := .nil
  done_below _ hk := nomatch hk
  progress_eq := rfl
  count_le := Nat.zero_le _
  errcode_iff := ⟨fun _ => rfl, fun _ => rfl⟩
  busy_not_done hb := nomatch hb
  busy_left hb := nomatch hb
  busy_latched hb := nomatch hb
  busy_checked hb := nomatch hb

end Sys2Proof.Machine
end
